-- ==== Sys2Proof/Word.lean ====
section
/-!
DEFINITION. The word types of the machine (00_scope.md R7, R8). Nothing here can be mended later, so it
holds only names of widths.
-/

namespace Sys2Proof

/-- A byte, 8 bits (00_scope.md R7). -/
abbrev Byte := BitVec 8

/-- A quadword, 64 bits: a general register, an address, a control register. -/
abbrev Quad := BitVec 64

/-- A vector register as stored: 512 bits (10_state.md R20; log 5). -/
abbrev VecReg := BitVec 512

end Sys2Proof
end

