-- ==== Sys2Proof/Syntax.lean ====
section
/-!
DEFINITION. The instructions as syntax: one constructor of `Instr` per row of spec/opcode_table.json
(30_encoding.md R96), each holding every bit of its encoding that the row leaves open. Extension bits
(R, X, B, R', V', vvvv) are held as true, un-inverted values (R89).
-/

namespace Sys2Proof

/-- The operating modes: the two of 00_scope.md R6, and the two others whose behaviour 30_encoding.md R98
gives (log 2). -/
inductive Mode
  | mode64
  | compat32
  | real
  | v86
  deriving DecidableEq, Repr

/-- Segment registers (10_state.md R29). -/
inductive SegReg
  | es | cs | ss | ds | fs | gs
  deriving DecidableEq, Repr

/-- Legacy prefix bytes (30_encoding.md R81): 26 2E 36 3E 64 65, 67, 66, F0, F2, F3. -/
inductive Pfx
  | seg (r : SegReg)
  | addrSize
  | opSize
  | lock
  | repne
  | rep
  deriving DecidableEq, Repr

/-- The kinds of legacy prefix, of which at most one each is admitted (R81, D17). -/
inductive PfxKind
  | seg | addrSize | opSize | lock | repne | rep
  deriving DecidableEq, Repr

/-- A REX prefix `0100 W R X B` (R88). -/
structure Rex where
  w : Bool
  r : Bool
  x : Bool
  b : Bool
  deriving DecidableEq, Repr

/-- The displacement that `mod` asks for under 32- or 64-bit addressing (R87). -/
inductive Disp
  | none
  | d8 (d : BitVec 8)
  | d32 (d : BitVec 32)
  deriving DecidableEq, Repr

/-- The displacement that `mod` asks for under 16-bit addressing (R87). -/
inductive Disp16
  | none
  | d8 (d : BitVec 8)
  | d16 (d : BitVec 16)
  deriving DecidableEq, Repr

/-- The memory forms of ModRM, SIB and displacement (R86, R87; 20_memory.md R53). -/
inductive MemForm
  /-- `rm ≠ 100b`, base register and displacement. -/
  | base (rm : BitVec 3) (d : Disp)
  /-- `mod = 00b`, `rm = 101b`: RIP-relative in `Mode64`, else absolute. -/
  | disp (d : BitVec 32)
  /-- SIB with a base register. -/
  | sib (scale : BitVec 2) (index base : BitVec 3) (d : Disp)
  /-- SIB with `mod = 00b` and base `101b`: index and displacement only. -/
  | sibNoBase (scale : BitVec 2) (index : BitVec 3) (d : BitVec 32)
  /-- 16-bit addressing, registers and displacement. -/
  | base16 (rm : BitVec 3) (d : Disp16)
  /-- 16-bit addressing, `mod = 00b`, `rm = 110b`: displacement alone. -/
  | disp16 (d : BitVec 16)
  deriving DecidableEq, Repr

/-- The "ModRM:r/m" operand (R86): a register number's low three bits (`mod = 11b`), or memory. -/
inductive Rm
  | reg (n : BitVec 3)
  | mem (m : MemForm)
  deriving DecidableEq, Repr

/-- Format `LEG` (R80): legacy prefixes in the order they stand, REX, ModRM. -/
structure LegInstr where
  pfx : List Pfx
  rex : Option Rex
  reg : BitVec 3
  rm  : Rm
  deriving DecidableEq, Repr

/-- The two forms of the VEX prefix (R90); L, pp and the map are the row's. -/
inductive VexForm
  | two (r : Bool) (vvvv : BitVec 4)
  | three (r x b w : Bool) (vvvv : BitVec 4)
  deriving DecidableEq, Repr

/-- Format `VEX` (R80, R90). -/
structure VexInstr where
  pfx : List Pfx
  rex : Option Rex
  vex : VexForm
  reg : BitVec 3
  rm  : Rm
  deriving DecidableEq, Repr

/-- Format `EVEX` (R80, R91); L'L, pp and the map are the row's. `reserved` is P0[3:2], `fixed1` P1[2]. -/
structure EvexInstr where
  pfx      : List Pfx
  rex      : Option Rex
  r        : Bool
  x        : Bool
  b        : Bool
  r'       : Bool
  reserved : BitVec 2
  w        : Bool
  vvvv     : BitVec 4
  fixed1   : Bool
  z        : Bool
  bcst     : Bool
  v'       : Bool
  aaa      : BitVec 3
  reg      : BitVec 3
  rm       : Rm
  deriving DecidableEq, Repr

/-- The fourteen rows of 30_encoding.md R96, in the page's order. -/
inductive Instr
  | paddsbMm (l : LegInstr)
  | paddsbXmm (l : LegInstr)
  | paddswMm (l : LegInstr)
  | paddswXmm (l : LegInstr)
  | vpaddsbVex128 (v : VexInstr)
  | vpaddswVex128 (v : VexInstr)
  | vpaddsbVex256 (v : VexInstr)
  | vpaddswVex256 (v : VexInstr)
  | vpaddsbEvex128 (e : EvexInstr)
  | vpaddsbEvex256 (e : EvexInstr)
  | vpaddsbEvex512 (e : EvexInstr)
  | vpaddswEvex128 (e : EvexInstr)
  | vpaddswEvex256 (e : EvexInstr)
  | vpaddswEvex512 (e : EvexInstr)
  deriving DecidableEq, Repr

/-- Why the decoder refuses a byte sequence (30_encoding.md R97 item 3). Every one is safe: the model stops
where the hardware has another instruction or an exception the spec does not give. -/
inductive DecodeRefusal
  /-- The opcode bytes are none of the family's. -/
  | notInFamily
  /-- The same legacy prefix twice (D17). -/
  | repeatedPrefix
  /-- Two different segment overrides (D17). -/
  | twoSegmentOverrides
  /-- F2 or F3 before a legacy opcode of the family. -/
  | repLegacy
  /-- A REX byte followed by another prefix instead of the opcode (R88). -/
  | rexNotLast
  /-- Bytes 40 to 4F outside `Mode64` (R88). -/
  | rexOutsideMode64
  /-- C4 or C5 that is LES or LDS outside `Mode64` (R90). -/
  | notVexHere
  /-- 62 that is BOUND outside `Mode64` (R91). -/
  | notEvexHere
  /-- VEX or EVEX with `pp` other than 01b (R83). -/
  | otherPp
  /-- VEX or EVEX with a map other than 0F (R90, R91). -/
  | otherMap
  /-- A high register bit set outside `Mode64` (R90, R91, D17). -/
  | highRegister
  deriving DecidableEq, Repr

end Sys2Proof
end

