-- ==== Sys2Proof/Decode.lean ====
section
/-!
DEFINITION. The decoder, total on any bytes and rejecting by name (30_encoding.md R80 to R98), and the
encoder written from the same tables.
-/

namespace Sys2Proof

/-- The answer of a parser: a value and the bytes left, a wish for more bytes, or a refusal by name. -/
inductive Parsed (α : Type) where
  | ok (a : α) (rest : List Byte)
  | short
  | refused (r : DecodeRefusal)
  deriving DecidableEq, Repr

/-- One parser after another. -/
def Parsed.andThen {α β : Type} (p : Parsed α) (f : α → List Byte → Parsed β) : Parsed β :=
  match p with
  | .ok a rest => f a rest
  | .short => .short
  | .refused r => .refused r

/-- The decoder's positive verdicts (R97): a row, or bytes that match the EVEX rows in all but
`L'L = 11b` (item 2), which raise #UD. The other conditions of item 2 stay in the row's fields. -/
inductive Verdict
  | row (i : Instr)
  | reservedLength
  deriving DecidableEq, Repr

def takeByte : List Byte → Parsed Byte
  | [] => .short
  | b :: bs => .ok b bs

/-- A 16-bit displacement, least significant byte first (R87). -/
def takeD16 (bs : List Byte) : Parsed (BitVec 16) :=
  (takeByte bs).andThen fun b0 bs => (takeByte bs).andThen fun b1 bs => .ok (b1 ++ b0) bs

/-- A 32-bit displacement, least significant byte first (R87). -/
def takeD32 (bs : List Byte) : Parsed (BitVec 32) :=
  (takeD16 bs).andThen fun lo bs => (takeD16 bs).andThen fun hi bs => .ok (hi ++ lo) bs

/-! ### Legacy prefixes (R81) -/

def Pfx.kind : Pfx → PfxKind
  | .seg _ => .seg
  | .addrSize => .addrSize
  | .opSize => .opSize
  | .lock => .lock
  | .repne => .repne
  | .rep => .rep

def Pfx.byte : Pfx → Byte
  | .seg .es => 0x26#8
  | .seg .cs => 0x2E#8
  | .seg .ss => 0x36#8
  | .seg .ds => 0x3E#8
  | .seg .fs => 0x64#8
  | .seg .gs => 0x65#8
  | .addrSize => 0x67#8
  | .opSize => 0x66#8
  | .lock => 0xF0#8
  | .repne => 0xF2#8
  | .rep => 0xF3#8

def Pfx.ofByte (b : Byte) : Option Pfx :=
  if b = 0x26#8 then some (.seg .es)
  else if b = 0x2E#8 then some (.seg .cs)
  else if b = 0x36#8 then some (.seg .ss)
  else if b = 0x3E#8 then some (.seg .ds)
  else if b = 0x64#8 then some (.seg .fs)
  else if b = 0x65#8 then some (.seg .gs)
  else if b = 0x67#8 then some .addrSize
  else if b = 0x66#8 then some .opSize
  else if b = 0xF0#8 then some .lock
  else if b = 0xF2#8 then some .repne
  else if b = 0xF3#8 then some .rep
  else none

/-- Why a second prefix of a kind already seen is refused (R97 item 3, D17). -/
def clash (p : Pfx) (seen : List Pfx) : Option DecodeRefusal :=
  if p ∈ seen then some .repeatedPrefix
  else if p.kind ∈ seen.map Pfx.kind then some .twoSegmentOverrides
  else none

/-- The legacy prefixes in the order they stand, until a byte that is none. -/
def takePfx : List Byte → List Pfx → Parsed (List Pfx)
  | [], _ => .short
  | b :: bs, seen =>
    match Pfx.ofByte b with
    | none => .ok seen (b :: bs)
    | some p =>
      match clash p seen with
      | some r => .refused r
      | none => takePfx bs (seen ++ [p])

/-! ### REX (R88) -/

def Rex.byte (r : Rex) : Byte :=
  0x4#4 ++ BitVec.ofBool r.w ++ BitVec.ofBool r.r ++ BitVec.ofBool r.x ++ BitVec.ofBool r.b

def Rex.isRex (b : Byte) : Bool := b.extractLsb' 4 4 == 0x4#4

def Rex.ofByte (b : Byte) : Rex :=
  ⟨b.getLsbD 3, b.getLsbD 2, b.getLsbD 1, b.getLsbD 0⟩

/-! ### ModRM, SIB, displacement (R86, R87) -/

/-- Whether the instruction is under 16-bit addressing: 67 in `Compat32`, no 67 in real-address and
virtual-8086 mode (20_memory.md R53, R98). -/
def addr16 (md : Mode) (pfx : List Pfx) : Bool :=
  match md with
  | .mode64 => false
  | .compat32 => pfx.contains .addrSize
  | .real => !pfx.contains .addrSize
  | .v86 => !pfx.contains .addrSize

/-- The displacement for a memory `mod` field, 32- and 64-bit addressing. -/
def takeDisp (mod : BitVec 2) (bs : List Byte) : Parsed Disp :=
  if mod = 0#2 then .ok .none bs
  else if mod = 1#2 then (takeByte bs).andThen fun d bs => .ok (.d8 d) bs
  else (takeD32 bs).andThen fun d bs => .ok (.d32 d) bs

/-- The displacement for a memory `mod` field, 16-bit addressing. -/
def takeDisp16 (mod : BitVec 2) (bs : List Byte) : Parsed Disp16 :=
  if mod = 0#2 then .ok .none bs
  else if mod = 1#2 then (takeByte bs).andThen fun d bs => .ok (.d8 d) bs
  else (takeD16 bs).andThen fun d bs => .ok (.d16 d) bs

/-- The memory form that `mod ≠ 11b` and `rm` name, 16-bit addressing. -/
def takeMem16 (mod : BitVec 2) (rm : BitVec 3) (bs : List Byte) : Parsed MemForm :=
  if mod = 0#2 ∧ rm = 6#3 then (takeD16 bs).andThen fun d bs => .ok (.disp16 d) bs
  else (takeDisp16 mod bs).andThen fun d bs => .ok (.base16 rm d) bs

/-- The memory form behind a SIB byte. -/
def takeSib (mod : BitVec 2) (bs : List Byte) : Parsed MemForm :=
  (takeByte bs).andThen fun s bs =>
    if mod = 0#2 ∧ s.extractLsb' 0 3 = 5#3 then
      (takeD32 bs).andThen fun d bs => .ok (.sibNoBase (s.extractLsb' 6 2) (s.extractLsb' 3 3) d) bs
    else
      (takeDisp mod bs).andThen fun d bs =>
        .ok (.sib (s.extractLsb' 6 2) (s.extractLsb' 3 3) (s.extractLsb' 0 3) d) bs

/-- The memory form that `mod ≠ 11b` and `rm` name, 32- and 64-bit addressing. -/
def takeMem32 (mod : BitVec 2) (rm : BitVec 3) (bs : List Byte) : Parsed MemForm :=
  if rm = 4#3 then takeSib mod bs
  else if mod = 0#2 ∧ rm = 5#3 then (takeD32 bs).andThen fun d bs => .ok (.disp d) bs
  else (takeDisp mod bs).andThen fun d bs => .ok (.base rm d) bs

/-- ModRM with what follows it: the `reg` field and the r/m operand. -/
def takeModRm (a16 : Bool) (bs : List Byte) : Parsed (BitVec 3 × Rm) :=
  (takeByte bs).andThen fun m bs =>
    if m.extractLsb' 6 2 = 3#2 then .ok (m.extractLsb' 3 3, .reg (m.extractLsb' 0 3)) bs
    else
      ((if a16 then takeMem16 else takeMem32) (m.extractLsb' 6 2) (m.extractLsb' 0 3) bs).andThen
        fun f bs => .ok (m.extractLsb' 3 3, .mem f) bs

/-! ### The three formats (R80) -/

/-- The element of the opcode's last byte (R82): EC bytes (`false`), ED words (`true`). -/
def takeOp (bs : List Byte) : Parsed Bool :=
  (takeByte bs).andThen fun op bs =>
    if op = 0xEC#8 then .ok false bs
    else if op = 0xED#8 then .ok true bs
    else .refused .notInFamily

/-- The legacy row that a 66 prefix and the opcode select (R83). -/
def legRow (opSize word : Bool) (l : LegInstr) : Instr :=
  match opSize, word with
  | false, false => .paddsbMm l
  | true, false => .paddsbXmm l
  | false, true => .paddswMm l
  | true, true => .paddswXmm l

/-- Format `LEG` after its 0F. -/
def takeLeg (md : Mode) (pfx : List Pfx) (rex : Option Rex) (bs : List Byte) : Parsed Verdict :=
  (takeOp bs).andThen fun word bs =>
    if pfx.contains .rep || pfx.contains .repne then .refused .repLegacy
    else (takeModRm (addr16 md pfx) bs).andThen fun m bs =>
      .ok (.row (legRow (pfx.contains .opSize) word ⟨pfx, rex, m.1, m.2⟩)) bs

/-- The VEX row that L and the opcode select (R96). -/
def vexRow (l word : Bool) (v : VexInstr) : Instr :=
  match l, word with
  | false, false => .vpaddsbVex128 v
  | false, true => .vpaddswVex128 v
  | true, false => .vpaddsbVex256 v
  | true, true => .vpaddswVex256 v

/-- Outside `Mode64` only register numbers 0 to 7 are admitted (R89, D17). -/
def VexForm.low : VexForm → Bool
  | .two r v => !r && !v.getLsbD 3
  | .three r x b _ v => !r && !x && !b && !v.getLsbD 3

/-- Format `VEX` after the VEX prefix: `pp` and the map have been read. -/
def takeVexTail (md : Mode) (pfx : List Pfx) (rex : Option Rex) (f : VexForm) (map : BitVec 5)
    (l : Bool) (pp : BitVec 2) (bs : List Byte) : Parsed Verdict :=
  if map ≠ 1#5 then .refused .otherMap
  else if pp ≠ 1#2 then .refused .otherPp
  else (takeOp bs).andThen fun word bs =>
    if md ≠ .mode64 ∧ f.low = false then .refused .highRegister
    else (takeModRm (addr16 md pfx) bs).andThen fun m bs =>
      .ok (.row (vexRow l word ⟨pfx, rex, f, m.1, m.2⟩)) bs

/-- The byte after C4, C5 or 62 makes it a prefix: always in `Mode64`, else only when its bits 7:6 are 11b
(R90, R91). -/
def isVectorPrefix (md : Mode) (b : Byte) : Bool :=
  md == .mode64 || b.extractLsb' 6 2 == 3#2

/-- After a C5 byte (R90). -/
def takeVex2 (md : Mode) (pfx : List Pfx) (rex : Option Rex) (bs : List Byte) : Parsed Verdict :=
  (takeByte bs).andThen fun v bs =>
    if isVectorPrefix md v then
      takeVexTail md pfx rex (.two (!v.getLsbD 7) (~~~ v.extractLsb' 3 4)) 1#5 (v.getLsbD 2)
        (v.extractLsb' 0 2) bs
    else .refused .notVexHere

/-- After a C4 byte (R90). -/
def takeVex3 (md : Mode) (pfx : List Pfx) (rex : Option Rex) (bs : List Byte) : Parsed Verdict :=
  (takeByte bs).andThen fun v1 bs =>
    if isVectorPrefix md v1 then
      (takeByte bs).andThen fun v2 bs =>
        takeVexTail md pfx rex
          (.three (!v1.getLsbD 7) (!v1.getLsbD 6) (!v1.getLsbD 5) (v2.getLsbD 7)
            (~~~ v2.extractLsb' 3 4))
          (v1.extractLsb' 0 5) (v2.getLsbD 2) (v2.extractLsb' 0 2) bs
    else .refused .notVexHere

/-- The EVEX row that L'L and the opcode select (R96); `11b` selects none (R97 item 2). -/
def evexRow (ll : BitVec 2) (word : Bool) (e : EvexInstr) : Verdict :=
  if ll = 0#2 then .row (if word then .vpaddswEvex128 e else .vpaddsbEvex128 e)
  else if ll = 1#2 then .row (if word then .vpaddswEvex256 e else .vpaddsbEvex256 e)
  else if ll = 2#2 then .row (if word then .vpaddswEvex512 e else .vpaddsbEvex512 e)
  else .reservedLength

/-- Outside `Mode64` only register numbers 0 to 7 are admitted (R89, R91, D17). -/
def EvexInstr.low (e : EvexInstr) : Bool :=
  !e.r && !e.x && !e.b && !e.r' && !e.v' && !e.vvvv.getLsbD 3

/-- The fields of the three payload bytes (R91). -/
def evexFields (pfx : List Pfx) (rex : Option Rex) (p0 p1 p2 : Byte) (reg : BitVec 3) (rm : Rm) :
    EvexInstr where
  pfx := pfx
  rex := rex
  r := !p0.getLsbD 7
  x := !p0.getLsbD 6
  b := !p0.getLsbD 5
  r' := !p0.getLsbD 4
  reserved := p0.extractLsb' 2 2
  w := p1.getLsbD 7
  vvvv := ~~~ p1.extractLsb' 3 4
  fixed1 := p1.getLsbD 2
  z := p2.getLsbD 7
  bcst := p2.getLsbD 4
  v' := !p2.getLsbD 3
  aaa := p2.extractLsb' 0 3
  reg := reg
  rm := rm

/-- After a 62 byte (R91). -/
def takeEvex (md : Mode) (pfx : List Pfx) (rex : Option Rex) (bs : List Byte) : Parsed Verdict :=
  (takeByte bs).andThen fun p0 bs =>
    if isVectorPrefix md p0 then
      (takeByte bs).andThen fun p1 bs => (takeByte bs).andThen fun p2 bs =>
        if p0.extractLsb' 0 2 ≠ 1#2 then .refused .otherMap
        else if p1.extractLsb' 0 2 ≠ 1#2 then .refused .otherPp
        else (takeOp bs).andThen fun word bs =>
          if md ≠ .mode64 ∧ (evexFields pfx rex p0 p1 p2 0#3 (.reg 0#3)).low = false then
            .refused .highRegister
          else (takeModRm (addr16 md pfx) bs).andThen fun m bs =>
            .ok (evexRow (p2.extractLsb' 5 2) word (evexFields pfx rex p0 p1 p2 m.1 m.2)) bs
    else .refused .notEvexHere

/-- The byte after the legacy prefixes and REX chooses the format (R80, R95). -/
def takeFormat (md : Mode) (pfx : List Pfx) (rex : Option Rex) (bs : List Byte) : Parsed Verdict :=
  (takeByte bs).andThen fun b bs =>
    if b = 0x0F#8 then takeLeg md pfx rex bs
    else if b = 0xC4#8 then takeVex3 md pfx rex bs
    else if b = 0xC5#8 then takeVex2 md pfx rex bs
    else if b = 0x62#8 then takeEvex md pfx rex bs
    else if rex.isSome && ((Pfx.ofByte b).isSome || Rex.isRex b) then .refused .rexNotLast
    else .refused .notInFamily

/-- The decoder (R95, R97): the verdict on the bytes and the bytes after the instruction. -/
def decode (md : Mode) (bs : List Byte) : Parsed Verdict :=
  (takePfx bs []).andThen fun pfx bs =>
    (takeByte bs).andThen fun b rest =>
      if Rex.isRex b then
        if md = .mode64 then takeFormat md pfx (some (Rex.ofByte b)) rest
        else .refused .rexOutsideMode64
      else takeFormat md pfx none bs

/-! ### The encoder -/

def d16Bytes (d : BitVec 16) : List Byte := [d.extractLsb' 0 8, d.extractLsb' 8 8]

def d32Bytes (d : BitVec 32) : List Byte :=
  d16Bytes (d.extractLsb' 0 16) ++ d16Bytes (d.extractLsb' 16 16)

def Disp.mod : Disp → BitVec 2
  | .none => 0#2
  | .d8 _ => 1#2
  | .d32 _ => 2#2

def Disp.bytes : Disp → List Byte
  | .none => []
  | .d8 d => [d]
  | .d32 d => d32Bytes d

def Disp16.mod : Disp16 → BitVec 2
  | .none => 0#2
  | .d8 _ => 1#2
  | .d16 _ => 2#2

def Disp16.bytes : Disp16 → List Byte
  | .none => []
  | .d8 d => [d]
  | .d16 d => d16Bytes d

/-- ModRM, SIB and displacement of a memory operand (R86, R87). -/
def MemForm.bytes (reg : BitVec 3) : MemForm → List Byte
  | .base rm d => (d.mod ++ reg ++ rm) :: d.bytes
  | .disp d => (0#2 ++ reg ++ 5#3) :: d32Bytes d
  | .sib sc ix bs d => (d.mod ++ reg ++ 4#3) :: (sc ++ ix ++ bs) :: d.bytes
  | .sibNoBase sc ix d => (0#2 ++ reg ++ 4#3) :: (sc ++ ix ++ 5#3) :: d32Bytes d
  | .base16 rm d => (d.mod ++ reg ++ rm) :: d.bytes
  | .disp16 d => (0#2 ++ reg ++ 6#3) :: d16Bytes d

def Rm.bytes (reg : BitVec 3) : Rm → List Byte
  | .reg n => [3#2 ++ reg ++ n]
  | .mem m => m.bytes reg

/-- Legacy prefixes and REX. -/
def headBytes (pfx : List Pfx) (rex : Option Rex) : List Byte :=
  pfx.map Pfx.byte ++ (rex.map Rex.byte).toList

def opByte (word : Bool) : Byte := if word then 0xED#8 else 0xEC#8

def LegInstr.bytes (word : Bool) (l : LegInstr) : List Byte :=
  headBytes l.pfx l.rex ++ 0x0F#8 :: opByte word :: l.rm.bytes l.reg

/-- The VEX prefix for vector-length bit `l`, `pp = 01b`, map 0F (R90). -/
def VexForm.bytes (l : Bool) : VexForm → List Byte
  | .two r v => [0xC5#8, BitVec.ofBool (!r) ++ ~~~ v ++ BitVec.ofBool l ++ 1#2]
  | .three r x b w v =>
    [0xC4#8, BitVec.ofBool (!r) ++ BitVec.ofBool (!x) ++ BitVec.ofBool (!b) ++ 1#5,
      BitVec.ofBool w ++ ~~~ v ++ BitVec.ofBool l ++ 1#2]

def VexInstr.bytes (l word : Bool) (v : VexInstr) : List Byte :=
  headBytes v.pfx v.rex ++ (v.vex.bytes l ++ opByte word :: v.rm.bytes v.reg)

/-- P0 of the EVEX prefix (R91). -/
def EvexInstr.p0 (e : EvexInstr) : Byte :=
  BitVec.ofBool (!e.r) ++ BitVec.ofBool (!e.x) ++ BitVec.ofBool (!e.b) ++ BitVec.ofBool (!e.r')
    ++ e.reserved ++ 1#2

/-- P1 of the EVEX prefix (R91). -/
def EvexInstr.p1 (e : EvexInstr) : Byte :=
  BitVec.ofBool e.w ++ ~~~ e.vvvv ++ BitVec.ofBool e.fixed1 ++ 1#2

/-- P2 of the EVEX prefix for length bits `ll` (R91). -/
def EvexInstr.p2 (ll : BitVec 2) (e : EvexInstr) : Byte :=
  BitVec.ofBool e.z ++ ll ++ BitVec.ofBool e.bcst ++ BitVec.ofBool (!e.v') ++ e.aaa

def EvexInstr.bytes (ll : BitVec 2) (word : Bool) (e : EvexInstr) : List Byte :=
  headBytes e.pfx e.rex ++ (0x62#8 :: e.p0 :: e.p1 :: e.p2 ll :: opByte word :: e.rm.bytes e.reg)

/-- The bytes of an instruction, lowest address first (R80, R96). -/
def encode : Instr → List Byte
  | .paddsbMm l => l.bytes false
  | .paddsbXmm l => l.bytes false
  | .paddswMm l => l.bytes true
  | .paddswXmm l => l.bytes true
  | .vpaddsbVex128 v => v.bytes false false
  | .vpaddswVex128 v => v.bytes false true
  | .vpaddsbVex256 v => v.bytes true false
  | .vpaddswVex256 v => v.bytes true true
  | .vpaddsbEvex128 e => e.bytes 0#2 false
  | .vpaddsbEvex256 e => e.bytes 1#2 false
  | .vpaddsbEvex512 e => e.bytes 2#2 false
  | .vpaddswEvex128 e => e.bytes 0#2 true
  | .vpaddswEvex256 e => e.bytes 1#2 true
  | .vpaddswEvex512 e => e.bytes 2#2 true

/-! ### Length (R95), counted from the parts, not from the encoder's bytes -/

def Disp.size : Disp → Nat
  | .none => 0
  | .d8 _ => 1
  | .d32 _ => 4

def Disp16.size : Disp16 → Nat
  | .none => 0
  | .d8 _ => 1
  | .d16 _ => 2

/-- SIB and displacement bytes after ModRM. -/
def MemForm.extra : MemForm → Nat
  | .base _ d => d.size
  | .disp _ => 4
  | .sib _ _ _ d => 1 + d.size
  | .sibNoBase _ _ _ => 5
  | .base16 _ d => d.size
  | .disp16 _ => 2

def Rm.extra : Rm → Nat
  | .reg _ => 0
  | .mem m => m.extra

def rexSize (rex : Option Rex) : Nat := if rex.isSome then 1 else 0

def VexForm.size : VexForm → Nat
  | .two _ _ => 2
  | .three _ _ _ _ _ => 3

/-- `ilen` of a format `LEG` instruction: prefixes, REX, two opcode bytes, ModRM, SIB and displacement. -/
def LegInstr.len (l : LegInstr) : Nat := l.pfx.length + rexSize l.rex + 2 + 1 + l.rm.extra

def VexInstr.len (v : VexInstr) : Nat :=
  v.pfx.length + rexSize v.rex + v.vex.size + 1 + 1 + v.rm.extra

def EvexInstr.len (e : EvexInstr) : Nat := e.pfx.length + rexSize e.rex + 4 + 1 + 1 + e.rm.extra

/-- `ilen` (R95). -/
def Instr.len : Instr → Nat
  | .paddsbMm l => l.len
  | .paddsbXmm l => l.len
  | .paddswMm l => l.len
  | .paddswXmm l => l.len
  | .vpaddsbVex128 v => v.len
  | .vpaddswVex128 v => v.len
  | .vpaddsbVex256 v => v.len
  | .vpaddswVex256 v => v.len
  | .vpaddsbEvex128 e => e.len
  | .vpaddsbEvex256 e => e.len
  | .vpaddsbEvex512 e => e.len
  | .vpaddswEvex128 e => e.len
  | .vpaddswEvex256 e => e.len
  | .vpaddswEvex512 e => e.len

/-! ### The table's words -/

/-- The `n` bytes of a table word. spec/opcode_table.json reads its words as one big-endian number, first
byte most significant (R96): log 15. -/
def tableBytes (n w : Nat) : List Byte :=
  (List.range n).map fun k => BitVec.ofNat 8 (w / 256 ^ (n - 1 - k))

/-- The longest instruction (R80). -/
def maxLen : Nat := 15

/-- The bytes of a table word of `nbits` bits, every later byte 0, up to the longest instruction. -/
def tableWindow (nbits w : Nat) : List Byte :=
  let n := (nbits + 7) / 8
  (tableBytes n w ++ List.replicate (maxLen - n) 0#8)

/-- What the decoder reads from a table word, in the reference mode `Mode64` (D2): log 15. -/
def decodeTableWord (nbits w : Nat) : Option Instr :=
  match decode .mode64 (tableWindow nbits w) with
  | .ok (.row i) _ => some i
  | .ok .reservedLength _ => none
  | .short => none
  | .refused _ => none

end Sys2Proof
end

