-- ==== Sys2Proof/Config.lean ====
section
/-!
DEFINITION. What an implementation fixes, and the free values: the three behaviours of which the spec
admits both outcomes. The free values have no body: nothing can be proved of them.
-/

namespace Sys2Proof

/-- What a byte of memory that is not listed reads as. DESIGN CHOICE (log 9): the spec says memory is a
total map (20_memory.md R58) and gives no contents; a launch state can list any byte. -/
def Config.unlistedByte : Byte := 0x00#8

/-- FREE VALUE (log 10): whether an EVEX form suppresses the memory faults of masked-off elements, when the
parameter `evex_fault_suppression` is `either` (60_exceptions.md R165, D19). Indexed by `State.draws`. -/
opaque Config.suppressMasked : Nat → Bool

/-- FREE VALUE (log 11): whether a non-MMX operand that is not 8-byte aligned raises #AC(0) while alignment
checking is in force, when `alignment_check` is `either` (60_exceptions.md R166, D21). -/
opaque Config.alignTrap : Nat → Bool

/-- FREE VALUE (log 12): whether a legacy SSE operand is found misaligned when exactly one of its linear and
its effective address is a multiple of 16 (20_memory.md R55, 93 U9). -/
opaque Config.sseMisaligned : Nat → Bool

end Sys2Proof
end

