-- ==== Sys2Proof/Machine/State.lean ====
section
/-!
DEFINITION. The state as plain data: every piece of state of 10_state.md, the launch parameters of
00_scope.md R6 that a run keeps constant, and the ways a step stops.
-/

namespace Sys2Proof.Machine

/-- The exceptions the family can raise (60_exceptions.md R168). -/
inductive Exception
  | ud | nm | ss | gp | pf | mf | ac
  deriving DecidableEq, Repr

/-- An error code (60_exceptions.md R168). The spec gives the value 0 and the bits 0 to 4 of a #PF code
(20_memory.md R58) and no width; that it has 32 bits, those from 5 up 0, is PRESUMED (log 26). -/
abbrev ErrorCode := BitVec 32

/-- How a step ends in a fault. -/
inductive Fault
  /-- `fault(#XX, vector, code, extra)` of 60_exceptions.md R170: an exception of R162 to R167, raised by a
  meaning or by the fetch. The width of `code` is PRESUMED (log 26). `extra` is the faulting linear address of
  #PF, zero-extended outside `Mode64` (20_memory.md R50). SAFE: the spec ends the run here
  (D10), where the hardware enters a handler. -/
  | exception (x : Exception) (vector : Nat) (code : Option ErrorCode) (extra : Option Quad)
  deriving DecidableEq, Repr

/-- How a step ends in a refusal. Every one is SAFE: the model stops where the hardware goes on. -/
inductive Refusal
  /-- An instruction whose meaning is not written; raised by an arm of `exec` only. -/
  | notModelled (mnemonic : String)
  /-- The decoder refuses the bytes (30_encoding.md R97 item 3); raised by `step`. -/
  | decode (r : DecodeRefusal)
  /-- 16-bit protected mode, or a CS descriptor with L = 1 outside long mode (D2, 93 U23); raised by
  `step` and by every meaning. -/
  | modeNotCovered
  /-- A code byte at a non-canonical address (10_state.md R27, D20); raised by `step`. -/
  | fetchNonCanonical
  /-- A code byte past the top of the address space, counted on from the instruction's first byte
  (10_state.md R27, D20; log 16); raised by `step`. -/
  | fetchWraps
  /-- A translation rule rejects a byte without a named fault: a fetch (D20) or an operand on a device
  (20_memory.md R59, D24); raised by `step` and by a meaning with a memory operand. -/
  | translateRejects
  /-- An x87 exception is pending and CR0.NE = 0: the external report is not described (R164, 93 U19);
  raised by the MMX meanings. -/
  | externalX87Report
  /-- The run is over: RIP is `endAddress` (70_reset_and_hazards.md R196); raised by `step`. -/
  | runOver
  deriving DecidableEq, Repr

/-- Why a step does not answer a next state. -/
inductive Stop
  | fault (f : Fault)
  | refuse (r : Refusal)
  deriving DecidableEq, Repr

/-- The kind of a memory access, as `translate` sees it (20_memory.md R58, D16). -/
inductive Access
  | fetch
  | read
  deriving DecidableEq, Repr

/-- A verdict of `translate` (20_memory.md R58): a location at a distance from the linear address, or a
fault; `reject` is a rejection without a named fault (D20, D24). `pf` carries the error-code bits P and
RSVD; the others follow from the access (R58). -/
inductive TranslateVerdict
  | shift (delta : Quad)
  | pf (p rsvd : Bool)
  | gp
  | ss
  | reject
  deriving DecidableEq, Repr

/-- One rule of `translate`: the accesses it covers and its verdict. A missing field covers every value. -/
structure TranslateRule where
  lo      : Quad
  hi      : Quad
  access  : Option Access
  cpl     : Option (BitVec 2)
  seg     : Option SegReg
  verdict : TranslateVerdict
  deriving DecidableEq, Repr

/-- A parameter of which the spec admits two values and both outcomes (D19, D21). -/
inductive Choice
  | yes | no | either
  deriving DecidableEq, Repr

/-- The width of canonical linear addresses (20_memory.md R54, 93 U20). -/
inductive LinearWidth
  | la48 | la57
  deriving DecidableEq, Repr

/-- The hidden attributes of a segment register (10_state.md R29) that the spec names: type and presence
(20_memory.md R54) and a code segment's L and D bits (R30). That these are the attributes held, and the four
bits of the type, are PRESUMED (log 23). Type and presence are read by `translate` alone (log 6). -/
structure Attributes where
  type      : BitVec 4
  present   : Bool
  long      : Bool
  default32 : Bool
  deriving DecidableEq, Repr

/-- A segment register (10_state.md R29): the selector, and the hidden base, limit and attributes. The spec
gives the width of the base of FS and GS only; the widths of selector (16) and limit (32), and 64 bits for
the base of ES, CS, SS and DS too, are PRESUMED (log 23). -/
structure Segment where
  selector   : BitVec 16
  base       : Quad
  limit      : BitVec 32
  attributes : Attributes
  deriving DecidableEq, Repr

/-- The CPUID feature flags (10_state.md R32). -/
structure Features where
  mmx      : Bool
  sse2     : Bool
  avx      : Bool
  avx2     : Bool
  avx512f  : Bool
  avx512bw : Bool
  avx512vl : Bool
  deriving DecidableEq, Repr

/-- Memory: the listed bytes, by location, in canonical form (`Memory.wf`). -/
abbrev Memory := List Host.Cell

structure State where
  /-- ZMM[0] to ZMM[31] (10_state.md R20). -/
  zmm            : Vector VecReg 32
  /-- FPR[0] to FPR[7]; MM[i] is the low 64 bits (R22, R23). -/
  fpr            : Vector (BitVec 80) 8
  /-- x87 status word: TOP 13:11 (R23), ES bit 7 (R33). -/
  x87Status      : BitVec 16
  /-- x87 tag word (R23). -/
  x87Tag         : BitVec 16
  /-- Opmask registers (R24). -/
  kreg           : Vector Quad 8
  /-- MXCSR (R25); its width is PRESUMED (log 3). -/
  mxcsr          : BitVec 32
  /-- General registers (R26). -/
  gpr            : Vector Quad 16
  /-- RIP (R27). -/
  rip            : Quad
  /-- RFLAGS (R28), read through `State.readRflags`. -/
  rflags         : Quad
  /-- Segment registers (R29); CPL is the low two bits of `cs.selector`, and the CS descriptor's L and D bits
  (R30) are in `cs.attributes`. -/
  es             : Segment
  cs             : Segment
  ss             : Segment
  ds             : Segment
  fs             : Segment
  gs             : Segment
  /-- Control registers (R30). That CR0, CR4 and IA32_EFER have 64 bits each is PRESUMED (log 24). -/
  cr0            : Quad
  cr4            : Quad
  efer           : Quad
  /-- XCR0, 64 bits (R31), read through `State.readXcr0`. -/
  xcr0           : Quad
  /-- CPUID flags (R32). -/
  features       : Features
  /-- Memory (20_memory.md R58). -/
  mem            : Memory
  /-- The parameter `translate` (20_memory.md R58): the first rule that covers an access decides; an
  access that none covers is translated by the identity. -/
  translation    : List TranslateRule
  /-- The canonical width (20_memory.md R54). -/
  linearWidth    : LinearWidth
  /-- The parameter `evex_fault_suppression` (60_exceptions.md R165). -/
  suppression    : Choice
  /-- The parameter `alignment_check` for the rows other than MMX (60_exceptions.md R166). -/
  alignmentCheck : Choice
  /-- The parameter `end_address` (70_reset_and_hazards.md R196). -/
  endAddress     : Option Quad
  /-- The model's own: the index of the free values of Config (log 10). -/
  draws          : Nat
  deriving DecidableEq, Repr

/-- The attributes of every segment register after reset: PRESUMED (log 23), but L and D of CS (log 3). -/
def Attributes.reset : Attributes := ⟨3#4, true, false, false⟩

/-- A segment register after reset (10_state.md R35; its attributes: log 23). -/
def Segment.reset : Segment := ⟨0#16, 0#64, 0xFFFF#32, .reset⟩

/-- The machine after reset, 10_state.md R35. What R35 does not give: RDX, RAX's self-test result and
`features` (log 4), the CS limit and the L and D bits (log 3), the other attributes of the segments
(log 23), memory (log 9), the launch parameters (logs 6, 10, 11, 13). -/
def State.reset : State where
  zmm := Vector.replicate 32 0#512
  fpr := Vector.replicate 8 0#80
  x87Status := 0x0000#16
  x87Tag := 0x5555#16
  kreg := Vector.replicate 8 0#64
  mxcsr := 0x1F80#32
  gpr := Vector.replicate 16 0#64
  rip := 0x0000FFF0#64
  rflags := 0x00000002#64
  es := .reset
  cs := ⟨0xF000#16, 0xFFFF0000#64, 0xFFFF#32, .reset⟩
  ss := .reset
  ds := .reset
  fs := .reset
  gs := .reset
  cr0 := 0x60000010#64
  cr4 := 0#64
  efer := 0#64
  xcr0 := 1#64
  features := ⟨true, true, true, true, true, true, true⟩
  mem := []
  translation := []
  linearWidth := .la48
  suppression := .either
  alignmentCheck := .either
  endAddress := none
  draws := 0

end Sys2Proof.Machine
end

