-- ==== Sys2Proof/Machine/Ops.lean ====
section
/-!
DEFINITION. The named operations over registers, control bits and memory, the parameter `translate`, and
raising an exception.
-/

namespace Sys2Proof.Machine

/-! ### Memory -/

/-- One byte of memory. -/
def Memory.read : Memory → Nat → Byte
  | [], _ => Config.unlistedByte
  | (k, v) :: m, a => if k = a then v else Memory.read m a

/-- Store one byte, keeping the canonical form. -/
def Memory.write : Memory → Nat → Byte → Memory
  | [], a, b => if b = Config.unlistedByte then [] else [(a, b)]
  | (k, v) :: m, a, b =>
    if a < k then (if b = Config.unlistedByte then (k, v) :: m else (a, b) :: (k, v) :: m)
    else if a = k then (if b = Config.unlistedByte then m else (a, b) :: m)
    else (k, v) :: Memory.write m a b

/-- The canonical form: addresses strictly rising and of 64 bits, no entry equal to an unlisted byte. -/
abbrev Memory.wf (m : Memory) : Prop :=
  (m.map Prod.fst).Pairwise (· < ·) ∧ ∀ c ∈ m, c.1 < 2 ^ 64 ∧ c.2 ≠ Config.unlistedByte

/-- Store consecutive bytes upward from a 64-bit address (20_memory.md R57's `MemWrite`, byte by byte; no
instruction uses it). -/
def Memory.writeBytes : Memory → Quad → List Byte → Memory
  | m, _, [] => m
  | m, a, b :: bs => Memory.writeBytes (m.write a.toNat b) (a + 1#64) bs

/-- `MemWrite(addr, n, v)`: the byte `v[8i+7:8i]` goes to `addr + i` (R57). -/
def memWrite (m : Memory) (a : Quad) (n : Nat) (v : VecReg) : Memory :=
  m.writeBytes a ((List.range n).map fun i => v.extractLsb' (8 * i) 8)

/-! ### Registers -/

/-- `ZMM[i]` (10_state.md R20). -/
def State.readZmm (s : State) (i : BitVec 5) : VecReg := s.zmm[i.toNat]'i.isLt

def State.writeZmm (s : State) (i : BitVec 5) (v : VecReg) : State :=
  { s with zmm := s.zmm.set i.toNat v i.isLt }

/-- `FPR[i]`, all 80 bits (R23). -/
def State.readFpr (s : State) (i : BitVec 3) : BitVec 80 := s.fpr[i.toNat]'i.isLt

/-- `MM[i]`, bits 63:0 of `FPR[i]` (R22, R23). -/
def State.readMm (s : State) (i : BitVec 3) : BitVec 64 := (s.readFpr i).extractLsb' 0 64

/-- Write `MM[i]` as a completed MMX form does (R23): bits 79:64 become all ones, TOP becomes 0, the tag
word becomes 0000H. -/
def State.writeMm (s : State) (i : BitVec 3) (v : BitVec 64) : State :=
  { s with
    fpr := s.fpr.set i.toNat (0xFFFF#16 ++ v) i.isLt
    x87Status := s.x87Status &&& 0xC7FF#16
    x87Tag := 0x0000#16 }

/-- `K[i]` (R24). -/
def State.readK (s : State) (i : BitVec 3) : Quad := s.kreg[i.toNat]'i.isLt

/-- `GPR[i]` (R26). -/
def State.readGpr (s : State) (i : BitVec 4) : Quad := s.gpr[i.toNat]'i.isLt

def State.segment (s : State) : SegReg → Segment
  | .es => s.es
  | .cs => s.cs
  | .ss => s.ss
  | .ds => s.ds
  | .fs => s.fs
  | .gs => s.gs

/-- CPL, the low two bits of the CS selector (R29; log 7). -/
def State.cpl (s : State) : BitVec 2 := s.cs.selector.extractLsb' 0 2

/-! ### Control bits (10_state.md R30, R31, R33) -/

def State.pe (s : State) : Bool := s.cr0.getLsbD 0
def State.em (s : State) : Bool := s.cr0.getLsbD 2
def State.ts (s : State) : Bool := s.cr0.getLsbD 3
def State.ne (s : State) : Bool := s.cr0.getLsbD 5
def State.am (s : State) : Bool := s.cr0.getLsbD 18
def State.osfxsr (s : State) : Bool := s.cr4.getLsbD 9
def State.osxsave (s : State) : Bool := s.cr4.getLsbD 18
def State.lma (s : State) : Bool := s.efer.getLsbD 10

/-- RFLAGS as it reads: bit 1 reads as 1 (R28), whatever is stored there. -/
def State.readRflags (s : State) : Quad := s.rflags ||| 0x2#64

/-- XCR0 as it reads: bit 0 (x87 state) is always 1 (R31), whatever is stored there. -/
def State.readXcr0 (s : State) : Quad := s.xcr0 ||| 0x1#64

/-- The CS descriptor's L bit (R30). -/
def State.csLong (s : State) : Bool := s.cs.attributes.long

/-- The CS descriptor's D bit (R30). -/
def State.csDefault32 (s : State) : Bool := s.cs.attributes.default32

/-- XCR0 enables the SSE and AVX state: `XCR0[2:1] = 11b` (R31). -/
def State.avxEnabled (s : State) : Bool := s.readXcr0.extractLsb' 1 2 == 3#2

/-- XCR0 enables the opmask and upper ZMM state: `XCR0[7:5] = 111b` (R31). -/
def State.avx512Enabled (s : State) : Bool := s.readXcr0.extractLsb' 5 3 == 7#3

/-- The x87 status word's error summary (R33). -/
def State.x87Es (s : State) : Bool := s.x87Status.getLsbD 7

/-- TOP, bits 13:11 of the x87 status word (R23). -/
def State.x87Top (s : State) : BitVec 3 := s.x87Status.extractLsb' 11 3

/-- The VM flag (R28). -/
def State.vm (s : State) : Bool := s.readRflags.getLsbD 17

/-- The operating mode (R30, R98; log 2): CR0.PE = 0 is real-address mode, RFLAGS.VM = 1 virtual-8086
mode, LMA = 1 with CS.L = 1 `Mode64`, CS.L = 0 with CS.D = 1 `Compat32`; no other mode is covered. The
order of the tests, which decides where PE = 0 or VM = 1 stands together with LMA = 1 and CS.L = 1 or with
CS.L = 0 and CS.D = 1, is a DESIGN CHOICE (log 25). -/
def State.mode (s : State) : Option Mode :=
  if !s.pe then some .real
  else if s.vm then some .v86
  else if s.lma && s.csLong then some .mode64
  else if !s.csLong && s.csDefault32 then some .compat32
  else none

/-- MAXVL, the width of a vector register of the part (00_scope.md R6). The model stores 512 bits on every
part (D3; log 5); this is the width that exists. -/
def Features.maxvl (f : Features) : Nat := if f.avx512f then 512 else if f.avx then 256 else 128

/-! ### The instruction pointer (10_state.md R27) -/

/-- The low `n` bits of an address, zero-extended. -/
def lowBits (n : Nat) (a : Quad) : Quad := (a.setWidth n).setWidth 64

/-- `pc <- pc + ilen`: 64 bits in `Mode64`, modulo 2^32 otherwise. -/
def nextRip (md : Mode) (rip : Quad) (len : Nat) : Quad :=
  match md with
  | .mode64 => rip + BitVec.ofNat 64 len
  | .compat32 => lowBits 32 (rip + BitVec.ofNat 64 len)
  | .real => lowBits 32 (rip + BitVec.ofNat 64 len)
  | .v86 => lowBits 32 (rip + BitVec.ofNat 64 len)

/-- What every completed instruction does last: RIP passes the instruction, and the index of the free
values advances (log 10). -/
def State.retire (s : State) (md : Mode) (len : Nat) : State :=
  { s with rip := nextRip md s.rip len, draws := s.draws + 1 }

/-! ### Raising an exception (60_exceptions.md R168, R170) -/

def Exception.vector : Exception → Nat
  | .ud => 6
  | .nm => 7
  | .ss => 12
  | .gp => 13
  | .pf => 14
  | .mf => 16
  | .ac => 17

/-- The error code of the exceptions that push a constant one. -/
def Exception.code : Exception → Option ErrorCode
  | .ud => none
  | .nm => none
  | .ss => some 0#32
  | .gp => some 0#32
  | .pf => none
  | .mf => none
  | .ac => some 0#32

/-- `raise #XX(code)` for the exceptions other than #PF: the step ends, no state changed (R170). -/
def raise (x : Exception) : Stop := .fault (.exception x x.vector x.code none)

/-- The #PF error code (20_memory.md R58): P bit 0, W/R bit 1 (0: always a read), U/S bit 2, RSVD bit 3,
I/D bit 4. The bits above are 0: PRESUMED (log 26). -/
def pfCode (p rsvd : Bool) (cpl : BitVec 2) (acc : Access) : ErrorCode :=
  BitVec.setWidth 32
    (BitVec.ofBool (acc == .fetch) ++ BitVec.ofBool rsvd ++ BitVec.ofBool (cpl == 3#2) ++ 0#1
      ++ BitVec.ofBool p)

/-- `raise #PF(code)` with the faulting linear address (R168, R170). -/
def raisePf (code : ErrorCode) (la : Quad) : Stop :=
  .fault (.exception .pf Exception.pf.vector (some code) (some la))

def Stop.out : Stop → Host.Outcome State Fault Refusal
  | .fault f => .fault f
  | .refuse r => .refused r

/-- The first condition that applies (R169). -/
def firstOf : List (Option Stop) → Option Stop
  | [] => none
  | some st :: _ => some st
  | none :: rest => firstOf rest

/-- An instruction that has met no exception answers its next state; else the first exception ends it. -/
def finish (stop : Option Stop) (t : State) : Host.Outcome State Fault Refusal :=
  match stop with
  | some st => st.out
  | none => .next t

/-! ### Translation (20_memory.md R58) -/

def TranslateRule.covers (r : TranslateRule) (la : Quad) (acc : Access) (cpl : BitVec 2) (seg : SegReg) :
    Bool :=
  decide (r.lo ≤ la) && decide (la ≤ r.hi) && (r.access == none || r.access == some acc)
    && (r.cpl == none || r.cpl == some cpl) && (r.seg == none || r.seg == some seg)

/-- The first rule that covers an access decides. -/
def translateBy : List TranslateRule → Quad → Access → BitVec 2 → SegReg → TranslateVerdict
  | [], _, _, _, _ => .shift 0#64
  | r :: rs, la, acc, cpl, seg =>
    if r.covers la acc cpl seg then r.verdict else translateBy rs la acc cpl seg

/-- `translate(la, access, cpl)`, told the segment too so that the segment checks of `Compat32` can be
rules (R54; log 6). -/
def State.translate (s : State) (acc : Access) (seg : SegReg) (la : Quad) : TranslateVerdict :=
  translateBy s.translation la acc s.cpl seg

/-- Canonical linear addresses: the bits from the top down to bit 47 (or 56) are all equal (R54, U20). -/
def canonical (w : LinearWidth) (la : Quad) : Bool :=
  match w with
  | .la48 => la.extractLsb' 47 17 == 0#17 || la.extractLsb' 47 17 == 0x1FFFF#17
  | .la57 => la.extractLsb' 56 8 == 0#8 || la.extractLsb' 56 8 == 0xFF#8

/-- A byte of memory at a location. -/
def State.loadByte (s : State) (p : Quad) : Byte := Memory.read s.mem p.toNat

/-! ### Fetching an instruction's bytes (10_state.md R27, D16, D20) -/

/-- A code byte at a linear address, through `translate` (60_exceptions.md R167). -/
def fetchLinear (s : State) (la : Quad) : Except Stop Byte :=
  match s.translate .fetch .cs la with
  | .shift d => .ok (s.loadByte (la + d))
  | .pf p rsvd => .error (raisePf (pfCode p rsvd s.cpl .fetch) la)
  | .gp => .error (raise .gp)
  | .ss => .error (raise .ss)
  | .reject => .error (.refuse .translateRejects)

/-- The linear address of the `k`-th byte from RIP: in `Mode64` the base is 0; otherwise the offset is added to
the CS base, modulo 2^32 (log 16). -/
def codeAddr (s : State) (md : Mode) (k : Nat) : Quad :=
  match md with
  | .mode64 => s.rip + BitVec.ofNat 64 k
  | .compat32 => lowBits 32 (s.cs.base + s.rip + BitVec.ofNat 64 k)
  | .real => lowBits 32 (s.cs.base + s.rip + BitVec.ofNat 64 k)
  | .v86 => lowBits 32 (s.cs.base + s.rip + BitVec.ofNat 64 k)

/-- The width of the address space (20_memory.md R50). -/
def spaceBits (md : Mode) : Nat := if md = .mode64 then 64 else 32

/-- What the offset of the `k`-th code byte forbids outside `Mode64`: in `Compat32` an EIP that wraps is refused
(D20); past offset FFFFH in real-address and virtual-8086 mode #GP(0) is raised (R163, R167; log 2). -/
def codeOffsetStop (s : State) (md : Mode) (k : Nat) : Option Stop :=
  match md with
  | .mode64 => none
  | .compat32 =>
    if 2 ^ 32 ≤ (lowBits 32 s.rip).toNat + k then some (.refuse .fetchWraps) else none
  | .real => if 2 ^ 16 ≤ (lowBits 32 s.rip).toNat + k then some (raise .gp) else none
  | .v86 => if 2 ^ 16 ≤ (lowBits 32 s.rip).toNat + k then some (raise .gp) else none

/-- The `k`-th byte from RIP. In every mode a byte past the top of the linear address space, counted on from the
instruction's first byte, is refused, and in `Mode64` one at an address that is not canonical (R27, D20). -/
def fetchByte (s : State) (md : Mode) (k : Nat) : Except Stop Byte :=
  match codeOffsetStop s md k with
  | some st => .error st
  | none =>
    if 2 ^ spaceBits md ≤ (codeAddr s md 0).toNat + k then .error (.refuse .fetchWraps)
    else if md = .mode64 ∧ canonical s.linearWidth (codeAddr s md k) = false then
      .error (.refuse .fetchNonCanonical)
    else fetchLinear s (codeAddr s md k)

/-- Code bytes from the `k`-th on, `n` of them or up to the first that cannot be fetched, with the reason. -/
def fetchFrom (s : State) (md : Mode) : Nat → Nat → List Byte × Option Stop
  | 0, _ => ([], none)
  | n + 1, k =>
    match fetchByte s md k with
    | .error st => ([], some st)
    | .ok b => (b :: (fetchFrom s md n (k + 1)).1, (fetchFrom s md n (k + 1)).2)

/-- Why an instruction whose bytes end before it does cannot run: the byte that cannot be fetched
(R169 item 1), or, with 15 bytes read, the length limit: #GP(0) (30_encoding.md R95; log 17). -/
def shortStop (unfetched : Option Stop) : Stop := unfetched.getD (raise .gp)

end Sys2Proof.Machine
end

