-- ==== Sys2Proof/Machine/Flags.lean ====
section
/-!
DEFINITION. Flags. "Flags Affected: None." (10_state.md R28, 40_padds.md R128): no instruction computes or
writes a flag, so this file holds the one flag the family reads besides VM: AC.
-/

namespace Sys2Proof.Machine

/-- RFLAGS.AC (10_state.md R28). -/
def State.ac (s : State) : Bool := s.readRflags.getLsbD 18

/-- Alignment checking is in force: CR0.AM = 1, RFLAGS.AC = 1 and CPL = 3 (60_exceptions.md R166). -/
def State.alignmentChecked (s : State) : Bool := s.am && s.ac && s.cpl == 3#2

/-- A parameter with two admitted values: fixed by the launch, or free (00_scope.md R6). -/
def Choice.pick (c : Choice) (free : Bool) : Bool :=
  match c with
  | .yes => true
  | .no => false
  | .either => free

end Sys2Proof.Machine
end

