-- ==== Sys2Proof/Machine/Operands.lean ====
section
/-!
DEFINITION. Lanes and saturation (40_padds.md R120 to R122, R126), the operands that an encoding names
(30_encoding.md R89, 20_memory.md R53, R54), and the checked memory read (20_memory.md R55, R56).
-/

namespace Sys2Proof.Machine

/-! ### Saturation (R120, R121) -/

/-- `SaturateToSignedByte` of an exact integer sum. -/
def satByte (x : Int) : BitVec 8 :=
  if 127 < x then 0x7F#8 else if x < -128 then 0x80#8 else BitVec.ofInt 8 x

/-- `SaturateToSignedWord` of an exact integer sum. -/
def satWord (x : Int) : BitVec 16 :=
  if 32767 < x then 0x7FFF#16 else if x < -32768 then 0x8000#16 else BitVec.ofInt 16 x

/-! ### Lanes (R122) -/

/-- The element of an opcode: bytes (EC) or words (ED) (30_encoding.md R82). -/
inductive Elem
  | byte
  | word
  deriving DecidableEq, Repr

abbrev Elem.bits : Elem → Nat
  | .byte => 8
  | .word => 16

/-- Bytes of memory per element. -/
def Elem.size : Elem → Nat
  | .byte => 1
  | .word => 2

/-- Element `i` of a packed operand: bits `[w·i + w − 1 : w·i]`. -/
def lane (e : Elem) (v : VecReg) (i : Nat) : BitVec e.bits := v.extractLsb' (e.bits * i) e.bits

/-- `n` elements of width `w` side by side, element 0 lowest; the bits above are 0. -/
def pack (w : Nat) (f : Nat → BitVec w) : Nat → VecReg
  | 0 => 0#512
  | n + 1 => pack w f n ||| ((f n).setWidth 512 <<< (w * n))

/-- The saturating add of one lane: the exact sum of the signed readings, saturated. -/
def satAdd (e : Elem) (a b : BitVec e.bits) : BitVec e.bits :=
  match e with
  | .byte => satByte (a.toInt + b.toInt)
  | .word => satWord (a.toInt + b.toInt)

/-- `PADDS(a, b, w, VL)` on the low `VL` bits, zero above (R122). -/
def padds (e : Elem) (vl : Nat) (a b : VecReg) : VecReg :=
  pack e.bits (fun i => satAdd e (lane e a i) (lane e b i)) (vl / e.bits)

/-- The loop of the EVEX forms (R126): lane `j` is the sum where `k[j] = 1`, else the old lane
(merging) or 0 (zeroing). -/
def maskedPadds (e : Elem) (vl : Nat) (k : Quad) (z : Bool) (old a b : VecReg) : VecReg :=
  pack e.bits
    (fun j =>
      if k.getLsbD j then satAdd e (lane e a j) (lane e b j)
      else if z then 0#e.bits else lane e old j)
    (vl / e.bits)

/-- The writemask: `aaa = 000b` is every element, and K[0] is not read (30_encoding.md R92). -/
def State.writemask (s : State) (aaa : BitVec 3) : Quad :=
  if aaa = 0#3 then BitVec.allOnes 64 else s.readK aaa

/-! ### Register operands (30_encoding.md R89) -/

end Sys2Proof.Machine

namespace Sys2Proof

/-- A bit of an optional REX, 0 when there is none (R88). -/
def rexBit (f : Rex → Bool) (rex : Option Rex) : Bool := (rex.map f).getD false

def reg4 (hi : Bool) (lo : BitVec 3) : BitVec 4 := BitVec.ofBool hi ++ lo

/-- A 4-bit register number of the `LEG` and `VEX` formats as an index of the vector file. -/
def vec4 (n : BitVec 4) : BitVec 5 := n.setWidth 5

def vec5 (hi mid : Bool) (lo : BitVec 3) : BitVec 5 := BitVec.ofBool hi ++ reg4 mid lo

/-- `R∥reg`. -/
def LegInstr.xmmDst (l : LegInstr) : BitVec 5 := vec4 (reg4 (rexBit Rex.r l.rex) l.reg)

/-- `B∥rm`. -/
def LegInstr.xmmRm (l : LegInstr) (n : BitVec 3) : BitVec 5 := vec4 (reg4 (rexBit Rex.b l.rex) n)

def VexForm.r : VexForm → Bool
  | .two r _ => r
  | .three r _ _ _ _ => r

def VexForm.x : VexForm → Bool
  | .two _ _ => false
  | .three _ x _ _ _ => x

def VexForm.b : VexForm → Bool
  | .two _ _ => false
  | .three _ _ b _ _ => b

def VexForm.vvvv : VexForm → BitVec 4
  | .two _ v => v
  | .three _ _ _ _ v => v

/-- `R∥reg`. -/
def VexInstr.dst (v : VexInstr) : BitVec 5 := vec4 (reg4 v.vex.r v.reg)

/-- `vvvv`. -/
def VexInstr.src1 (v : VexInstr) : BitVec 5 := vec4 v.vex.vvvv

/-- `B∥rm`. -/
def VexInstr.rmReg (v : VexInstr) (n : BitVec 3) : BitVec 5 := vec4 (reg4 v.vex.b n)

/-- `R'∥R∥reg`. -/
def EvexInstr.dst (e : EvexInstr) : BitVec 5 := vec5 e.r' e.r e.reg

/-- `V'∥vvvv`. -/
def EvexInstr.src1 (e : EvexInstr) : BitVec 5 := BitVec.ofBool e.v' ++ e.vvvv

/-- `X∥B∥rm`. -/
def EvexInstr.rmReg (e : EvexInstr) (n : BitVec 3) : BitVec 5 := vec5 e.x e.b n

/-- The value a displacement adds to an address; `n` is the factor of an 8-bit one (R94). -/
def Disp.value (n : Nat) : Disp → Quad
  | .none => 0#64
  | .d8 d => d.signExtend 64 * BitVec.ofNat 64 n
  | .d32 d => d.signExtend 64

/-- The same under 16-bit addressing. -/
def Disp16.value (n : Nat) : Disp16 → Quad
  | .none => 0#64
  | .d8 d => d.signExtend 64 * BitVec.ofNat 64 n
  | .d16 d => d.signExtend 64

end Sys2Proof

namespace Sys2Proof.Machine

/-! ### The effective address (20_memory.md R53) -/

/-- What an encoding brings to its memory operand besides the form: prefixes, extension bits, the factor
`N` of an 8-bit displacement (30_encoding.md R94), and the address after the instruction. -/
structure AddrInfo where
  pfx  : List Pfx
  x    : Bool
  b    : Bool
  n    : Nat
  next : Quad
  deriving DecidableEq, Repr

/-- The address size. -/
def addrBits (md : Mode) (pfx : List Pfx) : Nat :=
  match md with
  | .mode64 => if pfx.contains .addrSize then 32 else 64
  | .compat32 => if pfx.contains .addrSize then 16 else 32
  | .real => if pfx.contains .addrSize then 32 else 16
  | .v86 => if pfx.contains .addrSize then 32 else 16

/-- A number extended by a prefix bit, which is 0 outside `Mode64`. -/
def addrReg (md : Mode) (hi : Bool) (lo : BitVec 3) : BitVec 4 := reg4 (md == .mode64 && hi) lo

/-- The scaled index of a SIB byte; number 0100b means none. -/
def sibIndex (s : State) (md : Mode) (c : AddrInfo) (scale : BitVec 2) (index : BitVec 3) : Quad :=
  if addrReg md c.x index = 4#4 then 0#64
  else lowBits (addrBits md c.pfx) (s.readGpr (addrReg md c.x index)) <<< scale.toNat

/-- The register sum of a 16-bit form: BX+SI, BX+DI, BP+SI, BP+DI, SI, DI, BP, BX. -/
def base16 (s : State) (rm : BitVec 3) : Quad :=
  let bx := s.readGpr 3#4
  let bp := s.readGpr 5#4
  let si := s.readGpr 6#4
  let di := s.readGpr 7#4
  if rm = 0#3 then bx + si
  else if rm = 1#3 then bx + di
  else if rm = 2#3 then bp + si
  else if rm = 3#3 then bp + di
  else if rm = 4#3 then si
  else if rm = 5#3 then di
  else if rm = 6#3 then bp
  else bx

/-- The address before reduction to the address size. -/
def addrSum (s : State) (md : Mode) (c : AddrInfo) : MemForm → Quad
  | .base rm d => lowBits (addrBits md c.pfx) (s.readGpr (addrReg md c.b rm)) + d.value c.n
  | .disp d => (if md = .mode64 then c.next else 0#64) + d.signExtend 64
  | .sib sc ix bs d =>
    lowBits (addrBits md c.pfx) (s.readGpr (addrReg md c.b bs)) + sibIndex s md c sc ix
      + d.value c.n
  | .sibNoBase sc ix d => sibIndex s md c sc ix + d.signExtend 64
  | .base16 rm d => base16 s rm + d.value c.n
  | .disp16 d => d.signExtend 64

/-- `ea`, modulo the address size and zero-extended. -/
def effAddr (s : State) (md : Mode) (c : AddrInfo) (m : MemForm) : Quad :=
  lowBits (addrBits md c.pfx) (addrSum s md c m)

/-- `base_is_stack`: rSP or rBP as base, or BP in the 16-bit forms. -/
def baseIsStack (md : Mode) (c : AddrInfo) : MemForm → Bool
  | .base rm _ => addrReg md c.b rm == 5#4
  | .disp _ => false
  | .sib _ _ bs _ => addrReg md c.b bs == 4#4 || addrReg md c.b bs == 5#4
  | .sibNoBase _ _ _ => false
  | .base16 rm _ => rm == 2#3 || rm == 3#3 || rm == 6#3
  | .disp16 _ => false

/-! ### Segment and linear address (20_memory.md R54) -/

/-- The segment-override prefix, if the instruction has one. -/
def segOverride : List Pfx → Option SegReg
  | [] => none
  | .seg r :: _ => some r
  | _ :: ps => segOverride ps

/-- The segment of the memory operand; in `Mode64` the prefixes 26, 2E, 36 and 3E are ignored. -/
def operandSeg (md : Mode) (pfx : List Pfx) (stack : Bool) : SegReg :=
  let dflt : SegReg := if stack then .ss else .ds
  match segOverride pfx with
  | none => dflt
  | some r => if md = .mode64 ∧ r ≠ .fs ∧ r ≠ .gs then dflt else r

/-- The base added to an effective address; in `Mode64` only FS and GS have one. -/
def segBase (s : State) (md : Mode) (r : SegReg) : Quad :=
  if md = .mode64 ∧ r ≠ .fs ∧ r ≠ .gs then 0#64 else (s.segment r).base

/-- An address modulo the width of linear addresses of the mode. -/
def wrapLinear (md : Mode) (a : Quad) : Quad := if md = .mode64 then a else lowBits 32 a

/-- Where a memory operand lies. -/
structure Place where
  seg : SegReg
  ea  : Quad
  la  : Quad
  deriving DecidableEq, Repr

def place (s : State) (md : Mode) (c : AddrInfo) (m : MemForm) : Place :=
  let seg := operandSeg md c.pfx (baseIsStack md c m)
  let ea := effAddr s md c m
  ⟨seg, ea, wrapLinear md (segBase s md seg + ea)⟩

/-- The linear address of byte `i` of the operand (log 14 where it passes the top). -/
def byteAddr (md : Mode) (p : Place) (i : Nat) : Quad := wrapLinear md (p.la + BitVec.ofNat 64 i)

/-! ### The checked read (20_memory.md R55, R56; 60_exceptions.md R163 to R169) -/

/-- #SS(0) for an operand in the SS segment, #GP(0) in another (R54). -/
def segFault (r : SegReg) : Stop := if r = .ss then raise .ss else raise .gp

/-- R169 item 5 for byte `i`: canonical form in `Mode64`; offsets up to FFFFH in real-address and
virtual-8086 mode (R163); the segment verdicts of `translate`. -/
def formStop (s : State) (md : Mode) (p : Place) (i : Nat) : Option Stop :=
  if md = .mode64 ∧ canonical s.linearWidth (byteAddr md p i) = false then some (segFault p.seg)
  else if (md = .real ∨ md = .v86) ∧ 2 ^ 16 ≤ p.ea.toNat + i then some (raise .gp)
  else
    match s.translate .read p.seg (byteAddr md p i) with
    | .gp => some (raise .gp)
    | .ss => some (raise .ss)
    | .shift _ => none
    | .pf _ _ => none
    | .reject => none

/-- R169 item 7 for byte `i`: the page verdicts of `translate`. -/
def pageStop (s : State) (md : Mode) (p : Place) (i : Nat) : Option Stop :=
  match s.translate .read p.seg (byteAddr md p i) with
  | .pf b rsvd => some (raisePf (pfCode b rsvd s.cpl .read) (byteAddr md p i))
  | .reject => some (.refuse .translateRejects)
  | .shift _ => none
  | .gp => none
  | .ss => none

/-- The classes of encoding that differ in alignment (R55). -/
inductive Align
  | mmx
  | sse
  | vector
  deriving DecidableEq, Repr

def multipleOf (k : Nat) (a : Quad) : Bool := a.toNat % k == 0

/-- R169 item 6: a legacy SSE operand not on a 16-byte boundary. Where exactly one of the linear and the
effective address is a multiple of 16 the outcome is free (93 U9; log 12). -/
def sseStop (s : State) (al : Align) (p : Place) : Option Stop :=
  if al = .sse ∧
      (if multipleOf 16 p.la = multipleOf 16 p.ea then !multipleOf 16 p.la
        else Config.sseMisaligned s.draws) = true
  then some (raise .gp) else none

/-- R169 item 8, R166: #AC(0) for an operand not aligned to 8 bytes, always for an MMX row, by the
parameter `alignment_check` for the others (log 11). -/
def acStop (s : State) (al : Align) (p : Place) : Option Stop :=
  if s.alignmentChecked = true ∧ multipleOf 8 p.la = false ∧
      (if al = .mmx then true else s.alignmentCheck.pick (Config.alignTrap s.draws)) = true
  then some (raise .ac) else none

/-- The exceptions of a read of the given bytes of an operand, in the order of R169. -/
def readStop (s : State) (md : Mode) (al : Align) (p : Place) (bytes : List Nat) : Option Stop :=
  firstOf
    [firstOf (bytes.map (formStop s md p)), sseStop s al p, firstOf (bytes.map (pageStop s md p)),
      acStop s al p]

/-- Byte `i` of the operand. Where `translate` gives no location the read has stopped, or the byte belongs
to a masked-off element and is not used (R56); it is then 0 here. -/
def operandByte (s : State) (md : Mode) (p : Place) (i : Nat) : Byte :=
  match s.translate .read p.seg (byteAddr md p i) with
  | .shift d => s.loadByte (byteAddr md p i + d)
  | .pf _ _ => 0#8
  | .gp => 0#8
  | .ss => 0#8
  | .reject => 0#8

/-- The value of an `n`-byte operand, little-endian (R51). -/
def operandValue (s : State) (md : Mode) (p : Place) (n : Nat) : VecReg :=
  pack 8 (operandByte s md p) n

/-- The exceptions of the last source operand with no writemask: none for a register (R123, R167). -/
def rmStop (s : State) (md : Mode) (al : Align) (c : AddrInfo) (n : Nat) : Rm → Option Stop
  | .reg _ => none
  | .mem m => readStop s md al (place s md c m) (List.range n)

/-- The bytes of the elements whose mask bit is 1. -/
def enabledBytes (e : Elem) (k : Quad) (n : Nat) : List Nat :=
  (List.range n).filter fun i => k.getLsbD (i / e.size)

/-- Fault suppression of an EVEX operand (60_exceptions.md R165): with suppression the checks skip the
bytes of masked-off elements; where the two answers differ and the parameter is `either`, the outcome is
free (D19; log 10). -/
def maskedStop (s : State) (full part : Option Stop) : Option Stop :=
  match s.suppression with
  | .yes => part
  | .no => full
  | .either => if full = part then full else if Config.suppressMasked s.draws then part else full

/-- The exceptions of the last source operand under a writemask. -/
def rmStopMasked (s : State) (md : Mode) (c : AddrInfo) (e : Elem) (k : Quad) (n : Nat) :
    Rm → Option Stop
  | .reg _ => none
  | .mem m =>
    maskedStop s (readStop s md .vector (place s md c m) (List.range n))
      (readStop s md .vector (place s md c m) (enabledBytes e k n))

/-- `SRC_RM` (R123): the register's value, or the memory operand's. -/
def rmValue (s : State) (md : Mode) (c : AddrInfo) (n : Nat) (reg : BitVec 3 → VecReg) : Rm → VecReg
  | .reg r => reg r
  | .mem m => operandValue s md (place s md c m) n

/-! ### Conditions common to the classes -/

/-- A LOCK prefix (R162 b). -/
def hasLock (pfx : List Pfx) : Bool := pfx.contains .lock

/-- A 66, F2, F3 or REX byte before a VEX or EVEX prefix (R162 c). -/
def hasVectorClash (pfx : List Pfx) (rex : Option Rex) : Bool :=
  pfx.contains .opSize || pfx.contains .repne || pfx.contains .rep || rex.isSome

/-- #UD under a condition. -/
def udIf (c : Bool) : Option Stop := if c then some (raise .ud) else none

/-- #NM: CR0.TS = 1 (R163 to R165). -/
def nmStop (s : State) : Option Stop := if s.ts then some (raise .nm) else none

end Sys2Proof.Machine
end

