-- ==== Sys2Proof/Machine/Avx.lean ====
section
/-!
DEFINITION. The VEX rows: VPADDSB and VPADDSW at 128 bits (40_padds.md R134, R135) and 256 bits (R136,
R137), over the template R125.
-/

namespace Sys2Proof.Machine

/-- What a VEX form brings to its memory operand; `N = 1` (30_encoding.md R94). -/
def vexAddr (v : VexInstr) (s : State) : AddrInfo :=
  ⟨v.pfx, v.vex.x, v.vex.b, 1, s.rip + BitVec.ofNat 64 v.len⟩

/-- The CPUID flag of a VEX row (30_encoding.md R96). -/
def vexFeature (vl : Nat) (f : Features) : Bool := if vl = 256 then f.avx2 else f.avx

/-- VEX and EVEX forms raise #UD in real-address and virtual-8086 mode (60_exceptions.md R163, R165). -/
def vectorModeUd (md : Mode) : Bool := md == .real || md == .v86

/-- #UD of the VEX rows (R162, R163). -/
def vexUd (vl : Nat) (v : VexInstr) (md : Mode) (s : State) : Bool :=
  !vexFeature vl s.features || hasLock v.pfx || hasVectorClash v.pfx v.rex || vectorModeUd md
    || !s.osxsave || !s.avxEnabled

/-- Every exception of a VEX row, in the order of R169. -/
def vexStop (vl : Nat) (v : VexInstr) (md : Mode) (s : State) : Option Stop :=
  firstOf [udIf (vexUd vl v md s), nmStop s, rmStop s md .vector (vexAddr v s) (vl / 8) v.rm]

/-- The register r/m source of a VEX row. -/
def vexReg (v : VexInstr) (s : State) (n : BitVec 3) : VecReg := s.readZmm (v.rmReg n)

/-- `zext(PADDS(ZMM[s1][VL−1:0], SRC_RM(VL), w, VL))`. -/
def vexResult (e : Elem) (vl : Nat) (v : VexInstr) (md : Mode) (s : State) : VecReg :=
  padds e vl (s.readZmm v.src1) (rmValue s md (vexAddr v s) (vl / 8) (vexReg v s) v.rm)

/-- The state after a VEX row completes (R125): the destination's bits above VL are 0 (R127). -/
def vexDone (e : Elem) (vl : Nat) (v : VexInstr) (md : Mode) (s : State) : State :=
  (s.writeZmm v.dst (vexResult e vl v md s)).retire md v.len

/-- A VEX row. -/
def vexForm (e : Elem) (vl : Nat) (v : VexInstr) (s : State) : Host.Outcome State Fault Refusal :=
  match s.mode with
  | none => .refused .modeNotCovered
  | some md => finish (vexStop vl v md s) (vexDone e vl v md s)

/-- VPADDSB xmm1, xmm2, xmm3/m128 (R134). -/
def execVpaddsbVex128 (v : VexInstr) (s : State) : Host.Outcome State Fault Refusal :=
  vexForm .byte 128 v s

/-- VPADDSW xmm1, xmm2, xmm3/m128 (R135). -/
def execVpaddswVex128 (v : VexInstr) (s : State) : Host.Outcome State Fault Refusal :=
  vexForm .word 128 v s

/-- VPADDSB ymm1, ymm2, ymm3/m256 (R136). -/
def execVpaddsbVex256 (v : VexInstr) (s : State) : Host.Outcome State Fault Refusal :=
  vexForm .byte 256 v s

/-- VPADDSW ymm1, ymm2, ymm3/m256 (R137). -/
def execVpaddswVex256 (v : VexInstr) (s : State) : Host.Outcome State Fault Refusal :=
  vexForm .word 256 v s

end Sys2Proof.Machine
end

