-- ==== Sys2Proof/Machine/Avx512.lean ====
section
/-!
DEFINITION. The EVEX rows: VPADDSB at 128, 256 and 512 bits (40_padds.md R138, R139, R140) and VPADDSW at
128, 256 and 512 bits (R141, R142, R143), over the template R126.
-/

namespace Sys2Proof.Machine

/-- What an EVEX form brings to its memory operand; `N = VL / 8` (30_encoding.md R94). -/
def evexAddr (vl : Nat) (i : EvexInstr) (s : State) : AddrInfo :=
  ⟨i.pfx, i.x, i.b, vl / 8, s.rip + BitVec.ofNat 64 i.len⟩

/-- The CPUID flags of an EVEX row: AVX512BW, and AVX512VL below 512 bits (30_encoding.md R96). -/
def evexFeature (vl : Nat) (f : Features) : Bool := f.avx512bw && (vl == 512 || f.avx512vl)

/-- The prefix bits that have one admitted value (30_encoding.md R91, R92, R97 item 2). -/
def evexBitsUd (i : EvexInstr) : Bool :=
  i.reserved != 0#2 || !i.fixed1 || i.bcst || (i.z && i.aaa == 0#3)

/-- #UD of the EVEX rows (60_exceptions.md R162, R165). -/
def evexUd (vl : Nat) (i : EvexInstr) (md : Mode) (s : State) : Bool :=
  !evexFeature vl s.features || hasLock i.pfx || hasVectorClash i.pfx i.rex || vectorModeUd md
    || !s.osxsave || !s.avxEnabled || !s.avx512Enabled || evexBitsUd i

/-- Every exception of an EVEX row, in the order of R169. -/
def evexStop (e : Elem) (vl : Nat) (i : EvexInstr) (md : Mode) (s : State) : Option Stop :=
  firstOf
    [udIf (evexUd vl i md s), nmStop s,
      rmStopMasked s md (evexAddr vl i s) e (s.writemask i.aaa) (vl / 8) i.rm]

/-- The register r/m source of an EVEX row. -/
def evexReg (i : EvexInstr) (s : State) (n : BitVec 3) : VecReg := s.readZmm (i.rmReg n)

/-- The result of the loop of R126, zero above VL. -/
def evexResult (e : Elem) (vl : Nat) (i : EvexInstr) (md : Mode) (s : State) : VecReg :=
  maskedPadds e vl (s.writemask i.aaa) i.z (s.readZmm i.dst) (s.readZmm i.src1)
    (rmValue s md (evexAddr vl i s) (vl / 8) (evexReg i s) i.rm)

/-- The state after an EVEX row completes (R126): the destination's bits above VL are 0, mask or not. -/
def evexDone (e : Elem) (vl : Nat) (i : EvexInstr) (md : Mode) (s : State) : State :=
  (s.writeZmm i.dst (evexResult e vl i md s)).retire md i.len

/-- An EVEX row. -/
def evexForm (e : Elem) (vl : Nat) (i : EvexInstr) (s : State) : Host.Outcome State Fault Refusal :=
  match s.mode with
  | none => .refused .modeNotCovered
  | some md => finish (evexStop e vl i md s) (evexDone e vl i md s)

/-- VPADDSB xmm1 {k1}{z}, xmm2, xmm3/m128 (R138). -/
def execVpaddsbEvex128 (i : EvexInstr) (s : State) : Host.Outcome State Fault Refusal :=
  evexForm .byte 128 i s

/-- VPADDSB ymm1 {k1}{z}, ymm2, ymm3/m256 (R139). -/
def execVpaddsbEvex256 (i : EvexInstr) (s : State) : Host.Outcome State Fault Refusal :=
  evexForm .byte 256 i s

/-- VPADDSB zmm1 {k1}{z}, zmm2, zmm3/m512 (R140). -/
def execVpaddsbEvex512 (i : EvexInstr) (s : State) : Host.Outcome State Fault Refusal :=
  evexForm .byte 512 i s

/-- VPADDSW xmm1 {k1}{z}, xmm2, xmm3/m128 (R141). -/
def execVpaddswEvex128 (i : EvexInstr) (s : State) : Host.Outcome State Fault Refusal :=
  evexForm .word 128 i s

/-- VPADDSW ymm1 {k1}{z}, ymm2, ymm3/m256 (R142). -/
def execVpaddswEvex256 (i : EvexInstr) (s : State) : Host.Outcome State Fault Refusal :=
  evexForm .word 256 i s

/-- VPADDSW zmm1 {k1}{z}, zmm2, zmm3/m512 (R143). -/
def execVpaddswEvex512 (i : EvexInstr) (s : State) : Host.Outcome State Fault Refusal :=
  evexForm .word 512 i s

end Sys2Proof.Machine
end

