-- ==== Sys2Proof/Machine/Mmx.lean ====
section
/-!
DEFINITION. The MMX rows: PADDSB mm, mm/m64 (40_padds.md R130) and PADDSW mm, mm/m64 (R132), over the
template R124 with the x87 side effects of 10_state.md R23.
-/

namespace Sys2Proof.Machine

/-- What a legacy form brings to its memory operand; `N = 1` (30_encoding.md R94). -/
def legAddr (l : LegInstr) (s : State) : AddrInfo :=
  ⟨l.pfx, rexBit Rex.x l.rex, rexBit Rex.b l.rex, 1, s.rip + BitVec.ofNat 64 l.len⟩

/-- #UD of the MMX rows (60_exceptions.md R164). -/
def mmxUd (s : State) (l : LegInstr) : Bool := !s.features.mmx || hasLock l.pfx || s.em

/-- #MF: an x87 exception is pending; with CR0.NE = 0 the report is external and refused (R164, U19). -/
def mfStop (s : State) : Option Stop :=
  if s.x87Es then some (if s.ne then raise .mf else .refuse .externalX87Report) else none

/-- Every exception of an MMX row, in the order of R169. -/
def mmxStop (l : LegInstr) (md : Mode) (s : State) : Option Stop :=
  firstOf
    [udIf (mmxUd s l), nmStop s, mfStop s, rmStop s md .mmx (legAddr l s) 8 l.rm]

/-- An `mm` register as an operand. -/
def mmValue (s : State) (n : BitVec 3) : VecReg := (s.readMm n).setWidth 512

/-- `PADDS(MM[d], SRC_RM(64), w, 64)`. -/
def mmxResult (e : Elem) (l : LegInstr) (md : Mode) (s : State) : BitVec 64 :=
  (padds e 64 (mmValue s l.reg) (rmValue s md (legAddr l s) 8 (mmValue s) l.rm)).setWidth 64

/-- The state after an MMX row completes (R124). -/
def mmxDone (e : Elem) (l : LegInstr) (md : Mode) (s : State) : State :=
  (s.writeMm l.reg (mmxResult e l md s)).retire md l.len

/-- An MMX row. -/
def mmxForm (e : Elem) (l : LegInstr) (s : State) : Host.Outcome State Fault Refusal :=
  match s.mode with
  | none => .refused .modeNotCovered
  | some md => finish (mmxStop l md s) (mmxDone e l md s)

/-- PADDSB mm, mm/m64 (R130). -/
def execPaddsbMm (l : LegInstr) (s : State) : Host.Outcome State Fault Refusal := mmxForm .byte l s

/-- PADDSW mm, mm/m64 (R132). -/
def execPaddswMm (l : LegInstr) (s : State) : Host.Outcome State Fault Refusal := mmxForm .word l s

end Sys2Proof.Machine
end

