-- ==== Sys2Proof/Machine/Sse.lean ====
section
/-!
DEFINITION. The legacy SSE rows: PADDSB xmm1, xmm2/m128 (40_padds.md R131) and PADDSW xmm1, xmm2/m128
(R133), over the template R124.
-/

namespace Sys2Proof.Machine

/-- #UD of the legacy SSE rows (60_exceptions.md R162, R163). -/
def sseUd (s : State) (l : LegInstr) : Bool :=
  !s.features.sse2 || hasLock l.pfx || s.em || !s.osfxsr

/-- Every exception of a legacy SSE row, in the order of R169. -/
def sseRowStop (l : LegInstr) (md : Mode) (s : State) : Option Stop :=
  firstOf [udIf (sseUd s l), nmStop s, rmStop s md .sse (legAddr l s) 16 l.rm]

/-- The register source of a legacy SSE row. -/
def sseReg (l : LegInstr) (s : State) (n : BitVec 3) : VecReg := s.readZmm (l.xmmRm n)

/-- `PADDS(ZMM[d][127:0], SRC_RM(128), w, 128)`, zero above. -/
def sseResult (e : Elem) (l : LegInstr) (md : Mode) (s : State) : VecReg :=
  padds e 128 (s.readZmm l.xmmDst) (rmValue s md (legAddr l s) 16 (sseReg l s) l.rm)

/-- `v` in the low 128 bits, the rest of `old` unmodified (R127). -/
def keepUpper (old v : VecReg) : VecReg := old.extractLsb' 128 384 ++ v.extractLsb' 0 128

/-- The state after a legacy SSE row completes (R124). -/
def sseDone (e : Elem) (l : LegInstr) (md : Mode) (s : State) : State :=
  (s.writeZmm l.xmmDst (keepUpper (s.readZmm l.xmmDst) (sseResult e l md s))).retire md l.len

/-- A legacy SSE row. -/
def sseForm (e : Elem) (l : LegInstr) (s : State) : Host.Outcome State Fault Refusal :=
  match s.mode with
  | none => .refused .modeNotCovered
  | some md => finish (sseRowStop l md s) (sseDone e l md s)

/-- PADDSB xmm1, xmm2/m128 (R131). -/
def execPaddsbXmm (l : LegInstr) (s : State) : Host.Outcome State Fault Refusal := sseForm .byte l s

/-- PADDSW xmm1, xmm2/m128 (R133). -/
def execPaddswXmm (l : LegInstr) (s : State) : Host.Outcome State Fault Refusal := sseForm .word l s

end Sys2Proof.Machine
end

