-- ==== Sys2Proof/Machine/Dispatch.lean ====
section
/-!
DEFINITION. One arm per instruction; each calls its meaning.
-/

namespace Sys2Proof.Machine

def exec (i : Instr) (s : State) : Host.Outcome State Fault Refusal :=
  match i with
  | .paddsbMm l => Sys2Proof.Machine.execPaddsbMm l s
  | .paddsbXmm l => Sys2Proof.Machine.execPaddsbXmm l s
  | .paddswMm l => Sys2Proof.Machine.execPaddswMm l s
  | .paddswXmm l => Sys2Proof.Machine.execPaddswXmm l s
  | .vpaddsbVex128 v => Sys2Proof.Machine.execVpaddsbVex128 v s
  | .vpaddswVex128 v => Sys2Proof.Machine.execVpaddswVex128 v s
  | .vpaddsbVex256 v => Sys2Proof.Machine.execVpaddsbVex256 v s
  | .vpaddswVex256 v => Sys2Proof.Machine.execVpaddswVex256 v s
  | .vpaddsbEvex128 e => Sys2Proof.Machine.execVpaddsbEvex128 e s
  | .vpaddsbEvex256 e => Sys2Proof.Machine.execVpaddsbEvex256 e s
  | .vpaddsbEvex512 e => Sys2Proof.Machine.execVpaddsbEvex512 e s
  | .vpaddswEvex128 e => Sys2Proof.Machine.execVpaddswEvex128 e s
  | .vpaddswEvex256 e => Sys2Proof.Machine.execVpaddswEvex256 e s
  | .vpaddswEvex512 e => Sys2Proof.Machine.execVpaddswEvex512 e s

end Sys2Proof.Machine
end

