-- ==== Sys2Proof/Machine/Launch.lean ====
section
/-!
DEFINITION. The launch of a run (70_reset_and_hazards.md R190): how code and the reference configuration
come into the machine from outside.
-/

namespace Sys2Proof.Machine

/-- Set the bits of `m` in `v`. -/
def setBits (v m : Quad) : Quad := v ||| m

/-- Clear the bits of `m` in `v`. -/
def clearBits (v m : Quad) : Quad := v &&& ~~~ m

/-- The reference configuration of 95_test_vectors.md over a state: `Mode64`, CR0.EM = 0, CR0.TS = 0,
CR4.OSFXSR = 1, CR4.OSXSAVE = 1, XCR0 = E7H, the identity translation, no end address (R192; log 13). -/
def launchReference (s : State) : State :=
  { s with
    cr0 := setBits (clearBits s.cr0 0xC#64) 0x1#64
    cr4 := setBits s.cr4 0x40200#64
    efer := setBits s.efer 0x400#64
    rflags := clearBits s.rflags 0x20000#64
    cs := { s.cs with attributes := { s.cs.attributes with long := true, default32 := false } }
    xcr0 := 0xE7#64
    translation := []
    endAddress := none }

/-- Place code bytes at RIP, where `Mode64` under the identity translation fetches (D16). -/
def placeCode (s : State) (bs : List Byte) : State := { s with mem := s.mem.writeBytes s.rip bs }

end Sys2Proof.Machine
end

