-- ==== Sys2Proof/Machine/Step.lean ====
section
/-!
DEFINITION. One step: fetch, decode, execute (70_reset_and_hazards.md R196, 10_state.md R27,
60_exceptions.md R169).
-/

namespace Sys2Proof.Machine

/-- One step. A run that has reached `endAddress` makes none (R196). The bytes are fetched one by one, as
far as the decoder needs them; a byte that cannot be fetched ends the step (R169 item 1) only if the
instruction needs it. -/
def step (s : State) : Host.Outcome State Fault Refusal :=
  if s.endAddress = some s.rip then .refused .runOver
  else
    match s.mode with
    | none => .refused .modeNotCovered
    | some md =>
      match decode md (fetchFrom s md maxLen 0).1 with
      | .ok (.row i) _ => exec i s
      | .ok .reservedLength _ => (raise .ud).out
      | .short => (shortStop (fetchFrom s md maxLen 0).2).out
      | .refused r => .refused (.decode r)

/-- The launch of one table word (log 13): the reference configuration, and the word's bytes with zeros
after them where the next step fetches. -/
def State.withFetchWord (s : State) (nbits w : Nat) : State :=
  placeCode (launchReference s) (tableWindow nbits w)

end Sys2Proof.Machine
end

