-- ==== Sys2Proof/WellFormed.lean ====
section
/-!
DEFINITION. Well-formed instructions: the terms of `Instr` that are the reading of some bytes in a mode.
The conditions are those of 30_encoding.md R80 to R91 and R97; the round-trip statements rest on them.
-/

namespace Sys2Proof

/-- At most one legacy prefix of each kind (R81, D17). -/
def pfxWf (pfx : List Pfx) : Bool := decide (pfx.map Pfx.kind).Nodup

/-- REX exists in `Mode64` only (R88). -/
def rexWf (md : Mode) (rex : Option Rex) : Bool := md == .mode64 || rex.isNone

/-- A memory form is one that ModRM and SIB can express (R87): `rm = 100b` is the SIB escape, and the
`mod = 00b` rows for 101b (and 110b under 16-bit addressing) have no base. -/
def MemForm.wf (a16 : Bool) : MemForm → Bool
  | .base rm d => !a16 && rm != 4#3 && !(d == .none && rm == 5#3)
  | .disp _ => !a16
  | .sib _ _ bs d => !a16 && !(d == .none && bs == 5#3)
  | .sibNoBase _ _ _ => !a16
  | .base16 rm d => a16 && !(d == .none && rm == 6#3)
  | .disp16 _ => a16

def Rm.wf (a16 : Bool) : Rm → Bool
  | .reg _ => true
  | .mem m => m.wf a16

/-- Format `LEG`: no F2 or F3, and 66 exactly on the `xmm` rows (R83). -/
def LegInstr.wf (md : Mode) (xmm : Bool) (l : LegInstr) : Bool :=
  pfxWf l.pfx && rexWf md l.rex && l.rm.wf (addr16 md l.pfx)
    && !l.pfx.contains .rep && !l.pfx.contains .repne && (l.pfx.contains .opSize == xmm)

/-- Format `VEX`: outside `Mode64` only low register numbers (R90). -/
def VexInstr.wf (md : Mode) (v : VexInstr) : Bool :=
  pfxWf v.pfx && rexWf md v.rex && v.rm.wf (addr16 md v.pfx) && (md == .mode64 || v.vex.low)

/-- Format `EVEX`: outside `Mode64` only low register numbers (R91). -/
def EvexInstr.wf (md : Mode) (e : EvexInstr) : Bool :=
  pfxWf e.pfx && rexWf md e.rex && e.rm.wf (addr16 md e.pfx) && (md == .mode64 || e.low)

/-- A well-formed instruction, its length apart. -/
def Instr.wfParts (md : Mode) : Instr → Bool
  | .paddsbMm l => l.wf md false
  | .paddsbXmm l => l.wf md true
  | .paddswMm l => l.wf md false
  | .paddswXmm l => l.wf md true
  | .vpaddsbVex128 v => v.wf md
  | .vpaddswVex128 v => v.wf md
  | .vpaddsbVex256 v => v.wf md
  | .vpaddswVex256 v => v.wf md
  | .vpaddsbEvex128 e => e.wf md
  | .vpaddsbEvex256 e => e.wf md
  | .vpaddsbEvex512 e => e.wf md
  | .vpaddswEvex128 e => e.wf md
  | .vpaddswEvex256 e => e.wf md
  | .vpaddswEvex512 e => e.wf md

/-- A well-formed instruction in a mode: its parts, and 1 to 15 bytes (R80). -/
def Instr.wf (md : Mode) (i : Instr) : Bool := i.wfParts md && decide (i.len ≤ maxLen)

end Sys2Proof
end

