-- ==== Sys2Proof/Safety.lean ====
section
/-!
DEFINITION. What counts as a safe run, the premises and invariants that claims use, and the words in which
claims about the fourteen rows are stated.
-/

namespace Sys2Proof

open Machine

/-! ### Runs (70_reset_and_hazards.md R190, R196) -/

/-- The run is over, successfully: RIP is the end address (R196). -/
def Over (s : State) : Prop := s.endAddress = some s.rip

/-- The bits that have one value hold it: RFLAGS bit 1 and XCR0 bit 0 are 1 (10_state.md R28, R31). -/
def FixedBits (s : State) : Prop := s.rflags.getLsbD 1 = true ∧ s.xcr0.getLsbD 0 = true

/-- Every code byte from RIP up to the end address is one that `translate` admits for fetch (R190, row 5). -/
def CodeAdmitted (s : State) (md : Mode) : Prop :=
  ∀ e k, s.endAddress = some e → s.rip.toNat + k < e.toNat →
    ∃ d, s.translate .fetch .cs (codeAddr s md k) = .shift d

/-- The launch premises of R190 that a state can break, and the bits of fixed value (R28, R31). RFLAGS.TF is
bit 8: PRESUMED (log 21). -/
def LaunchPremises (s : State) : Prop :=
  (∃ md, s.mode = some md ∧ (md = .mode64 ∨ md = .compat32) ∧ CodeAdmitted s md)
    ∧ s.readRflags.getLsbD 8 = false ∧ (s.ne = false → s.x87Es = false) ∧ FixedBits s

/-- `k` steps lead from one state to another with no fault and no refusal. -/
def Steps : Nat → State → State → Prop
  | 0, s, t => s = t
  | k + 1, s, t => ∃ u, step s = .next u ∧ Steps k u t

/-- A successful run (R196). -/
def RunsToEnd (s : State) : Prop := ∃ k t, Steps k s t ∧ Over t

/-! ### Invariants -/

/-- The nesting of feature flags on shipped processors (00_scope.md R6). -/
def Nested (f : Features) : Prop :=
  ((f.avx512bw = true ∨ f.avx512vl = true) → f.avx512f = true) ∧ (f.avx512f = true → f.avx2 = true)
    ∧ (f.avx2 = true → f.avx = true) ∧ (f.avx = true → f.sse2 = true)

/-- The bits of a vector register that the part does not have are 0 in the model (log 5). -/
def UpperClear (s : State) : Prop :=
  ∀ (r : BitVec 5) (j : Nat), s.features.maxvl ≤ j → (s.readZmm r).getLsbD j = false

/-- Outside `Mode64` the instruction pointer has 32 bits (10_state.md R27). -/
def RipFits (s : State) : Prop := s.mode ≠ some .mode64 → s.rip.toNat < 2 ^ 32

/-- The invariant of the machine: memory is canonical, the instruction pointer fits its mode, the bits of fixed
value hold it, and on a part with nested features no register holds bits above MAXVL. -/
def Inv (s : State) : Prop :=
  Memory.wf s.mem ∧ RipFits s ∧ FixedBits s ∧ (Nested s.features → UpperClear s)

/-! ### Frames -/

/-- What no instruction of the family writes (10_state.md R25, R28, 40_padds.md R128): opmask and general
registers, MXCSR, RFLAGS, segments, control registers, the launch parameters, every byte of memory. -/
structure Kept (s t : State) : Prop where
  kreg : t.kreg = s.kreg
  mxcsr : t.mxcsr = s.mxcsr
  gpr : t.gpr = s.gpr
  rflags : t.rflags = s.rflags
  segments : ∀ r, t.segment r = s.segment r
  csLong : t.csLong = s.csLong
  csDefault32 : t.csDefault32 = s.csDefault32
  cr0 : t.cr0 = s.cr0
  cr4 : t.cr4 = s.cr4
  efer : t.efer = s.efer
  xcr0 : t.xcr0 = s.xcr0
  features : t.features = s.features
  translation : t.translation = s.translation
  linearWidth : t.linearWidth = s.linearWidth
  suppression : t.suppression = s.suppression
  alignmentCheck : t.alignmentCheck = s.alignmentCheck
  endAddress : t.endAddress = s.endAddress
  memory : ∀ a, Memory.read t.mem a = Memory.read s.mem a

/-- The x87 state is unchanged. -/
def KeptX87 (s t : State) : Prop :=
  t.fpr = s.fpr ∧ t.x87Status = s.x87Status ∧ t.x87Tag = s.x87Tag

/-- Every vector register but one is unchanged. -/
def KeptZmmBut (d : BitVec 5) (s t : State) : Prop := ∀ r, r ≠ d → t.readZmm r = s.readZmm r

/-! ### The rows, by element and vector length -/

def rowMmx (e : Elem) (l : LegInstr) : Instr :=
  match e with
  | .byte => .paddsbMm l
  | .word => .paddswMm l

def rowSse (e : Elem) (l : LegInstr) : Instr :=
  match e with
  | .byte => .paddsbXmm l
  | .word => .paddswXmm l

/-- The vector lengths of the VEX rows. -/
inductive VexLen
  | l128 | l256
  deriving DecidableEq, Repr

def VexLen.bits : VexLen → Nat
  | .l128 => 128
  | .l256 => 256

def rowVex (e : Elem) (n : VexLen) (v : VexInstr) : Instr :=
  match e, n with
  | .byte, .l128 => .vpaddsbVex128 v
  | .word, .l128 => .vpaddswVex128 v
  | .byte, .l256 => .vpaddsbVex256 v
  | .word, .l256 => .vpaddswVex256 v

/-- The vector lengths of the EVEX rows. -/
inductive EvexLen
  | l128 | l256 | l512
  deriving DecidableEq, Repr

def EvexLen.bits : EvexLen → Nat
  | .l128 => 128
  | .l256 => 256
  | .l512 => 512

def rowEvex (e : Elem) (n : EvexLen) (i : EvexInstr) : Instr :=
  match e, n with
  | .byte, .l128 => .vpaddsbEvex128 i
  | .byte, .l256 => .vpaddsbEvex256 i
  | .byte, .l512 => .vpaddsbEvex512 i
  | .word, .l128 => .vpaddswEvex128 i
  | .word, .l256 => .vpaddswEvex256 i
  | .word, .l512 => .vpaddswEvex512 i

/-! ### Arithmetic in plain integers -/

/-- The nearest signed value of `w` bits (40_padds.md R120, R121). -/
def clampSigned (w : Nat) (x : Int) : Int := max (-(2 ^ (w - 1))) (min (2 ^ (w - 1) - 1) x)

/-- Lane `i` of `r` is the saturated sum of the lanes `i` of `a` and `b`. -/
def LaneIsSum (e : Elem) (r a b : VecReg) (i : Nat) : Prop :=
  (lane e r i).toInt = clampSigned e.bits ((lane e a i).toInt + (lane e b i).toInt)

/-- Bits `lo` and up are 0. -/
def ZeroFrom (lo : Nat) (v : VecReg) : Prop := ∀ j, lo ≤ j → v.getLsbD j = false

/-! ### The enables of each class (60_exceptions.md R162 to R165) -/

def MmxEnabled (s : State) (l : LegInstr) : Prop :=
  s.features.mmx = true ∧ .lock ∉ l.pfx ∧ s.em = false

def SseEnabled (s : State) (l : LegInstr) : Prop :=
  s.features.sse2 = true ∧ .lock ∉ l.pfx ∧ s.em = false ∧ s.osfxsr = true

/-- No LOCK, 66, F2, F3 or REX before a VEX or EVEX prefix. -/
def NoClash (pfx : List Pfx) (rex : Option Rex) : Prop :=
  .lock ∉ pfx ∧ .opSize ∉ pfx ∧ .repne ∉ pfx ∧ .rep ∉ pfx ∧ rex = none

/-- The feature of a VEX row (30_encoding.md R96). -/
def VexLen.feature (n : VexLen) (f : Features) : Bool :=
  match n with
  | .l128 => f.avx
  | .l256 => f.avx2

def VexEnabled (n : VexLen) (s : State) (md : Mode) (v : VexInstr) : Prop :=
  n.feature s.features = true ∧ NoClash v.pfx v.rex ∧ md ≠ .real ∧ md ≠ .v86 ∧ s.osxsave = true
    ∧ s.readXcr0.extractLsb' 1 2 = 3#2

/-- The features of an EVEX row (30_encoding.md R96). -/
def EvexLen.feature (n : EvexLen) (f : Features) : Bool :=
  match n with
  | .l128 => f.avx512bw && f.avx512vl
  | .l256 => f.avx512bw && f.avx512vl
  | .l512 => f.avx512bw

def EvexEnabled (n : EvexLen) (s : State) (md : Mode) (i : EvexInstr) : Prop :=
  n.feature s.features = true ∧ NoClash i.pfx i.rex ∧ md ≠ .real ∧ md ≠ .v86 ∧ s.osxsave = true
    ∧ s.readXcr0.extractLsb' 1 2 = 3#2 ∧ s.readXcr0.extractLsb' 5 3 = 7#3
    ∧ i.reserved = 0#2 ∧ i.fixed1 = true ∧ i.bcst = false ∧ ¬ (i.z = true ∧ i.aaa = 0#3)

/-! ### The addresses of a format's operand (20_memory.md R53, R54) -/

/-- The effective addresses and `base_is_stack` of R53 for an address size of 64 or 32, from an instruction's
extension bits, the factor of its 8-bit displacement and its length. -/
def OperandForms (s : State) (md : Mode) (c : AddrInfo) (asz : Nat) (x b : Bool) (n len : Nat) : Prop :=
  ∀ (rm ix bs : BitVec 3) (sc : BitVec 2) (d : Disp) (d32 : BitVec 32),
    let num := fun (hi : Bool) (lo : BitVec 3) => reg4 (md == .mode64 && hi) lo
    let g := fun i => lowBits asz (s.readGpr i)
    let index := if num x ix = 4#4 then 0#64 else g (num x ix) * BitVec.ofNat 64 (2 ^ sc.toNat)
    (place s md c (.base rm d)).ea = lowBits asz (g (num b rm) + d.value n)
    ∧ (place s md c (.disp d32)).ea =
        lowBits asz ((if md = .mode64 then s.rip + BitVec.ofNat 64 len else 0#64) + d32.signExtend 64)
    ∧ (place s md c (.sib sc ix bs d)).ea = lowBits asz (g (num b bs) + index + d.value n)
    ∧ (place s md c (.sibNoBase sc ix d32)).ea = lowBits asz (index + d32.signExtend 64)
    ∧ (baseIsStack md c (.base rm d) = true ↔ num b rm = 5#4)
    ∧ (baseIsStack md c (.sib sc ix bs d) = true ↔ num b bs = 4#4 ∨ num b bs = 5#4)
    ∧ baseIsStack md c (.disp d32) = false ∧ baseIsStack md c (.sibNoBase sc ix d32) = false

/-- The segment of R54 for an operand of an instruction with the given prefixes. -/
def OperandSegment (s : State) (md : Mode) (c : AddrInfo) (pfx : List Pfx) : Prop :=
  ∀ m, (place s md c m).seg =
    match segOverride pfx with
    | none => if baseIsStack md c m then .ss else .ds
    | some r =>
      if md = .mode64 ∧ r ≠ .fs ∧ r ≠ .gs then (if baseIsStack md c m then .ss else .ds) else r

/-! ### Readable operands (20_memory.md R54 to R56) -/

/-- Byte `i` of an operand can be read: its address is well formed and `translate` gives a location. -/
def ByteReadable (s : State) (md : Mode) (p : Place) (i : Nat) : Prop :=
  (md = .mode64 → canonical s.linearWidth (byteAddr md p i) = true)
    ∧ ((md = .real ∨ md = .v86) → p.ea.toNat + i < 2 ^ 16)
    ∧ ∃ d, s.translate .read p.seg (byteAddr md p i) = .shift d

/-- The outcome of a fetch of the byte at `la` for each verdict of `translate` (60_exceptions.md R167, D20; log 19):
the byte at the location, #PF with I/D = 1, #GP(0), #SS(0), or a refusal. -/
def FetchAnswers (s : State) (la : Quad) (answer : Except Stop Byte) : Prop :=
  (∀ d, s.translate .fetch .cs la = .shift d → answer = .ok (Memory.read s.mem (la + d).toNat))
    ∧ (∀ pb rsvd, s.translate .fetch .cs la = .pf pb rsvd →
        answer = .error (.fault (.exception .pf 14
          (some (BitVec.ofNat 32 ((if pb then 1 else 0) + (if s.cpl = 3#2 then 4 else 0)
            + (if rsvd then 8 else 0) + 16))) (some la))))
    ∧ (s.translate .fetch .cs la = .gp → answer = .error (.fault (.exception .gp 13 (some 0#32) none)))
    ∧ (s.translate .fetch .cs la = .ss → answer = .error (.fault (.exception .ss 12 (some 0#32) none)))
    ∧ (s.translate .fetch .cs la = .reject → answer = .error (.refuse .translateRejects))

/-- Byte `i` of an operand lies where R169 item 5 forbids nothing: a canonical address in `Mode64`, an offset up
to FFFFH in real-address and virtual-8086 mode, no #GP(0) or #SS(0) from `translate`. -/
def ByteFormed (s : State) (md : Mode) (p : Place) (i : Nat) : Prop :=
  (md = .mode64 → canonical s.linearWidth (byteAddr md p i) = true)
    ∧ ((md = .real ∨ md = .v86) → p.ea.toNat + i < 2 ^ 16)
    ∧ s.translate .read p.seg (byteAddr md p i) ≠ .gp ∧ s.translate .read p.seg (byteAddr md p i) ≠ .ss

/-- Byte `j` is the lowest-numbered of the given bytes for which `translate` gives no location, R169 item 5
forbids none of them, and the verdict on byte `j` is the given one. -/
def FirstPageVerdict (s : State) (md : Mode) (p : Place) (bytes : Nat → Prop) (j : Nat)
    (verdict : TranslateVerdict) : Prop :=
  bytes j ∧ (∀ i, bytes i → ByteFormed s md p i) ∧ (∀ i, bytes i → i < j → ByteReadable s md p i)
    ∧ s.translate .read p.seg (byteAddr md p j) = verdict

/-- No byte below `n` has a verdict #GP(0) or #SS(0) of `translate`. -/
def NoSegmentVerdict (s : State) (md : Mode) (p : Place) (n : Nat) : Prop :=
  ∀ i < n, s.translate .read p.seg (byteAddr md p i) ≠ .gp ∧ s.translate .read p.seg (byteAddr md p i) ≠ .ss

/-- Byte `j` is the lowest-numbered of the given bytes at which R169 item 5 forbids anything, and what forbids
it is a verdict of `translate`. -/
def FirstSegmentFault (s : State) (md : Mode) (p : Place) (bytes : Nat → Prop) (j : Nat)
    (verdict : TranslateVerdict) : Prop :=
  bytes j ∧ (∀ i, bytes i → i < j → ByteFormed s md p i)
    ∧ (md = .mode64 → canonical s.linearWidth (byteAddr md p j) = true)
    ∧ ((md = .real ∨ md = .v86) → p.ea.toNat + j < 2 ^ 16)
    ∧ s.translate .read p.seg (byteAddr md p j) = verdict

/-- The mask bit of byte `i`'s element is 1, or there is no writemask (30_encoding.md R92). -/
def ByteEnabled (e : Elem) (x : EvexInstr) (s : State) (i : Nat) : Prop :=
  x.aaa = 0#3 ∨ (s.readK x.aaa).getLsbD (i / e.size) = true

/-- The bytes an EVEX row checks (60_exceptions.md R165): with `evex_fault_suppression` = yes those of enabled
elements, otherwise all. -/
def EvexChecked (e : Elem) (n : EvexLen) (x : EvexInstr) (s : State) (i : Nat) : Prop :=
  i < n.bits / 8 ∧ (s.suppression = .yes → ByteEnabled e x s i)

/-- The alignment a class asks for, so that no #GP(0) and no #AC(0) can arise (R55, R166). -/
def Aligned (s : State) (al : Align) (p : Place) : Prop :=
  match al with
  | .sse => p.la.toNat % 16 = 0 ∧ p.ea.toNat % 16 = 0
  | .mmx => s.alignmentChecked = true → p.la.toNat % 8 = 0
  | .vector => s.alignmentChecked = true → p.la.toNat % 8 = 0 ∨ s.alignmentCheck = .no

/-- The last source operand is a register, or memory of which the given bytes are readable and aligned. -/
def RmReady (s : State) (md : Mode) (al : Align) (c : AddrInfo) (bytes : Nat → Prop) : Rm → Prop
  | .reg _ => True
  | .mem m =>
    Aligned s al (place s md c m) ∧ ∀ i, bytes i → ByteReadable s md (place s md c m) i

end Sys2Proof
end

