-- ==== Sys2Proof/Certificates/Slice0/Obligations.lean ====
section
/-!
DEFINITION. The statements for the provers, from the numbered rules of spec/. Each docstring names the rules.
-/

open Sys2Proof Sys2Proof.Machine

/-! ### Arithmetic (40_padds.md) -/

/-- R120. -/
def Obligations.SaturateToSignedByteClamps : Prop :=
  (∀ x : Int,
    (127 < x → satByte x = 0x7F#8) ∧ (x < -128 → satByte x = 0x80#8)
      ∧ (-128 ≤ x → x ≤ 127 → ((satByte x).toNat : Int) = x % 256))
  ∧ ∀ a b : BitVec 8,
      satAdd .byte a b = satByte (a.toInt + b.toInt) ∧ -256 ≤ a.toInt + b.toInt ∧ a.toInt + b.toInt ≤ 254

/-- R121. -/
def Obligations.SaturateToSignedWordClamps : Prop :=
  (∀ x : Int,
    (32767 < x → satWord x = 0x7FFF#16) ∧ (x < -32768 → satWord x = 0x8000#16)
      ∧ (-32768 ≤ x → x ≤ 32767 → ((satWord x).toNat : Int) = x % 65536))
  ∧ ∀ a b : BitVec 16,
      satAdd .word a b = satWord (a.toInt + b.toInt) ∧ -65536 ≤ a.toInt + b.toInt
        ∧ a.toInt + b.toInt ≤ 65534

/-- R122: every lane is the saturated sum of the same lanes of the sources and of nothing else; the bits above
the vector length are 0. -/
def Obligations.PackedAddIsLaneWise : Prop :=
  ∀ (e : Elem) (vl : Nat) (a b : VecReg), vl ∈ [64, 128, 256, 512] →
    (∀ i < vl / e.bits,
      LaneIsSum e (padds e vl a b) a b i
        ∧ (padds e vl a b).extractLsb' (e.bits * i) e.bits =
            match e with
            | .byte => satByte ((a.extractLsb' (8 * i) 8).toInt + (b.extractLsb' (8 * i) 8).toInt)
            | .word => satWord ((a.extractLsb' (16 * i) 16).toInt + (b.extractLsb' (16 * i) 16).toInt))
    ∧ ZeroFrom vl (padds e vl a b)

/-- R145, with the overflow rows read as "at least the bound" (at `x + y = MAX` the exact sum is MAX too). -/
def Obligations.SaturatingLaneLaws : Prop :=
  (∀ (e : Elem) (x y x' : BitVec e.bits),
    let hi : Int := 2 ^ (e.bits - 1) - 1
    let lo : Int := -(2 ^ (e.bits - 1))
    (lo ≤ x.toInt + y.toInt → x.toInt + y.toInt ≤ hi → (satAdd e x y).toInt = x.toInt + y.toInt)
    ∧ ((x.toInt ≤ 0 ∧ 0 ≤ y.toInt) ∨ (0 ≤ x.toInt ∧ y.toInt ≤ 0) →
        (satAdd e x y).toInt = x.toInt + y.toInt)
    ∧ ((satAdd e x y).toInt = hi ↔ hi ≤ x.toInt + y.toInt)
    ∧ ((satAdd e x y).toInt = lo ↔ x.toInt + y.toInt ≤ lo)
    ∧ (hi < x.toInt + y.toInt → 0 < x.toInt ∧ 0 < y.toInt)
    ∧ (x.toInt + y.toInt < lo → x.toInt < 0 ∧ y.toInt < 0)
    ∧ (satAdd e x y =
        if x.msb = y.msb ∧ (x + y).msb ≠ x.msb then
          (if x.msb then BitVec.intMin e.bits else BitVec.intMax e.bits)
        else x + y)
    ∧ satAdd e x y = satAdd e y x
    ∧ satAdd e x 0#e.bits = x
    ∧ (x.toInt ≤ x'.toInt → (satAdd e x y).toInt ≤ (satAdd e x' y).toInt))
  ∧ satAdd .byte (satAdd .byte 0x7F#8 0x01#8) 0xFF#8 = 0x7E#8
  ∧ satAdd .byte 0x7F#8 (satAdd .byte 0x01#8 0xFF#8) = 0x7F#8

/-! ### Memory operands (20_memory.md) -/

/-- R51: little-endian operands, displacements and fetch. Byte `i` of an operand at `la` is the byte at `la + i`;
that an operand across the top of the address space goes on at 0 is the model's (log 14), and so is the address
of a code byte outside `Mode64` (log 16). -/
def Obligations.ByteOrderIsLittleEndian : Prop :=
  (∀ (s : State) (md : Mode) (p : Place) (n i : Nat), n ≤ 64 → i < n →
    (operandValue s md p n).extractLsb' (8 * i) 8 = operandByte s md p i
    ∧ lane .byte (operandValue s md p n) i = operandByte s md p i
    ∧ (2 * i + 1 < n →
        lane .word (operandValue s md p n) i = operandByte s md p (2 * i + 1) ++ operandByte s md p (2 * i))
    ∧ (byteAddr md p i).toNat = (p.la.toNat + i) % (if md = .mode64 then 2 ^ 64 else 2 ^ 32)
    ∧ (∀ d, s.translate .read p.seg (byteAddr md p i) = .shift d →
        operandByte s md p i = Memory.read s.mem (byteAddr md p i + d).toNat)
    ∧ (s.translation = [] →
        operandByte s md p i =
          Memory.read s.mem ((p.la.toNat + i) % (if md = .mode64 then 2 ^ 64 else 2 ^ 32)))
    ∧ ∀ m ≤ n, ∀ j < 8 * m, (operandValue s md p n).getLsbD j = (operandValue s md p m).getLsbD j)
  ∧ (∀ (s : State) (md : Mode) (n k : Nat) (b : Byte), fetchByte s md k = .ok b →
      (fetchFrom s md (n + 1) k).1 = b :: (fetchFrom s md n (k + 1)).1
      ∧ (s.translation = [] → b = Memory.read s.mem ((codeAddr s md 0).toNat + k)))
  ∧ (∀ (b0 b1 b2 b3 : Byte) (rest : List Byte),
      takeD16 (b0 :: b1 :: rest) = .ok (b1 ++ b0) rest
        ∧ takeD32 (b0 :: b1 :: b2 :: b3 :: rest) = .ok ((b3 ++ b2) ++ (b1 ++ b0)) rest)

/-- R53 in `Mode64`, with 64- and 32-bit addresses: of any address data, and of the operand of each format, whose
`next` is the address after the instruction. -/
def Obligations.EffectiveAddressInMode64 : Prop :=
  (∀ (s : State) (c : AddrInfo) (rm ix bs : BitVec 3) (sc : BitVec 2) (d : Disp) (d32 : BitVec 32),
    (.addrSize ∉ c.pfx →
      effAddr s .mode64 c (.base rm d) = s.readGpr (reg4 c.b rm) + d.value c.n
      ∧ effAddr s .mode64 c (.disp d32) = c.next + d32.signExtend 64
      ∧ effAddr s .mode64 c (.sib sc ix bs d) =
          s.readGpr (reg4 c.b bs)
            + (if reg4 c.x ix = 4#4 then 0#64 else s.readGpr (reg4 c.x ix) * BitVec.ofNat 64 (2 ^ sc.toNat))
            + d.value c.n
      ∧ effAddr s .mode64 c (.sibNoBase sc ix d32) =
          (if reg4 c.x ix = 4#4 then 0#64 else s.readGpr (reg4 c.x ix) * BitVec.ofNat 64 (2 ^ sc.toNat))
            + d32.signExtend 64)
    ∧ (.addrSize ∈ c.pfx →
        effAddr s .mode64 c (.base rm d) = lowBits 32 (s.readGpr (reg4 c.b rm) + d.value c.n)
        ∧ ∀ m, (effAddr s .mode64 c m).toNat < 2 ^ 32)
    ∧ (baseIsStack .mode64 c (.base rm d) = true ↔ c.b = false ∧ rm = 5#3)
    ∧ (baseIsStack .mode64 c (.sib sc ix bs d) = true ↔ c.b = false ∧ (bs = 4#3 ∨ bs = 5#3))
    ∧ baseIsStack .mode64 c (.disp d32) = false ∧ baseIsStack .mode64 c (.sibNoBase sc ix d32) = false)
  ∧ (∀ (n : Nat) (d8 : BitVec 8) (d32 : BitVec 32),
      Disp.none.value n = 0#64 ∧ (Disp.d8 d8).value n = d8.signExtend 64 * BitVec.ofNat 64 n
        ∧ (Disp.d32 d32).value n = d32.signExtend 64)
  ∧ ∀ s : State,
      (∀ l : LegInstr, .addrSize ∉ l.pfx →
        OperandForms s .mode64 (legAddr l s) 64 (rexBit Rex.x l.rex) (rexBit Rex.b l.rex) 1 l.len)
      ∧ (∀ v : VexInstr, .addrSize ∉ v.pfx →
        OperandForms s .mode64 (vexAddr v s) 64 v.vex.x v.vex.b 1 v.len)
      ∧ ∀ (n : EvexLen) (x : EvexInstr), .addrSize ∉ x.pfx →
        OperandForms s .mode64 (evexAddr n.bits x s) 64 x.x x.b (n.bits / 8) x.len

/-- R53 under 32-bit addressing: `Mode64` and real-address and virtual-8086 mode (log 2) with prefix 67, and
`Compat32` without it; the extension bits count in `Mode64` only. Of any address data, and of the operand of
each format; and the address size of each mode. -/
def Obligations.EffectiveAddressUnder32BitAddressing : Prop :=
  (∀ (s : State) (md : Mode) (c : AddrInfo) (rm ix bs : BitVec 3) (sc : BitVec 2) (d : Disp)
    (d32 : BitVec 32), addrBits md c.pfx = 32 →
    let num := fun (hi : Bool) (lo : BitVec 3) => reg4 (md == .mode64 && hi) lo
    let index := if num c.x ix = 4#4 then 0#64 else s.readGpr (num c.x ix) * BitVec.ofNat 64 (2 ^ sc.toNat)
    effAddr s md c (.base rm d) = lowBits 32 (s.readGpr (num c.b rm) + d.value c.n)
    ∧ effAddr s md c (.disp d32) =
        lowBits 32 ((if md = .mode64 then c.next else 0#64) + d32.signExtend 64)
    ∧ effAddr s md c (.sib sc ix bs d) = lowBits 32 (s.readGpr (num c.b bs) + index + d.value c.n)
    ∧ effAddr s md c (.sibNoBase sc ix d32) = lowBits 32 (index + d32.signExtend 64)
    ∧ (baseIsStack md c (.base rm d) = true ↔ num c.b rm = 5#4)
    ∧ (baseIsStack md c (.sib sc ix bs d) = true ↔ num c.b bs = 4#4 ∨ num c.b bs = 5#4)
    ∧ baseIsStack md c (.disp d32) = false ∧ baseIsStack md c (.sibNoBase sc ix d32) = false)
  ∧ (∀ (s : State) (md : Mode),
      (∀ l : LegInstr, addrBits md l.pfx = 32 →
        OperandForms s md (legAddr l s) 32 (rexBit Rex.x l.rex) (rexBit Rex.b l.rex) 1 l.len)
      ∧ (∀ v : VexInstr, addrBits md v.pfx = 32 →
        OperandForms s md (vexAddr v s) 32 v.vex.x v.vex.b 1 v.len)
      ∧ ∀ (n : EvexLen) (x : EvexInstr), addrBits md x.pfx = 32 →
        OperandForms s md (evexAddr n.bits x s) 32 x.x x.b (n.bits / 8) x.len)
  ∧ ∀ pfx : List Pfx,
      (addrBits .mode64 pfx = if .addrSize ∈ pfx then 32 else 64)
      ∧ (addrBits .compat32 pfx = if .addrSize ∈ pfx then 16 else 32)
      ∧ (addrBits .real pfx = if .addrSize ∈ pfx then 32 else 16)
      ∧ (addrBits .v86 pfx = if .addrSize ∈ pfx then 32 else 16)

/-- R94: an 8-bit displacement is multiplied by the size of the whole operand in an EVEX row and by 1 in any
other; a 32-bit one is never scaled. -/
def Obligations.EightBitDisplacementsAreScaled : Prop :=
  ∀ (s : State) (rm : BitVec 3) (d : BitVec 8) (d32 : BitVec 32),
    (∀ (n : EvexLen) (x : EvexInstr), .addrSize ∉ x.pfx →
      (place s .mode64 (evexAddr n.bits x s) (.base rm (.d8 d))).ea =
          s.readGpr (reg4 x.b rm) + d.signExtend 64 * BitVec.ofNat 64 (n.bits / 8)
      ∧ (place s .mode64 (evexAddr n.bits x s) (.base rm (.d32 d32))).ea =
          s.readGpr (reg4 x.b rm) + d32.signExtend 64)
    ∧ (∀ v : VexInstr, .addrSize ∉ v.pfx →
      (place s .mode64 (vexAddr v s) (.base rm (.d8 d))).ea =
          s.readGpr (reg4 v.vex.b rm) + d.signExtend 64
      ∧ (place s .mode64 (vexAddr v s) (.base rm (.d32 d32))).ea =
          s.readGpr (reg4 v.vex.b rm) + d32.signExtend 64)
    ∧ ∀ l : LegInstr, .addrSize ∉ l.pfx →
      (place s .mode64 (legAddr l s) (.base rm (.d8 d))).ea =
          s.readGpr (reg4 (rexBit Rex.b l.rex) rm) + d.signExtend 64
      ∧ (place s .mode64 (legAddr l s) (.base rm (.d32 d32))).ea =
          s.readGpr (reg4 (rexBit Rex.b l.rex) rm) + d32.signExtend 64

/-- R53, the table for 16-bit addressing (`Compat32` with prefix 67, and real-address and virtual-8086 mode
without it: log 2), what a displacement adds, and the factor `N` of each format. -/
def Obligations.EffectiveAddressUnder16BitAddressing : Prop :=
  (∀ (s : State) (md : Mode) (c : AddrInfo) (d : Disp16) (d16 : BitVec 16), addrBits md c.pfx = 16 →
    let bx := s.readGpr 3#4
    let bp := s.readGpr 5#4
    let si := s.readGpr 6#4
    let di := s.readGpr 7#4
    effAddr s md c (.base16 0#3 d) = lowBits 16 (bx + si + d.value c.n)
    ∧ effAddr s md c (.base16 1#3 d) = lowBits 16 (bx + di + d.value c.n)
    ∧ effAddr s md c (.base16 2#3 d) = lowBits 16 (bp + si + d.value c.n)
    ∧ effAddr s md c (.base16 3#3 d) = lowBits 16 (bp + di + d.value c.n)
    ∧ effAddr s md c (.base16 4#3 d) = lowBits 16 (si + d.value c.n)
    ∧ effAddr s md c (.base16 5#3 d) = lowBits 16 (di + d.value c.n)
    ∧ effAddr s md c (.base16 6#3 d) = lowBits 16 (bp + d.value c.n)
    ∧ effAddr s md c (.base16 7#3 d) = lowBits 16 (bx + d.value c.n)
    ∧ effAddr s md c (.disp16 d16) = d16.setWidth 64
    ∧ (∀ rm, baseIsStack md c (.base16 rm d) = true ↔ rm = 2#3 ∨ rm = 3#3 ∨ rm = 6#3)
    ∧ baseIsStack md c (.disp16 d16) = false)
  ∧ (∀ (n : Nat) (d8 : BitVec 8) (d16 : BitVec 16),
      Disp16.none.value n = 0#64 ∧ (Disp16.d8 d8).value n = d8.signExtend 64 * BitVec.ofNat 64 n
        ∧ (Disp16.d16 d16).value n = d16.signExtend 64)
  ∧ ∀ (s : State) (md : Mode) (rm : BitVec 3) (d8 : BitVec 8),
      (∀ l : LegInstr, addrBits md l.pfx = 16 →
        (place s md (legAddr l s) (.base16 rm (.d8 d8))).ea = lowBits 16 (base16 s rm + d8.signExtend 64))
      ∧ (∀ v : VexInstr, addrBits md v.pfx = 16 →
        (place s md (vexAddr v s) (.base16 rm (.d8 d8))).ea = lowBits 16 (base16 s rm + d8.signExtend 64))
      ∧ ∀ (n : EvexLen) (x : EvexInstr), addrBits md x.pfx = 16 →
        (place s md (evexAddr n.bits x s) (.base16 rm (.d8 d8))).ea =
          lowBits 16 (base16 s rm + d8.signExtend 64 * BitVec.ofNat 64 (n.bits / 8))

/-- R54: the segment of an operand and its linear address, of any address data and of the operand of each
format. Outside `Mode64` the rule speaks of `Compat32`; that real-address and virtual-8086 mode do the same,
modulo 2^32 too, is the model's (log 2). -/
def Obligations.LinearAddressOfOperand : Prop :=
  (∀ (s : State) (md : Mode) (c : AddrInfo) (m : MemForm),
    (segOverride c.pfx = none →
      (place s md c m).seg = if baseIsStack md c m then .ss else .ds)
    ∧ (∀ r, segOverride c.pfx = some r → (md ≠ .mode64 ∨ r = .fs ∨ r = .gs) → (place s md c m).seg = r)
    ∧ (∀ r, segOverride c.pfx = some r → md = .mode64 → r ≠ .fs → r ≠ .gs →
        (place s md c m).seg = if baseIsStack md c m then .ss else .ds)
    ∧ (md = .mode64 →
        (place s md c m).la =
          (match (place s md c m).seg with
            | .fs => s.fs.base + (place s md c m).ea
            | .gs => s.gs.base + (place s md c m).ea
            | .es => (place s md c m).ea
            | .cs => (place s md c m).ea
            | .ss => (place s md c m).ea
            | .ds => (place s md c m).ea))
    ∧ (md ≠ .mode64 →
        (place s md c m).la.toNat =
          ((s.segment (place s md c m).seg).base.toNat + (place s md c m).ea.toNat) % 2 ^ 32))
  ∧ (∀ (s : State) (md : Mode),
      (∀ l : LegInstr, OperandSegment s md (legAddr l s) l.pfx)
      ∧ (∀ v : VexInstr, OperandSegment s md (vexAddr v s) v.pfx)
      ∧ ∀ (n : EvexLen) (x : EvexInstr), OperandSegment s md (evexAddr n.bits x s) x.pfx)
  ∧ ∀ pfx : List Pfx,
      (segOverride pfx = none ↔ ∀ r, .seg r ∉ pfx) ∧ ∀ r, segOverride pfx = some r → .seg r ∈ pfx

/-- R57's `MemWrite`, and the canonical form it keeps (log 9): each byte goes to its address, no other byte
changes. -/
def Obligations.MemWriteStoresEachByte : Prop :=
  ∀ (m : Memory) (a : Quad) (n : Nat) (v : VecReg), Memory.wf m → n ≤ 64 → a.toNat + n ≤ 2 ^ 64 →
    Memory.wf (memWrite m a n v)
    ∧ (∀ i < n, Memory.read (memWrite m a n v) (a.toNat + i) = v.extractLsb' (8 * i) 8)
    ∧ ∀ x, (∀ i < n, x ≠ a.toNat + i) → Memory.read (memWrite m a n v) x = Memory.read m x

/-! ### Completion: the result and the frame of every row -/

/-- R124, R130, R132, with 10_state.md R23: the MMX rows, register and memory source. -/
def Obligations.MmxRowsComplete : Prop :=
  ∀ (e : Elem) (l : LegInstr) (s : State) (md : Mode),
    s.mode = some md → MmxEnabled s l → s.ts = false → s.x87Es = false →
    RmReady s md .mmx (legAddr l s) (· < 8) l.rm →
    ∃ t, exec (rowMmx e l) s = .next t
      ∧ (∀ i < 64 / e.bits,
          LaneIsSum e ((t.readMm l.reg).setWidth 512) ((s.readMm l.reg).setWidth 512)
            (match l.rm with
              | .reg r => (s.readMm r).setWidth 512
              | .mem m => operandValue s md (place s md (legAddr l s) m) 8) i)
      ∧ (t.readFpr l.reg).extractLsb' 64 16 = 0xFFFF#16
      ∧ (∀ r, r ≠ l.reg → t.readFpr r = s.readFpr r)
      ∧ t.x87Top = 0#3 ∧ t.x87Tag = 0x0000#16
      ∧ (∀ j, ¬ (11 ≤ j ∧ j ≤ 13) → t.x87Status.getLsbD j = s.x87Status.getLsbD j)
      ∧ t.rip = nextRip md s.rip l.len
      ∧ t.zmm = s.zmm ∧ Kept s t

/-- R124, R127, R131, R133: the legacy SSE rows. -/
def Obligations.SseRowsComplete : Prop :=
  ∀ (e : Elem) (l : LegInstr) (s : State) (md : Mode),
    s.mode = some md → SseEnabled s l → s.ts = false →
    RmReady s md .sse (legAddr l s) (· < 16) l.rm →
    ∃ t, exec (rowSse e l) s = .next t
      ∧ (∀ i < 128 / e.bits,
          LaneIsSum e (t.readZmm l.xmmDst) (s.readZmm l.xmmDst)
            (match l.rm with
              | .reg r => s.readZmm (l.xmmRm r)
              | .mem m => operandValue s md (place s md (legAddr l s) m) 16) i)
      ∧ (∀ j, 128 ≤ j → (t.readZmm l.xmmDst).getLsbD j = (s.readZmm l.xmmDst).getLsbD j)
      ∧ t.rip = nextRip md s.rip l.len
      ∧ KeptZmmBut l.xmmDst s t ∧ KeptX87 s t ∧ Kept s t

/-- R125, R127, R134 to R137: the VEX rows. A memory operand may have any alignment, but where alignment checking
is in force: there it is 8-byte aligned, or the parameter `alignment_check` is `no` (R166, D21; log 11). -/
def Obligations.VexRowsComplete : Prop :=
  ∀ (e : Elem) (n : VexLen) (v : VexInstr) (s : State) (md : Mode),
    s.mode = some md → VexEnabled n s md v → s.ts = false →
    RmReady s md .vector (vexAddr v s) (· < n.bits / 8) v.rm →
    ∃ t, exec (rowVex e n v) s = .next t
      ∧ (∀ i < n.bits / e.bits,
          LaneIsSum e (t.readZmm v.dst) (s.readZmm v.src1)
            (match v.rm with
              | .reg r => s.readZmm (v.rmReg r)
              | .mem m => operandValue s md (place s md (vexAddr v s) m) (n.bits / 8)) i)
      ∧ ZeroFrom n.bits (t.readZmm v.dst)
      ∧ t.rip = nextRip md s.rip v.len
      ∧ KeptZmmBut v.dst s t ∧ KeptX87 s t ∧ Kept s t

/-- R126, R127, R92, R138 to R143: the EVEX rows, every element under its mask bit. Where alignment checking is in
force a memory operand is 8-byte aligned, or `alignment_check` is `no` (R166, D21; log 11). -/
def Obligations.EvexRowsComplete : Prop :=
  ∀ (e : Elem) (n : EvexLen) (x : EvexInstr) (s : State) (md : Mode),
    s.mode = some md → EvexEnabled n s md x → s.ts = false →
    RmReady s md .vector (evexAddr n.bits x s) (· < n.bits / 8) x.rm →
    ∃ t, exec (rowEvex e n x) s = .next t
      ∧ (∀ j < n.bits / e.bits,
          if x.aaa = 0#3 ∨ (s.readK x.aaa).getLsbD j = true then
            LaneIsSum e (t.readZmm x.dst) (s.readZmm x.src1)
              (match x.rm with
                | .reg r => s.readZmm (x.rmReg r)
                | .mem m => operandValue s md (place s md (evexAddr n.bits x s) m) (n.bits / 8)) j
          else if x.z = true then lane e (t.readZmm x.dst) j = 0#e.bits
          else lane e (t.readZmm x.dst) j = lane e (s.readZmm x.dst) j)
      ∧ ZeroFrom n.bits (t.readZmm x.dst)
      ∧ t.rip = nextRip md s.rip x.len
      ∧ KeptZmmBut x.dst s t ∧ KeptX87 s t ∧ Kept s t

/-- R165, R56: with fault suppression, only the bytes of enabled elements need be readable. Where alignment checking
is in force the operand's first address is 8-byte aligned whatever the mask is, or `alignment_check` is `no`
(log 11). -/
def Obligations.SuppressedBytesDoNotFault : Prop :=
  ∀ (e : Elem) (n : EvexLen) (x : EvexInstr) (s : State) (md : Mode),
    s.mode = some md → EvexEnabled n s md x → s.ts = false → s.suppression = .yes → x.aaa ≠ 0#3 →
    RmReady s md .vector (evexAddr n.bits x s)
      (fun i => i < n.bits / 8 ∧ (s.readK x.aaa).getLsbD (i / e.size) = true) x.rm →
    ∃ t, exec (rowEvex e n x) s = .next t
      ∧ (∀ j < n.bits / e.bits,
          if (s.readK x.aaa).getLsbD j = true then
            LaneIsSum e (t.readZmm x.dst) (s.readZmm x.src1)
              (match x.rm with
                | .reg r => s.readZmm (x.rmReg r)
                | .mem m => operandValue s md (place s md (evexAddr n.bits x s) m) (n.bits / 8)) j
          else if x.z = true then lane e (t.readZmm x.dst) j = 0#e.bits
          else lane e (t.readZmm x.dst) j = lane e (s.readZmm x.dst) j)
      ∧ ZeroFrom n.bits (t.readZmm x.dst)
      ∧ t.rip = nextRip md s.rip x.len
      ∧ KeptZmmBut x.dst s t ∧ KeptX87 s t ∧ Kept s t

/-- R89: the numbers of the registers that the rows above name, from the fields of the encoding. -/
def Obligations.RegisterNumbers : Prop :=
  (∀ (l : LegInstr) (n : BitVec 3),
    l.xmmDst.toNat = (if ∃ r, l.rex = some r ∧ r.r = true then 8 else 0) + l.reg.toNat
    ∧ (l.xmmRm n).toNat = (if ∃ r, l.rex = some r ∧ r.b = true then 8 else 0) + n.toNat)
  ∧ (∀ (v : VexInstr) (n : BitVec 3) (r : Bool) (f : BitVec 4), v.vex = .two r f →
      v.dst.toNat = (if r then 8 else 0) + v.reg.toNat ∧ v.src1.toNat = f.toNat
        ∧ (v.rmReg n).toNat = n.toNat)
  ∧ (∀ (v : VexInstr) (n : BitVec 3) (r x b w : Bool) (f : BitVec 4), v.vex = .three r x b w f →
      v.dst.toNat = (if r then 8 else 0) + v.reg.toNat ∧ v.src1.toNat = f.toNat
        ∧ (v.rmReg n).toNat = (if b then 8 else 0) + n.toNat)
  ∧ ∀ (x : EvexInstr) (n : BitVec 3),
      x.dst.toNat = (if x.r' then 16 else 0) + (if x.r then 8 else 0) + x.reg.toNat
      ∧ x.src1.toNat = (if x.v' then 16 else 0) + x.vvvv.toNat
      ∧ (x.rmReg n).toNat = (if x.x then 16 else 0) + (if x.b then 8 else 0) + n.toNat

/-! ### Frames, from any next state -/

/-- R130, R132, R23, R128: a next state of an MMX row changes one x87 register, TOP, the tag word and RIP. -/
def Obligations.MmxRowsFrame : Prop :=
  ∀ (e : Elem) (l : LegInstr) (s t : State), exec (rowMmx e l) s = .next t →
    (∀ r, r ≠ l.reg → t.readFpr r = s.readFpr r)
    ∧ (∀ j, ¬ (11 ≤ j ∧ j ≤ 13) → t.x87Status.getLsbD j = s.x87Status.getLsbD j)
    ∧ t.zmm = s.zmm ∧ Kept s t

/-- R131, R133 to R143, R128: a next state of a vector row changes one vector register and RIP. -/
def Obligations.VectorRowsFrame : Prop :=
  ∀ (e : Elem) (s t : State),
    (∀ l : LegInstr, exec (rowSse e l) s = .next t → KeptZmmBut l.xmmDst s t ∧ KeptX87 s t ∧ Kept s t)
    ∧ (∀ n v, exec (rowVex e n v) s = .next t → KeptZmmBut v.dst s t ∧ KeptX87 s t ∧ Kept s t)
    ∧ ∀ n x, exec (rowEvex e n x) s = .next t → KeptZmmBut x.dst s t ∧ KeptX87 s t ∧ Kept s t

/-- R127: the destination bits above the vector length, per class. -/
def Obligations.BitsAboveTheVectorLength : Prop :=
  ∀ (e : Elem) (s t : State),
    (∀ l : LegInstr, exec (rowMmx e l) s = .next t →
      t.zmm = s.zmm ∧ ∃ md, s.mode = some md ∧ t.readMm l.reg = mmxResult e l md s)
    ∧ (∀ l : LegInstr, exec (rowSse e l) s = .next t →
        ∀ j, 128 ≤ j → (t.readZmm l.xmmDst).getLsbD j = (s.readZmm l.xmmDst).getLsbD j)
    ∧ (∀ v, exec (rowVex e .l128 v) s = .next t → ZeroFrom 128 (t.readZmm v.dst))
    ∧ (∀ v, exec (rowVex e .l256 v) s = .next t → ZeroFrom 256 (t.readZmm v.dst))
    ∧ ∀ n x, exec (rowEvex e n x) s = .next t → ZeroFrom n.bits (t.readZmm x.dst)

/-- R27: RIP passes the instruction, in 64 bits in `Mode64` and modulo 2^32 otherwise. The rule says the latter of
`Compat32`; that real-address and virtual-8086 mode do the same is the model's (log 2). -/
def Obligations.RipPassesTheInstruction : Prop :=
  ∀ (i : Instr) (s t : State), exec i s = .next t →
    (s.mode = some .mode64 → t.rip = s.rip + BitVec.ofNat 64 i.len)
    ∧ (s.mode ≠ some .mode64 → t.rip.toNat = (s.rip.toNat + i.len) % 2 ^ 32)

/-! ### Independence -/

/-- R129, R92: of the opmask file only the bits of K[aaa] below KL are read, and none with `aaa = 000b`. -/
def Obligations.OnlyMaskBitsBelowKlAreRead : Prop :=
  ∀ (e : Elem) (n : EvexLen) (x : EvexInstr) (s t : State) (k : Vector Quad 8),
    (x.aaa ≠ 0#3 → ∀ j < n.bits / e.bits,
      (State.readK { s with kreg := k } x.aaa).getLsbD j = (s.readK x.aaa).getLsbD j) →
    exec (rowEvex e n x) s = .next t →
    exec (rowEvex e n x) { s with kreg := k } = .next { t with kreg := k }

/-- R126: a masked-off element takes nothing from either source. -/
def Obligations.MaskedOffLanesIgnoreTheSources : Prop :=
  ∀ (e : Elem) (vl : Nat) (k : Quad) (z : Bool) (old a b a' b' : VecReg),
    (∀ j < vl / e.bits, k.getLsbD j = true → lane e a j = lane e a' j ∧ lane e b j = lane e b' j) →
    maskedPadds e vl k z old a b = maskedPadds e vl k z old a' b'

/-- R125: the old value of the destination is no input of a VEX row. -/
def Obligations.VexRowsIgnoreTheOldDestination : Prop :=
  ∀ (e : Elem) (n : VexLen) (v : VexInstr) (s : State) (y : VecReg),
    v.src1 ≠ v.dst → (∀ r, v.rm = .reg r → v.rmReg r ≠ v.dst) →
    exec (rowVex e n v) (s.writeZmm v.dst y) = exec (rowVex e n v) s

/-- 95_test_vectors.md P6, R144: the three encodings of one addition agree in the low 128 bits, and differ
above. -/
def Obligations.ThreeEncodingsAgree : Prop :=
  ∀ (e : Elem) (l : LegInstr) (v : VexInstr) (x : EvexInstr) (a b c : BitVec 3) (s t u w : State),
    l.rm = .reg a → v.rm = .reg b → x.rm = .reg c →
    v.dst = l.xmmDst → v.src1 = l.xmmDst → v.rmReg b = l.xmmRm a →
    x.dst = l.xmmDst → x.src1 = l.xmmDst → x.rmReg c = l.xmmRm a → x.aaa = 0#3 →
    exec (rowSse e l) s = .next t → exec (rowVex e .l128 v) s = .next u →
    exec (rowEvex e .l128 x) s = .next w →
    (∀ j < 128, (t.readZmm l.xmmDst).getLsbD j = (u.readZmm l.xmmDst).getLsbD j)
    ∧ u.readZmm l.xmmDst = w.readZmm l.xmmDst ∧ ZeroFrom 128 (u.readZmm l.xmmDst)
    ∧ ∀ j, 128 ≤ j → (t.readZmm l.xmmDst).getLsbD j = (s.readZmm l.xmmDst).getLsbD j

/-- R88, R90, R91: REX.W, VEX.W and EVEX.W are ignored; REX.R and REX.B do not extend an `mm` number. -/
def Obligations.IgnoredPrefixBits : Prop :=
  ∀ (e : Elem) (s : State),
    (∀ (l : LegInstr) (r : Rex) (w : Bool),
      exec (rowSse e { l with rex := some r }) s = exec (rowSse e { l with rex := some { r with w := w } }) s)
    ∧ (∀ (l : LegInstr) (r : Rex) (n : BitVec 3) (w rr b : Bool),
      exec (rowMmx e { l with rex := some r, rm := .reg n }) s =
        exec (rowMmx e { l with rex := some { r with w := w, r := rr, b := b }, rm := .reg n }) s)
    ∧ (∀ (n : VexLen) (v : VexInstr) (r x b w w' : Bool) (f : BitVec 4),
      exec (rowVex e n { v with vex := .three r x b w f }) s =
        exec (rowVex e n { v with vex := .three r x b w' f }) s)
    ∧ ∀ (n : EvexLen) (x : EvexInstr) (w : Bool),
      exec (rowEvex e n x) s = exec (rowEvex e n { x with w := w }) s

/-! ### Exceptions (60_exceptions.md) -/

/-- R162 to R164: an MMX or legacy SSE row raises #UD exactly when it is not enabled. -/
def Obligations.LegacyRowsRaiseUdExactlyWhenNotEnabled : Prop :=
  ∀ (e : Elem) (l : LegInstr) (s : State) (md : Mode), s.mode = some md →
    (exec (rowMmx e l) s = .fault (.exception .ud 6 none none) ↔ ¬ MmxEnabled s l)
    ∧ (exec (rowSse e l) s = .fault (.exception .ud 6 none none) ↔ ¬ SseEnabled s l)

/-- R162, R163, R165: a VEX or EVEX row raises #UD exactly when it is not enabled. -/
def Obligations.VectorRowsRaiseUdExactlyWhenNotEnabled : Prop :=
  ∀ (e : Elem) (s : State) (md : Mode), s.mode = some md →
    (∀ n v, exec (rowVex e n v) s = .fault (.exception .ud 6 none none) ↔ ¬ VexEnabled n s md v)
    ∧ ∀ n x, exec (rowEvex e n x) s = .fault (.exception .ud 6 none none) ↔ ¬ EvexEnabled n s md x

/-- R163 to R165, R169: an enabled row with CR0.TS = 1 raises #NM, whatever else holds. -/
def Obligations.TaskSwitchedRaisesNm : Prop :=
  ∀ (e : Elem) (s : State) (md : Mode), s.mode = some md → s.ts = true →
    (∀ l, MmxEnabled s l → exec (rowMmx e l) s = .fault (.exception .nm 7 none none))
    ∧ (∀ l, SseEnabled s l → exec (rowSse e l) s = .fault (.exception .nm 7 none none))
    ∧ (∀ n v, VexEnabled n s md v → exec (rowVex e n v) s = .fault (.exception .nm 7 none none))
    ∧ ∀ n x, EvexEnabled n s md x → exec (rowEvex e n x) s = .fault (.exception .nm 7 none none)

/-- R164, R169, 93 U19: a pending x87 exception stops an MMX row before its operand is looked at. -/
def Obligations.PendingX87StopsMmxRows : Prop :=
  ∀ (e : Elem) (l : LegInstr) (s : State) (md : Mode),
    s.mode = some md → MmxEnabled s l → s.ts = false → s.x87Es = true →
    exec (rowMmx e l) s =
      if s.ne = true then .fault (.exception .mf 16 none none) else .refused .externalX87Report

/-- R55, R163, R169 item 6: a legacy SSE operand off a 16-byte boundary raises #GP(0), in every mode and at every
privilege level, before any #PF or other page verdict of `translate`; both its linear and its effective address
are misaligned (log 12). That `translate` gives no segment verdict for its bytes is the order of log 18.
The 32 bits of an error code are the model's (log 26). -/
def Obligations.MisalignedSseOperandRaisesGp : Prop :=
  ∀ (e : Elem) (l : LegInstr) (m : MemForm) (s : State) (md : Mode),
    s.mode = some md → SseEnabled s l → s.ts = false → l.rm = .mem m →
    (∀ i < 16, ByteFormed s md (place s md (legAddr l s) m) i) →
    (place s md (legAddr l s) m).la.toNat % 16 ≠ 0 → (place s md (legAddr l s) m).ea.toNat % 16 ≠ 0 →
    exec (rowSse e l) s = .fault (.exception .gp 13 (some 0#32) none)

/-- R54, R163 to R165, R169 item 5: a non-canonical byte of the operand (of an enabled element, or of any element without
fault suppression) raises #SS(0) in the SS segment and #GP(0) in another, before any alignment or page condition;
`translate` gives no #GP(0) or #SS(0) for a byte below it (log 18).
The 32 bits of an error code are the model's (log 26). -/
def Obligations.NonCanonicalOperandFaults : Prop :=
  ∀ (e : Elem) (s : State) (m : MemForm) (j : Nat), s.mode = some .mode64 → s.ts = false →
    (∀ l : LegInstr, l.rm = .mem m → j < 16 →
      canonical s.linearWidth (byteAddr .mode64 (place s .mode64 (legAddr l s) m) j) = false →
      NoSegmentVerdict s .mode64 (place s .mode64 (legAddr l s) m) j →
      (SseEnabled s l →
        exec (rowSse e l) s =
          if (place s .mode64 (legAddr l s) m).seg = .ss then .fault (.exception .ss 12 (some 0#32) none)
          else .fault (.exception .gp 13 (some 0#32) none))
      ∧ (MmxEnabled s l → s.x87Es = false → j < 8 →
        exec (rowMmx e l) s =
          if (place s .mode64 (legAddr l s) m).seg = .ss then .fault (.exception .ss 12 (some 0#32) none)
          else .fault (.exception .gp 13 (some 0#32) none)))
    ∧ (∀ n v, v.rm = .mem m → VexEnabled n s .mode64 v → j < n.bits / 8 →
      canonical s.linearWidth (byteAddr .mode64 (place s .mode64 (vexAddr v s) m) j) = false →
      NoSegmentVerdict s .mode64 (place s .mode64 (vexAddr v s) m) j →
      exec (rowVex e n v) s =
        if (place s .mode64 (vexAddr v s) m).seg = .ss then .fault (.exception .ss 12 (some 0#32) none)
        else .fault (.exception .gp 13 (some 0#32) none))
    ∧ ∀ n x, x.rm = .mem m → EvexEnabled n s .mode64 x → j < n.bits / 8 →
      (x.aaa = 0#3 ∨ (s.readK x.aaa).getLsbD (j / e.size) = true ∨ s.suppression = .no) →
      canonical s.linearWidth (byteAddr .mode64 (place s .mode64 (evexAddr n.bits x s) m) j) = false →
      NoSegmentVerdict s .mode64 (place s .mode64 (evexAddr n.bits x s) m) j →
      exec (rowEvex e n x) s =
        if (place s .mode64 (evexAddr n.bits x s) m).seg = .ss then
          .fault (.exception .ss 12 (some 0#32) none)
        else .fault (.exception .gp 13 (some 0#32) none)

/-- R163, R164 in real-address and virtual-8086 mode (log 2): a byte of an MMX or legacy SSE operand past offset
FFFFH raises #GP(0), before any alignment or page condition; `translate` gives no #SS(0) for a byte that lies
within the offset (log 18).
The 32 bits of an error code are the model's (log 26). -/
def Obligations.OffsetPastFfffRaisesGp : Prop :=
  ∀ (e : Elem) (l : LegInstr) (m : MemForm) (s : State) (md : Mode), md = .real ∨ md = .v86 →
    s.mode = some md → s.ts = false → l.rm = .mem m →
    (∀ i < 16, (place s md (legAddr l s) m).ea.toNat + i < 2 ^ 16 →
      s.translate .read (place s md (legAddr l s) m).seg (byteAddr md (place s md (legAddr l s) m) i) ≠ .ss) →
    (SseEnabled s l → 2 ^ 16 ≤ (place s md (legAddr l s) m).ea.toNat + 15 →
      exec (rowSse e l) s = .fault (.exception .gp 13 (some 0#32) none))
    ∧ (MmxEnabled s l → s.x87Es = false → 2 ^ 16 ≤ (place s md (legAddr l s) m).ea.toNat + 7 →
      exec (rowMmx e l) s = .fault (.exception .gp 13 (some 0#32) none))

/-- 93 U9 (log 12): where exactly one of the linear and the effective address of a legacy SSE operand is a
multiple of 16, the row either raises #GP(0) or completes as if aligned; nothing is claimed about which.
The 32 bits of an error code are the model's (log 26). -/
def Obligations.HalfAlignedSseOperand : Prop :=
  ∀ (e : Elem) (l : LegInstr) (m : MemForm) (s : State) (md : Mode),
    s.mode = some md → SseEnabled s l → s.ts = false → l.rm = .mem m →
    (∀ i < 16, ByteReadable s md (place s md (legAddr l s) m) i) →
    ((place s md (legAddr l s) m).la.toNat % 16 = 0 ↔ (place s md (legAddr l s) m).ea.toNat % 16 ≠ 0) →
    s.alignmentChecked = false →
    exec (rowSse e l) s = .fault (.exception .gp 13 (some 0#32) none)
    ∨ ∃ t, exec (rowSse e l) s = .next t
        ∧ (∀ i < 128 / e.bits,
            LaneIsSum e (t.readZmm l.xmmDst) (s.readZmm l.xmmDst)
              (operandValue s md (place s md (legAddr l s) m) 16) i)
        ∧ Kept s t

/-- R165, R166 (D19, D21): where a parameter is `either`, the row does what it does under one of the two
values; which one is free (logs 10, 11). -/
def Obligations.EitherIsOneOfTheTwo : Prop :=
  ∀ (e : Elem) (n : EvexLen) (x : EvexInstr) (s : State),
    (∃ c ∈ [Choice.yes, Choice.no],
      match exec (rowEvex e n x) { s with suppression := c } with
      | .next t => s.suppression = .either → exec (rowEvex e n x) s = .next { t with suppression := .either }
      | .fault f => s.suppression = .either → exec (rowEvex e n x) s = .fault f
      | .refused r => s.suppression = .either → exec (rowEvex e n x) s = .refused r)
    ∧ ∃ c ∈ [Choice.yes, Choice.no], ∀ i : Instr,
      match exec i { s with alignmentCheck := c } with
      | .next t => s.alignmentCheck = .either → exec i s = .next { t with alignmentCheck := .either }
      | .fault f => s.alignmentCheck = .either → exec i s = .fault f
      | .refused r => s.alignmentCheck = .either → exec i s = .refused r

/-- R58, R59, R167, R169 item 7, D24, for every row: of the bytes that the row accesses, the lowest-numbered for
which `translate` gives no location decides. With #PF it is reported with the code of R58 and its linear address;
a rejection without a named fault ends the row in the refusal translateRejects (93 U22; its place in the order is
log 18). Of an EVEX row the bytes of enabled elements count, or all without fault suppression (R165); where the
parameter is `either` the byte is an enabled one. R169 says the lowest-addressed byte: that is the lowest-numbered
one but in an operand across the top of the address space (log 14).
The 32 bits of an error code are the model's (log 26), and so is that those of #PF from 5 up are 0. -/
def Obligations.LowestPageFaultIsReported : Prop :=
  ∀ (e : Elem) (m : MemForm) (s : State) (md : Mode) (j : Nat) (verdict : TranslateVerdict)
    (report : Place → Host.Outcome State Fault Refusal),
    s.mode = some md → s.ts = false →
    ((∃ pb rsvd, verdict = .pf pb rsvd ∧ report = fun p => .fault (.exception .pf 14
        (some (BitVec.ofNat 32
          ((if pb then 1 else 0) + (if s.cpl = 3#2 then 4 else 0) + (if rsvd then 8 else 0))))
        (some (byteAddr md p j))))
      ∨ (verdict = .reject ∧ report = fun _ => .refused .translateRejects)) →
    (∀ l : LegInstr, l.rm = .mem m →
      (MmxEnabled s l → s.x87Es = false →
        FirstPageVerdict s md (place s md (legAddr l s) m) (· < 8) j verdict →
        exec (rowMmx e l) s = report (place s md (legAddr l s) m))
      ∧ (SseEnabled s l → Aligned s .sse (place s md (legAddr l s) m) →
        FirstPageVerdict s md (place s md (legAddr l s) m) (· < 16) j verdict →
        exec (rowSse e l) s = report (place s md (legAddr l s) m)))
    ∧ (∀ n v, v.rm = .mem m → VexEnabled n s md v →
        FirstPageVerdict s md (place s md (vexAddr v s) m) (· < n.bits / 8) j verdict →
        exec (rowVex e n v) s = report (place s md (vexAddr v s) m))
    ∧ ∀ n x, x.rm = .mem m → EvexEnabled n s md x →
        FirstPageVerdict s md (place s md (evexAddr n.bits x s) m) (EvexChecked e n x s) j verdict →
        (s.suppression = .either → ByteEnabled e x s j) →
        exec (rowEvex e n x) s = report (place s md (evexAddr n.bits x s) m)

/-- R54, R58, R169 item 5, for every row: where the lowest-numbered byte that item 5 forbids is one that
`translate` rejects with #GP(0) or #SS(0) (in `Compat32` the segment checks of limit, type and presence), the
row raises that exception, before any alignment or page condition. Where such verdicts stand in the order is
the model's inference (log 18).
The 32 bits of an error code are the model's (log 26). -/
def Obligations.SegmentVerdictsOfTranslateAreRaised : Prop :=
  ∀ (e : Elem) (m : MemForm) (s : State) (md : Mode) (j : Nat) (verdict : TranslateVerdict)
    (x : Exception) (vector : Nat), s.mode = some md → s.ts = false →
    (verdict = .gp ∧ x = .gp ∧ vector = 13) ∨ (verdict = .ss ∧ x = .ss ∧ vector = 12) →
    let report : Host.Outcome State Fault Refusal := .fault (.exception x vector (some 0#32) none)
    (∀ l : LegInstr, l.rm = .mem m →
      (MmxEnabled s l → s.x87Es = false →
        FirstSegmentFault s md (place s md (legAddr l s) m) (· < 8) j verdict →
        exec (rowMmx e l) s = report)
      ∧ (SseEnabled s l → FirstSegmentFault s md (place s md (legAddr l s) m) (· < 16) j verdict →
        exec (rowSse e l) s = report))
    ∧ (∀ n v, v.rm = .mem m → VexEnabled n s md v →
        FirstSegmentFault s md (place s md (vexAddr v s) m) (· < n.bits / 8) j verdict →
        exec (rowVex e n v) s = report)
    ∧ ∀ n i, i.rm = .mem m → EvexEnabled n s md i →
        FirstSegmentFault s md (place s md (evexAddr n.bits i s) m) (EvexChecked e n i s) j verdict →
        (s.suppression = .either → ByteEnabled e i s j) →
        exec (rowEvex e n i) s = report

/-- R166: with alignment checking in force (CR0.AM = 1, RFLAGS.AC = 1, CPL = 3) an MMX operand off an 8-byte
boundary raises #AC(0), and so does any other row's where `alignment_check` is `yes` (D21, log 11): a legacy SSE
row's #GP(0) comes first unless its effective address is aligned (log 12). In real-address and virtual-8086 mode
(log 2) CPL is the low bits of CS.selector, as in the others (log 7).
The 32 bits of an error code are the model's (log 26). -/
def Obligations.AlignmentCheckRaisesAc : Prop :=
  ∀ (e : Elem) (m : MemForm) (s : State) (md : Mode),
    s.mode = some md → s.ts = false → s.am = true → s.ac = true → s.cpl = 3#2 →
    let report : Host.Outcome State Fault Refusal := .fault (.exception .ac 17 (some 0#32) none)
    (∀ l : LegInstr, l.rm = .mem m → (place s md (legAddr l s) m).la.toNat % 8 ≠ 0 →
      (MmxEnabled s l → s.x87Es = false → (∀ i < 8, ByteReadable s md (place s md (legAddr l s) m) i) →
        exec (rowMmx e l) s = report)
      ∧ (SseEnabled s l → s.alignmentCheck = .yes →
          (∀ i < 16, ByteReadable s md (place s md (legAddr l s) m) i) →
          (exec (rowSse e l) s = .fault (.exception .gp 13 (some 0#32) none))
          ∨ (exec (rowSse e l) s = report ∧ (place s md (legAddr l s) m).ea.toNat % 16 = 0)))
    ∧ (∀ n v, v.rm = .mem m → VexEnabled n s md v → s.alignmentCheck = .yes →
        (place s md (vexAddr v s) m).la.toNat % 8 ≠ 0 →
        (∀ i < n.bits / 8, ByteReadable s md (place s md (vexAddr v s) m) i) →
        exec (rowVex e n v) s = report)
    ∧ ∀ n x, x.rm = .mem m → EvexEnabled n s md x → s.alignmentCheck = .yes →
        (place s md (evexAddr n.bits x s) m).la.toNat % 8 ≠ 0 →
        (∀ i, EvexChecked e n x s i → ByteReadable s md (place s md (evexAddr n.bits x s) m) i) →
        exec (rowEvex e n x) s = report

/-- R168: every fault of a meaning has the vector, the error code and the recorded value of its row; the only
refusals are those of D2, U19 and U22. In real-address and virtual-8086 mode (log 2) the U/S bit follows the CPL
of log 7.
The 32 bits of an error code are the model's (log 26), and so is that those of #PF from 5 up are 0. -/
def Obligations.MeaningsStopOnlyAsListed : Prop :=
  ∀ (i : Instr) (s : State),
    (∀ f, exec i s = .fault f →
      f = .exception .ud 6 none none ∨ f = .exception .nm 7 none none
      ∨ f = .exception .ss 12 (some 0#32) none ∨ f = .exception .gp 13 (some 0#32) none
      ∨ f = .exception .mf 16 none none ∨ f = .exception .ac 17 (some 0#32) none
      ∨ ∃ code la, f = .exception .pf 14 (some code) (some la) ∧ code.getLsbD 1 = false
          ∧ code.getLsbD 4 = false ∧ (code.getLsbD 2 = true ↔ s.cpl = 3#2) ∧ code.toNat < 32)
    ∧ ∀ r, exec i s = .refused r →
        (r = .modeNotCovered ∧ s.mode = none) ∨ (r = .externalX87Report ∧ s.ne = false ∧ s.x87Es = true)
        ∨ (r = .translateRejects ∧ s.translation ≠ [])

/-! ### Encoding (30_encoding.md) -/

/-- R80 to R96: decoding an encoded well-formed instruction gives it back, with every operand at every value,
in every mode, whatever follows. -/
def Obligations.DecodeUndoesEncode : Prop :=
  ∀ (md : Mode) (i : Instr) (rest : List Byte), i.wf md = true →
    decode md (encode i ++ rest) = .ok (.row i) rest

/-- R80 to R97: an instruction is decoded only from its own encoding, and is well formed. -/
def Obligations.EncodeUndoesDecode : Prop :=
  ∀ (md : Mode) (bs rest : List Byte) (i : Instr), decode md bs = .ok (.row i) rest →
    encode i ++ rest = bs ∧ (i.len ≤ maxLen → i.wf md = true)

/-- R95: an admitted encoding that is not decoded-invalid by its prefixes has 3 to 13 bytes. -/
def Obligations.AdmittedLengths : Prop :=
  ∀ (md : Mode) (bs rest : List Byte) (i : Instr), decode md bs = .ok (.row i) rest →
    bs.length = i.len + rest.length ∧ 3 ≤ i.len
    ∧ (match i with
        | .paddsbMm l => .lock ∉ l.pfx → i.len ≤ 11
        | .paddswMm l => .lock ∉ l.pfx → i.len ≤ 11
        | .paddsbXmm l => .lock ∉ l.pfx → i.len ≤ 12
        | .paddswXmm l => .lock ∉ l.pfx → i.len ≤ 12
        | .vpaddsbVex128 v => NoClash v.pfx v.rex → i.len ≤ 12
        | .vpaddswVex128 v => NoClash v.pfx v.rex → i.len ≤ 12
        | .vpaddsbVex256 v => NoClash v.pfx v.rex → i.len ≤ 12
        | .vpaddswVex256 v => NoClash v.pfx v.rex → i.len ≤ 12
        | .vpaddsbEvex128 x => NoClash x.pfx x.rex → i.len ≤ 13
        | .vpaddsbEvex256 x => NoClash x.pfx x.rex → i.len ≤ 13
        | .vpaddsbEvex512 x => NoClash x.pfx x.rex → i.len ≤ 13
        | .vpaddswEvex128 x => NoClash x.pfx x.rex → i.len ≤ 13
        | .vpaddswEvex256 x => NoClash x.pfx x.rex → i.len ≤ 13
        | .vpaddswEvex512 x => NoClash x.pfx x.rex → i.len ≤ 13)

/-- R97: the decoder's answer does not depend on bytes after those it asked for. -/
def Obligations.DecodingLooksNoFurther : Prop :=
  ∀ (md : Mode) (bs more : List Byte),
    (∀ v rest, decode md bs = .ok v rest → decode md (bs ++ more) = .ok v (rest ++ more))
    ∧ ∀ r, decode md bs = .refused r → decode md (bs ++ more) = .refused r

/-- R82, R83, R90, R91: words of 95_test_vectors.md, one of each format. -/
def Obligations.SampleWordsDecode : Prop :=
  decode .mode64 [0x0F#8, 0xEC#8, 0xC1#8] = .ok (.row (.paddsbMm ⟨[], none, 0#3, .reg 1#3⟩)) []
  ∧ decode .mode64 [0x66#8, 0x45#8, 0x0F#8, 0xEC#8, 0xC1#8] =
      .ok (.row (.paddsbXmm ⟨[.opSize], some ⟨false, true, false, true⟩, 0#3, .reg 1#3⟩)) []
  ∧ decode .mode64 [0xC5#8, 0xF5#8, 0xED#8, 0xC2#8] =
      .ok (.row (.vpaddswVex256 ⟨[], none, .two false 1#4, 0#3, .reg 2#3⟩)) []
  ∧ decode .mode64 [0x62#8, 0xF1#8, 0x75#8, 0x0A#8, 0xEC#8, 0x50#8, 0x01#8] =
      .ok (.row (.vpaddsbEvex128
        ⟨[], none, false, false, false, false, 0#2, false, 1#4, true, false, false, false, 2#3, 2#3,
          .mem (.base 0#3 (.d8 1#8))⟩)) []

/-- R97 item 3: byte sequences of 95_test_vectors.md 2.9 that the decoder refuses, each by its name. -/
def Obligations.RefusedWords : Prop :=
  decode .mode64 [0x90#8] = .refused .notInFamily
  ∧ decode .mode64 [0x0F#8, 0x77#8] = .refused .notInFamily
  ∧ decode .mode64 [0xF3#8, 0x0F#8, 0xEC#8, 0xC1#8] = .refused .repLegacy
  ∧ decode .mode64 [0x66#8, 0x66#8, 0x0F#8, 0xEC#8, 0xC1#8] = .refused .repeatedPrefix
  ∧ decode .mode64 [0x2E#8, 0x3E#8, 0x66#8, 0x0F#8, 0xEC#8, 0x00#8] = .refused .twoSegmentOverrides
  ∧ decode .mode64 [0x48#8, 0x66#8, 0x0F#8, 0xEC#8, 0xC1#8] = .refused .rexNotLast
  ∧ decode .mode64 [0xC5#8, 0xF0#8, 0xEC#8, 0xC2#8] = .refused .otherPp
  ∧ decode .mode64 [0xC4#8, 0xE2#8, 0x71#8, 0xEC#8, 0xC2#8] = .refused .otherMap
  ∧ decode .mode64 [0x62#8, 0xF2#8, 0x75#8, 0x08#8, 0xEC#8, 0xC2#8] = .refused .otherMap
  ∧ decode .compat32 [0x41#8, 0x0F#8, 0xEC#8, 0xC1#8] = .refused .rexOutsideMode64
  ∧ decode .compat32 [0xC4#8, 0xC1#8, 0x71#8, 0xEC#8, 0xC2#8] = .refused .highRegister

/-! ### Steps -/

/-- R27, R97: when the bytes at RIP decode to an instruction, the step is that instruction's meaning. -/
def Obligations.StepRunsTheDecodedInstruction : Prop :=
  ∀ (s : State) (md : Mode) (i : Instr) (rest : List Byte),
    s.mode = some md → s.endAddress ≠ some s.rip →
    decode md (fetchFrom s md maxLen 0).1 = .ok (.row i) rest → step s = exec i s

/-- R80, R95, D16: code placed at RIP runs: when the bytes that can be fetched from RIP begin with the
encoding of a well-formed instruction, the step is its meaning, whatever stands after them, readable or not: that
only the instruction's own bytes are checked is inferred from R167 (log 19). -/
def Obligations.PlacedCodeRuns : Prop :=
  ∀ (s : State) (md : Mode) (i : Instr), s.mode = some md → s.endAddress ≠ some s.rip → i.wf md = true →
    (∀ k (h : k < (encode i).length), fetchByte s md k = .ok (encode i)[k]) → step s = exec i s

/-- R167, R169 item 1: a byte that the instruction needs and that cannot be fetched ends the step so. -/
def Obligations.FetchFaultComesFirst : Prop :=
  ∀ (s : State) (md : Mode) (bs : List Byte) (st : Stop), s.mode = some md → s.endAddress ≠ some s.rip →
    bs.length < maxLen → (∀ k (h : k < bs.length), fetchByte s md k = .ok bs[k]) →
    fetchByte s md bs.length = .error st → decode md bs = .short → step s = st.out

/-- R27, R167, D16, D20: what the fetch answers for one byte: a wrapping or a non-canonical address is refused;
otherwise each verdict of `translate` has its answer, the byte at the location, #PF with I/D = 1, #GP(0), #SS(0) or,
without a named fault, a refusal (log 19). That the CS base is added outside `Mode64` is log 16; real-address and
virtual-8086 mode are log 2.
The 32 bits of an error code are the model's (log 26), and so is that those of #PF from 5 up are 0. -/
def Obligations.FetchOfOneByte : Prop :=
  (∀ (s : State) (k : Nat),
    (2 ^ 64 ≤ s.rip.toNat + k → fetchByte s .mode64 k = .error (.refuse .fetchWraps))
    ∧ (s.rip.toNat + k < 2 ^ 64 → canonical s.linearWidth (s.rip + BitVec.ofNat 64 k) = false →
        fetchByte s .mode64 k = .error (.refuse .fetchNonCanonical))
    ∧ (s.rip.toNat + k < 2 ^ 64 → canonical s.linearWidth (s.rip + BitVec.ofNat 64 k) = true →
        (s.translation = [] →
          fetchByte s .mode64 k = .ok (Memory.read s.mem (s.rip.toNat + k)))
        ∧ FetchAnswers s (s.rip + BitVec.ofNat 64 k) (fetchByte s .mode64 k)))
  ∧ ∀ (s : State) (md : Mode) (k : Nat), md ≠ .mode64 →
    let first := (s.cs.base.toNat + s.rip.toNat) % 2 ^ 32
    (md = .compat32 → 2 ^ 32 ≤ s.rip.toNat % 2 ^ 32 + k → fetchByte s md k = .error (.refuse .fetchWraps))
    ∧ (md = .real ∨ md = .v86 → 2 ^ 16 ≤ s.rip.toNat % 2 ^ 32 + k →
        fetchByte s md k = .error (.fault (.exception .gp 13 (some 0#32) none)))
    ∧ (s.rip.toNat % 2 ^ 32 + k < (if md = .compat32 then 2 ^ 32 else 2 ^ 16) →
        (2 ^ 32 ≤ first + k → fetchByte s md k = .error (.refuse .fetchWraps))
        ∧ (first + k < 2 ^ 32 →
          (s.translation = [] → fetchByte s md k = .ok (Memory.read s.mem (first + k)))
          ∧ FetchAnswers s (BitVec.ofNat 64 (first + k)) (fetchByte s md k)))

/-- R196: at the end address no step is made. -/
def Obligations.RunIsOverAtTheEndAddress : Prop :=
  ∀ s : State, s.endAddress = some s.rip → step s = .refused .runOver

/-- R97 item 2, R81, R91: an EVEX encoding of the family with L'L = 11b raises #UD, in every covered mode (log 2) and
behind every admitted arrangement of legacy prefixes and REX; and only such bytes decode to that verdict. -/
def Obligations.ReservedLengthRaisesUd : Prop :=
  (∀ (s : State) (md : Mode) (rest : List Byte), s.mode = some md → s.endAddress ≠ some s.rip →
    decode md (fetchFrom s md maxLen 0).1 = .ok .reservedLength rest →
    step s = .fault (.exception .ud 6 none none))
  ∧ (∀ (p0 p1 p2 op : Byte) (r : BitVec 3 × Rm) (tail rest : List Byte),
      p0.extractLsb' 0 2 = 1#2 → p1.extractLsb' 0 2 = 1#2 → p2.extractLsb' 5 2 = 3#2 →
      (op = 0xEC#8 ∨ op = 0xED#8) → takeModRm false tail = .ok r rest →
      decode .mode64 (0x62#8 :: p0 :: p1 :: p2 :: op :: tail) = .ok .reservedLength rest)
  ∧ (∀ (md : Mode) (x : EvexInstr) (word : Bool) (rest : List Byte), x.wf md = true →
      decode md (x.bytes 3#2 word ++ rest) = .ok .reservedLength rest)
  ∧ (∀ (md : Mode) (bs rest : List Byte), decode md bs = .ok .reservedLength rest →
      ∃ (x : EvexInstr) (word : Bool), x.wf md = true ∧ bs = x.bytes 3#2 word ++ rest)
  ∧ ∀ (s : State) (md : Mode) (x : EvexInstr) (word : Bool),
      s.mode = some md → s.endAddress ≠ some s.rip → x.wf md = true → x.len ≤ maxLen →
      (∀ k (h : k < (x.bytes 3#2 word).length), fetchByte s md k = .ok (x.bytes 3#2 word)[k]) →
      step s = .fault (.exception .ud 6 none none)

/-- R95, R97 (log 17): bytes that the decoder refuses end the step by that name; an instruction of more than
15 bytes raises #GP(0).
The 32 bits of an error code are the model's (log 26). -/
def Obligations.UndecodableBytesStopTheStep : Prop :=
  ∀ (s : State) (md : Mode), s.mode = some md → s.endAddress ≠ some s.rip →
    (∀ r, decode md (fetchFrom s md maxLen 0).1 = .refused r → step s = .refused (.decode r))
    ∧ ((∀ k < 15, ∃ b, fetchByte s md k = .ok b) → decode md (fetchFrom s md maxLen 0).1 = .short →
        step s = .fault (.exception .gp 13 (some 0#32) none))

/-- R57, R25, D14: a run of any length writes no memory, no flag and no control state. -/
def Obligations.RunsKeepMemoryAndControlState : Prop :=
  ∀ (k : Nat) (s t : State), Steps k s t → Kept s t ∧ t.mem = s.mem ∧ t.mode = s.mode

/-- R196: in `Mode64` a run of `k` steps is a straight line: RIP has gone up by 3 to 15 bytes a step. -/
def Obligations.RunsAreStraightLines : Prop :=
  ∀ (k : Nat) (s t : State), s.mode = some .mode64 → Steps k s t →
    ∃ d, 3 * k ≤ d ∧ d ≤ 15 * k ∧ t.rip = s.rip + BitVec.ofNat 64 d

/-- R190: a step keeps the launch premises, while RIP stays clear of the top of the address space. -/
def Obligations.LaunchPremisesPersist : Prop :=
  ∀ s t : State, LaunchPremises s →
    s.rip.toNat + maxLen < 2 ^ 32 ∨ (s.mode = some .mode64 ∧ s.rip.toNat + maxLen < 2 ^ 64) →
    step s = .next t → LaunchPremises t

/-- The invariant `Inv` (logs 5, 9; R27, R28, R31, R127) is kept by every step. -/
def Obligations.StepKeepsTheInvariant : Prop :=
  ∀ s t : State, Inv s → step s = .next t → Inv t

/-- The invariant holds after reset. -/
def Obligations.ResetMeetsTheInvariant : Prop := Inv State.reset

/-! ### Modes and reset -/

/-- R30, R98: the mode that the control bits select; which mode holds where the conditions of two stand together
is the model's (log 25), and so is covering real-address and virtual-8086 mode (log 2). R28, R31: RFLAGS bit 1
and XCR0 bit 0 read as 1, the other bits as stored. -/
def Obligations.ModeFollowsTheControlBits : Prop :=
  ∀ s : State,
    (s.pe = false → s.mode = some .real)
    ∧ (s.pe = true → s.vm = true → s.mode = some .v86)
    ∧ (s.pe = true → s.vm = false → s.lma = true → s.csLong = true → s.mode = some .mode64)
    ∧ (s.pe = true → s.vm = false → s.csLong = false → s.csDefault32 = true → s.mode = some .compat32)
    ∧ (s.pe = true → s.vm = false → s.csLong = false → s.csDefault32 = false → s.mode = none)
    ∧ (s.pe = true → s.vm = false → s.lma = false → s.csLong = true → s.mode = none)
    ∧ s.readRflags.getLsbD 1 = true ∧ (∀ j ≠ 1, s.readRflags.getLsbD j = s.rflags.getLsbD j)
    ∧ s.readXcr0.getLsbD 0 = true ∧ ∀ j ≠ 0, s.readXcr0.getLsbD j = s.xcr0.getLsbD j

/-- R35: the values the spec gives for reset. RDX's signature has no number there and is left out; RAX holds the
self-test result, of which the model takes 0, a pass (log 4); the 32 bits of MXCSR are log 3, and the 64 of CR0,
CR4 and IA32_EFER log 24. -/
def Obligations.ResetLeavesTheListedValues : Prop :=
  (∀ r, State.reset.readZmm r = 0#512) ∧ (∀ r, State.reset.readFpr r = 0#80)
  ∧ State.reset.x87Status = 0x0000#16 ∧ State.reset.x87Tag = 0x5555#16
  ∧ (∀ r, State.reset.readK r = 0#64) ∧ State.reset.mxcsr = 0x1F80#32
  ∧ (∀ r, r ≠ 2#4 → State.reset.readGpr r = 0#64)
  ∧ State.reset.rip = 0xFFF0#64 ∧ State.reset.cs.selector = 0xF000#16
  ∧ State.reset.cs.base = 0xFFFF0000#64 ∧ State.reset.rflags = 0x2#64
  ∧ State.reset.cr0 = 0x60000010#64 ∧ State.reset.cr4 = 0#64 ∧ State.reset.efer = 0#64
  ∧ State.reset.xcr0 = 1#64
  ∧ (∀ r, r ≠ .cs → (State.reset.segment r).selector = 0#16 ∧ (State.reset.segment r).base = 0#64
      ∧ (State.reset.segment r).limit = 0xFFFF#32)
  ∧ State.reset.cpl = 0#2 ∧ State.reset.mode = some .real

/-- R35, R192: straight after reset only the MMX rows execute; every other row raises #UD. `features` at
reset are the model's choice (log 4); so is that real-address mode runs, with offsets up to FFFFH (log 2). -/
def Obligations.AfterResetOnlyMmxRowsExecute : Prop :=
  ∀ e : Elem,
    (∀ (l : LegInstr) (n : BitVec 3), .lock ∉ l.pfx → l.rm = .reg n →
      ∃ t, exec (rowMmx e l) State.reset = .next t)
    ∧ (∀ (l : LegInstr) (m : MemForm), .lock ∉ l.pfx → l.rm = .mem m →
      (place State.reset .real (legAddr l State.reset) m).ea.toNat + 7 < 2 ^ 16 →
      ∃ t, exec (rowMmx e l) State.reset = .next t)
    ∧ (∀ l, exec (rowSse e l) State.reset = .fault (.exception .ud 6 none none))
    ∧ (∀ n v, exec (rowVex e n v) State.reset = .fault (.exception .ud 6 none none))
    ∧ ∀ n x, exec (rowEvex e n x) State.reset = .fault (.exception .ud 6 none none)
end

