-- ==== Sys2Proof/Laws/Decode.lean ====
section
/-!
SUPPORT. Each parser undoes its part of the encoder, and reads only what its part of the encoder writes.
-/

namespace Sys2Proof


/-- The low part of a concatenation. -/
theorem append_low {m n : Nat} (a : BitVec m) (b : BitVec n) : (a ++ b).extractLsb' 0 n = b := by
  apply BitVec.eq_of_getLsbD_eq
  intro i hi
  rw [BitVec.getLsbD_extractLsb', BitVec.getLsbD_append]
  simp [hi]

/-- The high part of a concatenation. -/
theorem append_high {m n : Nat} (a : BitVec m) (b : BitVec n) : (a ++ b).extractLsb' n m = a := by
  apply BitVec.eq_of_getLsbD_eq
  intro i hi
  rw [BitVec.getLsbD_extractLsb', BitVec.getLsbD_append]
  simp [hi]

/-- A bit vector is its high part beside its low part. -/
theorem append_split {m n : Nat} (v : BitVec (m + n)) :
    v.extractLsb' n m ++ v.extractLsb' 0 n = v := by
  apply BitVec.eq_of_getLsbD_eq
  intro i hi
  rw [BitVec.getLsbD_append]
  simp only [BitVec.getLsbD_extractLsb']
  by_cases h : i < n
  · simp [h]
  · have : i - n < m := by omega
    have h2 : n + (i - n) = i := by omega
    simp [h, this, h2]

/-- A 16-bit displacement read back. -/
theorem takeD16_bytes (d : BitVec 16) (rest : List Byte) :
    takeD16 (d16Bytes d ++ rest) = .ok d rest := by
  have : d.extractLsb' 8 8 ++ d.extractLsb' 0 8 = d := append_split (m := 8) (n := 8) d
  simp [takeD16, d16Bytes, takeByte, Parsed.andThen, this]

/-- A 32-bit displacement read back. -/
theorem takeD32_bytes (d : BitVec 32) (rest : List Byte) :
    takeD32 (d32Bytes d ++ rest) = .ok d rest := by
  have : d.extractLsb' 16 16 ++ d.extractLsb' 0 16 = d := append_split (m := 16) (n := 16) d
  simp [takeD32, d32Bytes, takeD16_bytes, Parsed.andThen, this]

/-- What a 16-bit displacement was read from. -/
theorem takeD16_ok {bs rest : List Byte} {d : BitVec 16} (h : takeD16 bs = .ok d rest) :
    bs = d16Bytes d ++ rest := by
  match bs, h with
  | b0 :: b1 :: bs, h =>
    simp only [takeD16, takeByte, Parsed.andThen, Parsed.ok.injEq] at h
    obtain ⟨rfl, rfl⟩ := h
    simp [d16Bytes, append_low b1 b0, append_high b1 b0]

/-- A sequence of parsers succeeds only when both do. -/
theorem andThen_ok {α β : Type} {p : Parsed α} {f : α → List Byte → Parsed β} {b : β}
    {rest : List Byte} (h : p.andThen f = .ok b rest) : ∃ a mid, p = .ok a mid ∧ f a mid = .ok b rest := by
  cases p with
  | ok a mid => exact ⟨a, mid, rfl, h⟩
  | short => cases h
  | refused r => cases h

/-- What a 32-bit displacement was read from. -/
theorem takeD32_ok {bs rest : List Byte} {d : BitVec 32} (h : takeD32 bs = .ok d rest) :
    bs = d32Bytes d ++ rest := by
  obtain ⟨lo, mid, h1, h⟩ := andThen_ok h
  obtain ⟨hi, mid', h2, h⟩ := andThen_ok h
  obtain ⟨rfl, rfl⟩ := Parsed.ok.inj h
  rw [takeD16_ok h1, takeD16_ok h2]
  simp [d32Bytes, append_low hi lo, append_high hi lo]

/-- What a byte was read from. -/
theorem takeByte_ok {bs rest : List Byte} {b : Byte} (h : takeByte bs = .ok b rest) : bs = b :: rest := by
  cases bs with
  | nil => cases h
  | cons c bs => obtain ⟨rfl, rfl⟩ := Parsed.ok.inj h; rfl

/-- The three fields of a ModRM or SIB byte. -/
theorem modrm_parts : ∀ (a : BitVec 2) (b c : BitVec 3),
    (a ++ b ++ c : Byte).extractLsb' 6 2 = a ∧ (a ++ b ++ c : Byte).extractLsb' 3 3 = b
      ∧ (a ++ b ++ c : Byte).extractLsb' 0 3 = c := by decide

/-- A ModRM or SIB byte is its three fields. -/
theorem modrm_split : ∀ m : Byte, (m.extractLsb' 6 2 ++ m.extractLsb' 3 3 ++ m.extractLsb' 0 3 : Byte) = m := by
  decide

@[simp] theorem andThen_ok_eq {α β : Type} (a : α) (bs : List Byte) (f : α → List Byte → Parsed β) :
    (Parsed.ok a bs).andThen f = f a bs := rfl

@[simp] theorem takeByte_cons (b : Byte) (bs : List Byte) : takeByte (b :: bs) = .ok b bs := rfl

theorem two_values : ∀ m : BitVec 2, m = 0#2 ∨ m = 1#2 ∨ m = 2#2 ∨ m = 3#2 := by decide

/-! ### Displacements and memory forms -/

theorem Disp.mod_ne_three (d : Disp) : d.mod ≠ 3#2 := by cases d <;> simp [Disp.mod]

theorem Disp16.mod_ne_three (d : Disp16) : d.mod ≠ 3#2 := by cases d <;> simp [Disp16.mod]

theorem Disp.mod_eq_zero {d : Disp} : d.mod = 0#2 ↔ d = .none := by cases d <;> simp [Disp.mod]

theorem Disp16.mod_eq_zero {d : Disp16} : d.mod = 0#2 ↔ d = .none := by cases d <;> simp [Disp16.mod]

theorem takeDisp_bytes (d : Disp) (rest : List Byte) :
    takeDisp d.mod (d.bytes ++ rest) = .ok d rest := by
  cases d <;> simp [takeDisp, Disp.mod, Disp.bytes, takeD32_bytes]

theorem takeDisp16_bytes (d : Disp16) (rest : List Byte) :
    takeDisp16 d.mod (d.bytes ++ rest) = .ok d rest := by
  cases d <;> simp [takeDisp16, Disp16.mod, Disp16.bytes, takeD16_bytes]

theorem takeDisp_ok {mod : BitVec 2} (hm : mod ≠ 3#2) {bs rest : List Byte} {d : Disp}
    (h : takeDisp mod bs = .ok d rest) : bs = d.bytes ++ rest ∧ d.mod = mod := by
  rcases two_values mod with rfl | rfl | rfl | rfl
  · obtain ⟨rfl, rfl⟩ := Parsed.ok.inj h; exact ⟨rfl, rfl⟩
  · obtain ⟨x, mid, h1, h⟩ := andThen_ok h
    obtain ⟨rfl, rfl⟩ := Parsed.ok.inj h
    exact ⟨takeByte_ok h1, rfl⟩
  · obtain ⟨x, mid, h1, h⟩ := andThen_ok h
    obtain ⟨rfl, rfl⟩ := Parsed.ok.inj h
    exact ⟨takeD32_ok h1, rfl⟩
  · exact absurd rfl hm

theorem takeDisp16_ok {mod : BitVec 2} (hm : mod ≠ 3#2) {bs rest : List Byte} {d : Disp16}
    (h : takeDisp16 mod bs = .ok d rest) : bs = d.bytes ++ rest ∧ d.mod = mod := by
  rcases two_values mod with rfl | rfl | rfl | rfl
  · obtain ⟨rfl, rfl⟩ := Parsed.ok.inj h; exact ⟨rfl, rfl⟩
  · obtain ⟨x, mid, h1, h⟩ := andThen_ok h
    obtain ⟨rfl, rfl⟩ := Parsed.ok.inj h
    exact ⟨takeByte_ok h1, rfl⟩
  · obtain ⟨x, mid, h1, h⟩ := andThen_ok h
    obtain ⟨rfl, rfl⟩ := Parsed.ok.inj h
    exact ⟨takeD16_ok h1, rfl⟩
  · exact absurd rfl hm

/-- ModRM with its SIB and displacement, read back. -/
theorem takeModRm_bytes {a16 : Bool} {reg : BitVec 3} {rm : Rm} (h : rm.wf a16 = true)
    (rest : List Byte) : takeModRm a16 (rm.bytes reg ++ rest) = .ok (reg, rm) rest := by
  cases rm with
  | reg n =>
    obtain ⟨h1, h2, h3⟩ := modrm_parts 3#2 reg n
    simp [takeModRm, Rm.bytes, h1, h2, h3]
  | mem m =>
    cases m with
    | base rm d =>
      obtain ⟨h1, h2, h3⟩ := modrm_parts d.mod reg rm
      simp only [Rm.wf, MemForm.wf, Bool.and_eq_true, Bool.not_eq_true', bne_iff_ne, ne_eq] at h
      have h4 : ¬ (d.mod = 0#2 ∧ rm = 5#3) := by
        rintro ⟨hd, rfl⟩; simp [Disp.mod_eq_zero.1 hd] at h
      simp [takeModRm, Rm.bytes, MemForm.bytes, h1, h2, h3, Disp.mod_ne_three, h.1.1, takeMem32,
        h.1.2, h4, takeDisp_bytes]
    | disp d =>
      obtain ⟨h1, h2, h3⟩ := modrm_parts 0#2 reg 5#3
      simp only [Rm.wf, MemForm.wf, Bool.not_eq_true'] at h
      simp [takeModRm, Rm.bytes, MemForm.bytes, h1, h2, h3, h, takeMem32, takeD32_bytes]
    | sib sc ix bs d =>
      obtain ⟨h1, h2, h3⟩ := modrm_parts d.mod reg 4#3
      obtain ⟨g1, g2, g3⟩ := modrm_parts sc ix bs
      simp only [Rm.wf, MemForm.wf, Bool.and_eq_true, Bool.not_eq_true'] at h
      have h4 : ¬ (d.mod = 0#2 ∧ bs = 5#3) := by
        rintro ⟨hd, rfl⟩; simp [Disp.mod_eq_zero.1 hd] at h
      simp [takeModRm, Rm.bytes, MemForm.bytes, h1, h2, h3, g1, g2, g3, Disp.mod_ne_three, h.1,
        takeMem32, takeSib, h4, takeDisp_bytes]
    | sibNoBase sc ix d =>
      obtain ⟨h1, h2, h3⟩ := modrm_parts 0#2 reg 4#3
      obtain ⟨g1, g2, g3⟩ := modrm_parts sc ix 5#3
      simp only [Rm.wf, MemForm.wf, Bool.not_eq_true'] at h
      simp [takeModRm, Rm.bytes, MemForm.bytes, h1, h2, h3, g1, g2, g3, h, takeMem32, takeSib,
        takeD32_bytes]
    | base16 rm d =>
      obtain ⟨h1, h2, h3⟩ := modrm_parts d.mod reg rm
      simp only [Rm.wf, MemForm.wf, Bool.and_eq_true, Bool.not_eq_true'] at h
      have h4 : ¬ (d.mod = 0#2 ∧ rm = 6#3) := by
        rintro ⟨hd, rfl⟩; simp [Disp16.mod_eq_zero.1 hd] at h
      simp [takeModRm, Rm.bytes, MemForm.bytes, h1, h2, h3, Disp16.mod_ne_three, h.1, takeMem16, h4,
        takeDisp16_bytes]
    | disp16 d =>
      obtain ⟨h1, h2, h3⟩ := modrm_parts 0#2 reg 6#3
      simp only [Rm.wf, MemForm.wf] at h
      simp [takeModRm, Rm.bytes, MemForm.bytes, h1, h2, h3, h, takeMem16, takeD16_bytes]

/-- What a 16-bit memory form was read from. -/
theorem takeMem16_ok {mod : BitVec 2} (hm : mod ≠ 3#2) {rm : BitVec 3} {bs rest : List Byte}
    {f : MemForm} (h : takeMem16 mod rm bs = .ok f rest) (reg : BitVec 3) :
    (mod ++ reg ++ rm : Byte) :: bs = f.bytes reg ++ rest ∧ f.wf true = true := by
  unfold takeMem16 at h
  split at h
  · rename_i hc
    obtain ⟨d, mid, h1, h⟩ := andThen_ok h
    obtain ⟨rfl, rfl⟩ := Parsed.ok.inj h
    rw [takeD16_ok h1, hc.1, hc.2]
    exact ⟨rfl, rfl⟩
  · rename_i hc
    obtain ⟨d, mid, h1, h⟩ := andThen_ok h
    obtain ⟨rfl, rfl⟩ := Parsed.ok.inj h
    obtain ⟨rfl, rfl⟩ := takeDisp16_ok hm h1
    refine ⟨rfl, ?_⟩
    simpa [MemForm.wf, Disp16.mod_eq_zero, imp_iff_not_or] using hc

/-- What a 32- or 64-bit memory form was read from. -/
theorem takeMem32_ok {mod : BitVec 2} (hm : mod ≠ 3#2) {rm : BitVec 3} {bs rest : List Byte}
    {f : MemForm} (h : takeMem32 mod rm bs = .ok f rest) (reg : BitVec 3) :
    (mod ++ reg ++ rm : Byte) :: bs = f.bytes reg ++ rest ∧ f.wf false = true := by
  unfold takeMem32 at h
  split at h
  · rename_i hr
    subst hr
    obtain ⟨s, mid, h1, h⟩ := andThen_ok h
    rw [takeByte_ok h1, ← modrm_split s]
    split at h
    · rename_i hc
      obtain ⟨d, mid', h2, h⟩ := andThen_ok h
      obtain ⟨rfl, rfl⟩ := Parsed.ok.inj h
      rw [takeD32_ok h2, hc.1, hc.2]
      exact ⟨rfl, rfl⟩
    · rename_i hc
      obtain ⟨d, mid', h2, h⟩ := andThen_ok h
      obtain ⟨rfl, rfl⟩ := Parsed.ok.inj h
      obtain ⟨rfl, rfl⟩ := takeDisp_ok hm h2
      refine ⟨rfl, ?_⟩
      simpa [MemForm.wf, Disp.mod_eq_zero, imp_iff_not_or] using hc
  · rename_i hr
    split at h
    · rename_i hc
      obtain ⟨d, mid, h1, h⟩ := andThen_ok h
      obtain ⟨rfl, rfl⟩ := Parsed.ok.inj h
      rw [takeD32_ok h1, hc.1, hc.2]
      exact ⟨rfl, rfl⟩
    · rename_i hc
      obtain ⟨d, mid, h1, h⟩ := andThen_ok h
      obtain ⟨rfl, rfl⟩ := Parsed.ok.inj h
      obtain ⟨rfl, rfl⟩ := takeDisp_ok hm h1
      refine ⟨rfl, ?_⟩
      simpa [MemForm.wf, Disp.mod_eq_zero, hr, imp_iff_not_or] using hc

/-- What ModRM with its SIB and displacement was read from. -/
theorem takeModRm_ok {a16 : Bool} {bs rest : List Byte} {reg : BitVec 3} {rm : Rm}
    (h : takeModRm a16 bs = .ok (reg, rm) rest) :
    bs = rm.bytes reg ++ rest ∧ rm.wf a16 = true := by
  obtain ⟨m, mid, h1, h⟩ := andThen_ok h
  rw [takeByte_ok h1]
  split at h
  · rename_i hm
    obtain ⟨he, rfl⟩ := Parsed.ok.inj h
    obtain ⟨rfl, rfl⟩ := Prod.mk.inj he
    refine ⟨?_, rfl⟩
    have := modrm_split m
    rw [hm] at this
    simp [Rm.bytes, this]
  · rename_i hm
    obtain ⟨f, mid', h2, h⟩ := andThen_ok h
    obtain ⟨he, rfl⟩ := Parsed.ok.inj h
    obtain ⟨rfl, rfl⟩ := Prod.mk.inj he
    have hs := modrm_split m
    cases a16 with
    | true =>
      have := takeMem16_ok hm h2 (m.extractLsb' 3 3)
      rwa [hs] at this
    | false =>
      have := takeMem32_ok hm h2 (m.extractLsb' 3 3)
      rwa [hs] at this

/-! ### Opcode, REX, legacy prefixes -/

theorem takeOp_opByte (word : Bool) (rest : List Byte) :
    takeOp (opByte word :: rest) = .ok word rest := by cases word <;> rfl

theorem takeOp_ok {bs rest : List Byte} {word : Bool} (h : takeOp bs = .ok word rest) :
    bs = opByte word :: rest := by
  obtain ⟨op, mid, h1, h⟩ := andThen_ok h
  rw [takeByte_ok h1]
  split at h
  · obtain ⟨rfl, rfl⟩ := Parsed.ok.inj h; simp [opByte, *]
  · split at h
    · obtain ⟨rfl, rfl⟩ := Parsed.ok.inj h; simp [opByte, *]
    · cases h

theorem Rex.ofByte_byte (r : Rex) : Rex.ofByte r.byte = r ∧ Rex.isRex r.byte = true := by
  obtain ⟨w, r, x, b⟩ := r; revert w r x b; decide

theorem Rex.byte_ofByte : ∀ b : Byte, Rex.isRex b = true → (Rex.ofByte b).byte = b := by decide

theorem Pfx.ofByte_byte (p : Pfx) : Pfx.ofByte p.byte = some p := by
  cases p with
  | seg r => cases r <;> decide
  | _ => decide

theorem Pfx.byte_ofByte {b : Byte} {p : Pfx} (h : Pfx.ofByte b = some p) : p.byte = b := by
  unfold Pfx.ofByte at h
  iterate 11
    split at h
    · rename_i hb; obtain rfl := Option.some.inj h; exact hb.symm
  cases h

/-- A prefix of a new kind clashes with none before it. -/
theorem clash_eq_none {p : Pfx} {seen : List Pfx} :
    clash p seen = none ↔ p.kind ∉ seen.map Pfx.kind := by
  unfold clash
  by_cases h1 : p ∈ seen
  · have : p.kind ∈ seen.map Pfx.kind := List.mem_map_of_mem h1
    simp [h1, this]
  · by_cases h2 : p.kind ∈ seen.map Pfx.kind
    · simp [h1, h2]
    · simp [h1, h2]

/-- Legacy prefixes read back, up to a byte that is none. -/
theorem takePfx_bytes (ps seen : List Pfx) (hn : ((seen ++ ps).map Pfx.kind).Nodup) {b : Byte}
    (hb : Pfx.ofByte b = none) (rest : List Byte) :
    takePfx (ps.map Pfx.byte ++ b :: rest) seen = .ok (seen ++ ps) (b :: rest) := by
  induction ps generalizing seen with
  | nil => simp [takePfx, hb]
  | cons p ps ih =>
    have hc : clash p seen = none := by
      rw [clash_eq_none]
      intro hm
      rw [List.map_append, List.nodup_append] at hn
      exact hn.2.2 _ hm _ (by simp) rfl
    have := ih (seen ++ [p]) (by simpa using hn)
    simpa [takePfx, Pfx.ofByte_byte, hc] using this

/-- What legacy prefixes were read from. -/
theorem takePfx_ok {bs rest : List Byte} {seen pfx : List Pfx} (hs : (seen.map Pfx.kind).Nodup)
    (h : takePfx bs seen = .ok pfx rest) :
    (pfx.map Pfx.kind).Nodup ∧ seen.map Pfx.byte ++ bs = pfx.map Pfx.byte ++ rest
      ∧ ∃ b tl, rest = b :: tl ∧ Pfx.ofByte b = none := by
  induction bs generalizing seen with
  | nil => cases h
  | cons b bs ih =>
    unfold takePfx at h
    split at h
    · rename_i hb
      obtain ⟨rfl, rfl⟩ := Parsed.ok.inj h
      exact ⟨hs, rfl, b, bs, rfl, hb⟩
    · rename_i p hp
      split at h
      · cases h
      · rename_i hc
        have hn : ((seen ++ [p]).map Pfx.kind).Nodup := by
          rw [List.map_append, List.nodup_append]
          refine ⟨hs, by simp, ?_⟩
          rintro x hx y hy rfl
          simp only [List.map_cons, List.map_nil, List.mem_singleton] at hy
          exact clash_eq_none.1 hc (hy ▸ hx)
        obtain ⟨h1, h2, h3⟩ := ih hn h
        refine ⟨h1, ?_, h3⟩
        simpa [Pfx.byte_ofByte hp] using h2

/-! ### VEX and EVEX payload bytes -/

/-- The fields of the second payload byte of a VEX prefix. -/
theorem vexPayload2 : ∀ (w : Bool) (v : BitVec 4) (l : Bool),
    let b : Byte := BitVec.ofBool w ++ ~~~ v ++ BitVec.ofBool l ++ 1#2
    b.getLsbD 7 = w ∧ (~~~ b.extractLsb' 3 4) = v ∧ b.getLsbD 2 = l ∧ b.extractLsb' 0 2 = 1#2 := by
  decide

theorem vexPayload2_split : ∀ b : Byte, b.extractLsb' 0 2 = 1#2 →
    (BitVec.ofBool (b.getLsbD 7) ++ ~~~ (~~~ b.extractLsb' 3 4) ++ BitVec.ofBool (b.getLsbD 2) ++ 1#2
      : Byte) = b := by decide

/-- The fields of the first payload byte of a 3-byte VEX prefix. -/
theorem vexPayload1 : ∀ r x b : Bool,
    let p : Byte := BitVec.ofBool (!r) ++ BitVec.ofBool (!x) ++ BitVec.ofBool (!b) ++ 1#5
    (!p.getLsbD 7) = r ∧ (!p.getLsbD 6) = x ∧ (!p.getLsbD 5) = b ∧ p.extractLsb' 0 5 = 1#5
      ∧ (p.extractLsb' 6 2 = 3#2 ↔ r = false ∧ x = false) := by decide

theorem vexPayload1_split : ∀ p : Byte, p.extractLsb' 0 5 = 1#5 →
    (BitVec.ofBool (p.getLsbD 7) ++ BitVec.ofBool (p.getLsbD 6) ++ BitVec.ofBool (p.getLsbD 5) ++ 1#5
      : Byte) = p := by decide

/-- The fields of P0 (P1 has the shape of `vexPayload2`). -/
theorem evexP0 : ∀ (r x b r' : Bool) (z : BitVec 2),
    let p : Byte := BitVec.ofBool (!r) ++ BitVec.ofBool (!x) ++ BitVec.ofBool (!b) ++ BitVec.ofBool (!r')
      ++ z ++ 1#2
    (!p.getLsbD 7) = r ∧ (!p.getLsbD 6) = x ∧ (!p.getLsbD 5) = b ∧ (!p.getLsbD 4) = r'
      ∧ p.extractLsb' 2 2 = z ∧ p.extractLsb' 0 2 = 1#2
      ∧ (p.extractLsb' 6 2 = 3#2 ↔ r = false ∧ x = false) := by decide

theorem evexP0_split : ∀ p : Byte, p.extractLsb' 0 2 = 1#2 →
    (BitVec.ofBool (p.getLsbD 7) ++ BitVec.ofBool (p.getLsbD 6) ++ BitVec.ofBool (p.getLsbD 5)
      ++ BitVec.ofBool (p.getLsbD 4) ++ p.extractLsb' 2 2 ++ 1#2 : Byte) = p := by decide

/-- The fields of P2. -/
theorem evexP2 : ∀ (z : Bool) (ll : BitVec 2) (b v : Bool) (a : BitVec 3),
    let p : Byte := BitVec.ofBool z ++ ll ++ BitVec.ofBool b ++ BitVec.ofBool (!v) ++ a
    p.getLsbD 7 = z ∧ p.extractLsb' 5 2 = ll ∧ p.getLsbD 4 = b ∧ (!p.getLsbD 3) = v
      ∧ p.extractLsb' 0 3 = a := by decide

theorem evexP2_split : ∀ p : Byte,
    (BitVec.ofBool (p.getLsbD 7) ++ p.extractLsb' 5 2 ++ BitVec.ofBool (p.getLsbD 4)
      ++ BitVec.ofBool (p.getLsbD 3) ++ p.extractLsb' 0 3 : Byte) = p := by decide

/-! ### Lengths -/

theorem d16Bytes_length (d : BitVec 16) : (d16Bytes d).length = 2 := rfl

theorem d32Bytes_length (d : BitVec 32) : (d32Bytes d).length = 4 := rfl

theorem Disp.bytes_length (d : Disp) : d.bytes.length = d.size := by cases d <;> rfl

theorem Disp16.bytes_length (d : Disp16) : d.bytes.length = d.size := by cases d <;> rfl

theorem Rm.bytes_length (reg : BitVec 3) (rm : Rm) : (rm.bytes reg).length = 1 + rm.extra := by
  cases rm with
  | reg n => rfl
  | mem m =>
    cases m <;>
      simp [Rm.bytes, MemForm.bytes, Rm.extra, MemForm.extra, Disp.bytes_length, Disp16.bytes_length,
        d32Bytes_length, d16Bytes_length] <;> omega

theorem headBytes_length (pfx : List Pfx) (rex : Option Rex) :
    (headBytes pfx rex).length = pfx.length + rexSize rex := by
  cases rex <;> simp [headBytes, rexSize]

theorem VexForm.bytes_length (l : Bool) (f : VexForm) : (f.bytes l).length = f.size := by
  cases f <;> rfl

theorem LegInstr.bytes_length (word : Bool) (l : LegInstr) : (l.bytes word).length = l.len := by
  simp [LegInstr.bytes, LegInstr.len, headBytes_length, Rm.bytes_length]; omega

theorem VexInstr.bytes_length (l word : Bool) (v : VexInstr) : (v.bytes l word).length = v.len := by
  simp [VexInstr.bytes, VexInstr.len, headBytes_length, VexForm.bytes_length, Rm.bytes_length]; omega

theorem EvexInstr.bytes_length (ll : BitVec 2) (word : Bool) (e : EvexInstr) :
    (e.bytes ll word).length = e.len := by
  simp [EvexInstr.bytes, EvexInstr.len, headBytes_length, Rm.bytes_length]; omega

end Sys2Proof
end

