-- ==== Sys2Proof/Laws/Lanes.lean ====
section
/-!
SUPPORT. Packed lanes: what each lane of a packed value is, and that the bits above are 0.
-/

namespace Sys2Proof.Machine

/-- Every bit of a packed value, through the element it lies in. -/
theorem pack_getLsbD {w : Nat} (hw : 0 < w) (f : Nat → BitVec w) (n j : Nat) :
    (pack w f n).getLsbD j = (decide (j < 512) && decide (j / w < n) && (f (j / w)).getLsbD (j % w)) := by
  induction n with
  | zero => simp [pack]
  | succ n ih =>
    simp only [pack, BitVec.getLsbD_or, ih, BitVec.getLsbD_shiftLeft, BitVec.getLsbD_setWidth]
    by_cases hj : j < 512
    · rcases lt_trichotomy (j / w) n with h | h | h
      · have h1 : j < w * n := by rw [mul_comm]; exact (Nat.div_lt_iff_lt_mul hw).1 h
        simp [hj, h, h1, Nat.lt_succ_of_lt h]
      · have h1 : w * n ≤ j := by rw [← h]; exact Nat.mul_div_le j w
        have h2 : j - w * n = j % w := by
          rw [← h]; have := Nat.div_add_mod j w; omega
        have h3 : ¬ j < w * n := by omega
        have h4 : j % w < 512 := lt_of_le_of_lt (Nat.mod_le j w) hj
        simp [hj, h, h2, h3, h4]
      · have h1 : w * (n + 1) ≤ j := by
          calc w * (n + 1) ≤ w * (j / w) := Nat.mul_le_mul_left w h
            _ ≤ j := Nat.mul_div_le j w
        have h2 : w ≤ j - w * n := by rw [Nat.mul_succ] at h1; omega
        have h3 : ¬ j / w < n + 1 := by omega
        have h4 : ¬ j / w < n := by omega
        simp [h3, h4, BitVec.getLsbD_of_ge _ _ h2]
    · simp [hj]

/-- The bits above the packed elements are 0. -/
theorem pack_high {w : Nat} (hw : 0 < w) (f : Nat → BitVec w) {n j : Nat} (h : w * n ≤ j) :
    (pack w f n).getLsbD j = false := by
  have : ¬ j / w < n := by
    rw [Nat.div_lt_iff_lt_mul hw, mul_comm]; omega
  simp [pack_getLsbD hw, this]

/-- Element `i` of a packed value. -/
theorem pack_elem {w : Nat} (hw : 0 < w) (f : Nat → BitVec w) {n i : Nat} (hi : i < n)
    (hn : w * n ≤ 512) : (pack w f n).extractLsb' (w * i) w = f i := by
  apply BitVec.eq_of_getLsbD_eq
  intro j hj
  have h1 : (w * i + j) / w = i := by
    rw [Nat.mul_add_div hw, Nat.div_eq_of_lt hj, add_zero]
  have h2 : (w * i + j) % w = j := by rw [Nat.mul_add_mod, Nat.mod_eq_of_lt hj]
  have h3 : w * i + j < 512 := by
    have : w * (i + 1) ≤ w * n := Nat.mul_le_mul_left w hi
    rw [Nat.mul_succ] at this; omega
  rw [BitVec.getLsbD_extractLsb', pack_getLsbD hw, h1, h2]
  simp [hj, h3, hi]

theorem Elem.bits_pos (e : Elem) : 0 < e.bits := by cases e <;> decide

/-- A lane of a packed value of `vl / w` elements. -/
theorem lane_pack (e : Elem) (f : Nat → BitVec e.bits) {vl i : Nat} (hi : i < vl / e.bits)
    (hv : vl ≤ 512) : lane e (pack e.bits f (vl / e.bits)) i = f i :=
  pack_elem e.bits_pos f hi (le_trans (Nat.mul_div_le vl e.bits) hv)

/-- A lane of the packed saturating add. -/
theorem lane_padds (e : Elem) {vl i : Nat} (a b : VecReg) (hi : i < vl / e.bits) (hv : vl ≤ 512) :
    lane e (padds e vl a b) i = satAdd e (lane e a i) (lane e b i) :=
  lane_pack e _ hi hv

/-- A lane of the masked packed saturating add. -/
theorem lane_maskedPadds (e : Elem) {vl i : Nat} (k : Quad) (z : Bool) (old a b : VecReg)
    (hi : i < vl / e.bits) (hv : vl ≤ 512) :
    lane e (maskedPadds e vl k z old a b) i =
      if k.getLsbD i then satAdd e (lane e a i) (lane e b i)
      else if z then 0#e.bits else lane e old i :=
  lane_pack e _ hi hv

/-- The packed saturating add has nothing above the vector length. -/
theorem padds_high (e : Elem) {vl j : Nat} (a b : VecReg) (h : vl ≤ j) :
    (padds e vl a b).getLsbD j = false :=
  pack_high e.bits_pos _ (le_trans (Nat.mul_div_le vl e.bits) h)

theorem maskedPadds_high (e : Elem) {vl j : Nat} (k : Quad) (z : Bool) (old a b : VecReg)
    (h : vl ≤ j) : (maskedPadds e vl k z old a b).getLsbD j = false :=
  pack_high e.bits_pos _ (le_trans (Nat.mul_div_le vl e.bits) h)

/-- Two packed values agree when their elements do. -/
theorem pack_congr {w : Nat} {f g : Nat → BitVec w} {n : Nat} (h : ∀ i < n, f i = g i) :
    pack w f n = pack w g n := by
  induction n with
  | zero => rfl
  | succ n ih =>
    simp only [pack, h n (Nat.lt_succ_self n), ih fun i hi => h i (Nat.lt_succ_of_lt hi)]

/-- A saturated byte, read as a signed value, is the clamped sum. -/
theorem satByte_toInt (x : Int) : (satByte x).toInt = max (-128) (min 127 x) := by
  unfold satByte
  split
  · have : (0x7F#8 : BitVec 8).toInt = 127 := by decide
    omega
  · split
    · have : (0x80#8 : BitVec 8).toInt = -128 := by decide
      omega
    · rw [BitVec.toInt_ofInt, Int.bmod_def]; omega

/-- A saturated word, read as a signed value, is the clamped sum. -/
theorem satWord_toInt (x : Int) : (satWord x).toInt = max (-32768) (min 32767 x) := by
  unfold satWord
  split
  · have : (0x7FFF#16 : BitVec 16).toInt = 32767 := by decide
    omega
  · split
    · have : (0x8000#16 : BitVec 16).toInt = -32768 := by decide
      omega
    · rw [BitVec.toInt_ofInt, Int.bmod_def]; omega

end Sys2Proof.Machine
end

