-- ==== Sys2Proof/Laws/State.lean ====
section
/-!
SUPPORT. What each update of the state leaves in each field, each true by unfolding once, and the register
files read after a write.
-/

namespace Sys2Proof.Machine

/-! ### `writeZmm` -/

@[simp] theorem writeZmm_zmm (s : State) (i : BitVec 5) (v : VecReg) :
    (s.writeZmm i v).zmm = s.zmm.set i.toNat v i.isLt := rfl
@[simp] theorem writeZmm_fpr (s : State) (i : BitVec 5) (v : VecReg) :
    (s.writeZmm i v).fpr = s.fpr := rfl
@[simp] theorem writeZmm_x87Status (s : State) (i : BitVec 5) (v : VecReg) :
    (s.writeZmm i v).x87Status = s.x87Status := rfl
@[simp] theorem writeZmm_x87Tag (s : State) (i : BitVec 5) (v : VecReg) :
    (s.writeZmm i v).x87Tag = s.x87Tag := rfl
@[simp] theorem writeZmm_kreg (s : State) (i : BitVec 5) (v : VecReg) :
    (s.writeZmm i v).kreg = s.kreg := rfl
@[simp] theorem writeZmm_mxcsr (s : State) (i : BitVec 5) (v : VecReg) :
    (s.writeZmm i v).mxcsr = s.mxcsr := rfl
@[simp] theorem writeZmm_gpr (s : State) (i : BitVec 5) (v : VecReg) :
    (s.writeZmm i v).gpr = s.gpr := rfl
@[simp] theorem writeZmm_rip (s : State) (i : BitVec 5) (v : VecReg) :
    (s.writeZmm i v).rip = s.rip := rfl
@[simp] theorem writeZmm_rflags (s : State) (i : BitVec 5) (v : VecReg) :
    (s.writeZmm i v).rflags = s.rflags := rfl
@[simp] theorem writeZmm_es (s : State) (i : BitVec 5) (v : VecReg) :
    (s.writeZmm i v).es = s.es := rfl
@[simp] theorem writeZmm_cs (s : State) (i : BitVec 5) (v : VecReg) :
    (s.writeZmm i v).cs = s.cs := rfl
@[simp] theorem writeZmm_ss (s : State) (i : BitVec 5) (v : VecReg) :
    (s.writeZmm i v).ss = s.ss := rfl
@[simp] theorem writeZmm_ds (s : State) (i : BitVec 5) (v : VecReg) :
    (s.writeZmm i v).ds = s.ds := rfl
@[simp] theorem writeZmm_fs (s : State) (i : BitVec 5) (v : VecReg) :
    (s.writeZmm i v).fs = s.fs := rfl
@[simp] theorem writeZmm_gs (s : State) (i : BitVec 5) (v : VecReg) :
    (s.writeZmm i v).gs = s.gs := rfl
@[simp] theorem writeZmm_csLong (s : State) (i : BitVec 5) (v : VecReg) :
    (s.writeZmm i v).csLong = s.csLong := rfl
@[simp] theorem writeZmm_csDefault32 (s : State) (i : BitVec 5) (v : VecReg) :
    (s.writeZmm i v).csDefault32 = s.csDefault32 := rfl
@[simp] theorem writeZmm_cr0 (s : State) (i : BitVec 5) (v : VecReg) :
    (s.writeZmm i v).cr0 = s.cr0 := rfl
@[simp] theorem writeZmm_cr4 (s : State) (i : BitVec 5) (v : VecReg) :
    (s.writeZmm i v).cr4 = s.cr4 := rfl
@[simp] theorem writeZmm_efer (s : State) (i : BitVec 5) (v : VecReg) :
    (s.writeZmm i v).efer = s.efer := rfl
@[simp] theorem writeZmm_xcr0 (s : State) (i : BitVec 5) (v : VecReg) :
    (s.writeZmm i v).xcr0 = s.xcr0 := rfl
@[simp] theorem writeZmm_features (s : State) (i : BitVec 5) (v : VecReg) :
    (s.writeZmm i v).features = s.features := rfl
@[simp] theorem writeZmm_mem (s : State) (i : BitVec 5) (v : VecReg) :
    (s.writeZmm i v).mem = s.mem := rfl
@[simp] theorem writeZmm_translation (s : State) (i : BitVec 5) (v : VecReg) :
    (s.writeZmm i v).translation = s.translation := rfl
@[simp] theorem writeZmm_linearWidth (s : State) (i : BitVec 5) (v : VecReg) :
    (s.writeZmm i v).linearWidth = s.linearWidth := rfl
@[simp] theorem writeZmm_suppression (s : State) (i : BitVec 5) (v : VecReg) :
    (s.writeZmm i v).suppression = s.suppression := rfl
@[simp] theorem writeZmm_alignmentCheck (s : State) (i : BitVec 5) (v : VecReg) :
    (s.writeZmm i v).alignmentCheck = s.alignmentCheck := rfl
@[simp] theorem writeZmm_endAddress (s : State) (i : BitVec 5) (v : VecReg) :
    (s.writeZmm i v).endAddress = s.endAddress := rfl
@[simp] theorem writeZmm_draws (s : State) (i : BitVec 5) (v : VecReg) :
    (s.writeZmm i v).draws = s.draws := rfl

/-! ### `writeMm` -/

@[simp] theorem writeMm_zmm (s : State) (i : BitVec 3) (v : BitVec 64) :
    (s.writeMm i v).zmm = s.zmm := rfl
@[simp] theorem writeMm_fpr (s : State) (i : BitVec 3) (v : BitVec 64) :
    (s.writeMm i v).fpr = s.fpr.set i.toNat (0xFFFF#16 ++ v) i.isLt := rfl
@[simp] theorem writeMm_x87Status (s : State) (i : BitVec 3) (v : BitVec 64) :
    (s.writeMm i v).x87Status = s.x87Status &&& 0xC7FF#16 := rfl
@[simp] theorem writeMm_x87Tag (s : State) (i : BitVec 3) (v : BitVec 64) :
    (s.writeMm i v).x87Tag = 0#16 := rfl
@[simp] theorem writeMm_kreg (s : State) (i : BitVec 3) (v : BitVec 64) :
    (s.writeMm i v).kreg = s.kreg := rfl
@[simp] theorem writeMm_mxcsr (s : State) (i : BitVec 3) (v : BitVec 64) :
    (s.writeMm i v).mxcsr = s.mxcsr := rfl
@[simp] theorem writeMm_gpr (s : State) (i : BitVec 3) (v : BitVec 64) :
    (s.writeMm i v).gpr = s.gpr := rfl
@[simp] theorem writeMm_rip (s : State) (i : BitVec 3) (v : BitVec 64) :
    (s.writeMm i v).rip = s.rip := rfl
@[simp] theorem writeMm_rflags (s : State) (i : BitVec 3) (v : BitVec 64) :
    (s.writeMm i v).rflags = s.rflags := rfl
@[simp] theorem writeMm_es (s : State) (i : BitVec 3) (v : BitVec 64) :
    (s.writeMm i v).es = s.es := rfl
@[simp] theorem writeMm_cs (s : State) (i : BitVec 3) (v : BitVec 64) :
    (s.writeMm i v).cs = s.cs := rfl
@[simp] theorem writeMm_ss (s : State) (i : BitVec 3) (v : BitVec 64) :
    (s.writeMm i v).ss = s.ss := rfl
@[simp] theorem writeMm_ds (s : State) (i : BitVec 3) (v : BitVec 64) :
    (s.writeMm i v).ds = s.ds := rfl
@[simp] theorem writeMm_fs (s : State) (i : BitVec 3) (v : BitVec 64) :
    (s.writeMm i v).fs = s.fs := rfl
@[simp] theorem writeMm_gs (s : State) (i : BitVec 3) (v : BitVec 64) :
    (s.writeMm i v).gs = s.gs := rfl
@[simp] theorem writeMm_csLong (s : State) (i : BitVec 3) (v : BitVec 64) :
    (s.writeMm i v).csLong = s.csLong := rfl
@[simp] theorem writeMm_csDefault32 (s : State) (i : BitVec 3) (v : BitVec 64) :
    (s.writeMm i v).csDefault32 = s.csDefault32 := rfl
@[simp] theorem writeMm_cr0 (s : State) (i : BitVec 3) (v : BitVec 64) :
    (s.writeMm i v).cr0 = s.cr0 := rfl
@[simp] theorem writeMm_cr4 (s : State) (i : BitVec 3) (v : BitVec 64) :
    (s.writeMm i v).cr4 = s.cr4 := rfl
@[simp] theorem writeMm_efer (s : State) (i : BitVec 3) (v : BitVec 64) :
    (s.writeMm i v).efer = s.efer := rfl
@[simp] theorem writeMm_xcr0 (s : State) (i : BitVec 3) (v : BitVec 64) :
    (s.writeMm i v).xcr0 = s.xcr0 := rfl
@[simp] theorem writeMm_features (s : State) (i : BitVec 3) (v : BitVec 64) :
    (s.writeMm i v).features = s.features := rfl
@[simp] theorem writeMm_mem (s : State) (i : BitVec 3) (v : BitVec 64) :
    (s.writeMm i v).mem = s.mem := rfl
@[simp] theorem writeMm_translation (s : State) (i : BitVec 3) (v : BitVec 64) :
    (s.writeMm i v).translation = s.translation := rfl
@[simp] theorem writeMm_linearWidth (s : State) (i : BitVec 3) (v : BitVec 64) :
    (s.writeMm i v).linearWidth = s.linearWidth := rfl
@[simp] theorem writeMm_suppression (s : State) (i : BitVec 3) (v : BitVec 64) :
    (s.writeMm i v).suppression = s.suppression := rfl
@[simp] theorem writeMm_alignmentCheck (s : State) (i : BitVec 3) (v : BitVec 64) :
    (s.writeMm i v).alignmentCheck = s.alignmentCheck := rfl
@[simp] theorem writeMm_endAddress (s : State) (i : BitVec 3) (v : BitVec 64) :
    (s.writeMm i v).endAddress = s.endAddress := rfl
@[simp] theorem writeMm_draws (s : State) (i : BitVec 3) (v : BitVec 64) :
    (s.writeMm i v).draws = s.draws := rfl

/-! ### `retire` -/

@[simp] theorem retire_zmm (s : State) (md : Mode) (n : Nat) :
    (s.retire md n).zmm = s.zmm := rfl
@[simp] theorem retire_fpr (s : State) (md : Mode) (n : Nat) :
    (s.retire md n).fpr = s.fpr := rfl
@[simp] theorem retire_x87Status (s : State) (md : Mode) (n : Nat) :
    (s.retire md n).x87Status = s.x87Status := rfl
@[simp] theorem retire_x87Tag (s : State) (md : Mode) (n : Nat) :
    (s.retire md n).x87Tag = s.x87Tag := rfl
@[simp] theorem retire_kreg (s : State) (md : Mode) (n : Nat) :
    (s.retire md n).kreg = s.kreg := rfl
@[simp] theorem retire_mxcsr (s : State) (md : Mode) (n : Nat) :
    (s.retire md n).mxcsr = s.mxcsr := rfl
@[simp] theorem retire_gpr (s : State) (md : Mode) (n : Nat) :
    (s.retire md n).gpr = s.gpr := rfl
@[simp] theorem retire_rip (s : State) (md : Mode) (n : Nat) :
    (s.retire md n).rip = nextRip md s.rip n := rfl
@[simp] theorem retire_rflags (s : State) (md : Mode) (n : Nat) :
    (s.retire md n).rflags = s.rflags := rfl
@[simp] theorem retire_es (s : State) (md : Mode) (n : Nat) :
    (s.retire md n).es = s.es := rfl
@[simp] theorem retire_cs (s : State) (md : Mode) (n : Nat) :
    (s.retire md n).cs = s.cs := rfl
@[simp] theorem retire_ss (s : State) (md : Mode) (n : Nat) :
    (s.retire md n).ss = s.ss := rfl
@[simp] theorem retire_ds (s : State) (md : Mode) (n : Nat) :
    (s.retire md n).ds = s.ds := rfl
@[simp] theorem retire_fs (s : State) (md : Mode) (n : Nat) :
    (s.retire md n).fs = s.fs := rfl
@[simp] theorem retire_gs (s : State) (md : Mode) (n : Nat) :
    (s.retire md n).gs = s.gs := rfl
@[simp] theorem retire_csLong (s : State) (md : Mode) (n : Nat) :
    (s.retire md n).csLong = s.csLong := rfl
@[simp] theorem retire_csDefault32 (s : State) (md : Mode) (n : Nat) :
    (s.retire md n).csDefault32 = s.csDefault32 := rfl
@[simp] theorem retire_cr0 (s : State) (md : Mode) (n : Nat) :
    (s.retire md n).cr0 = s.cr0 := rfl
@[simp] theorem retire_cr4 (s : State) (md : Mode) (n : Nat) :
    (s.retire md n).cr4 = s.cr4 := rfl
@[simp] theorem retire_efer (s : State) (md : Mode) (n : Nat) :
    (s.retire md n).efer = s.efer := rfl
@[simp] theorem retire_xcr0 (s : State) (md : Mode) (n : Nat) :
    (s.retire md n).xcr0 = s.xcr0 := rfl
@[simp] theorem retire_features (s : State) (md : Mode) (n : Nat) :
    (s.retire md n).features = s.features := rfl
@[simp] theorem retire_mem (s : State) (md : Mode) (n : Nat) :
    (s.retire md n).mem = s.mem := rfl
@[simp] theorem retire_translation (s : State) (md : Mode) (n : Nat) :
    (s.retire md n).translation = s.translation := rfl
@[simp] theorem retire_linearWidth (s : State) (md : Mode) (n : Nat) :
    (s.retire md n).linearWidth = s.linearWidth := rfl
@[simp] theorem retire_suppression (s : State) (md : Mode) (n : Nat) :
    (s.retire md n).suppression = s.suppression := rfl
@[simp] theorem retire_alignmentCheck (s : State) (md : Mode) (n : Nat) :
    (s.retire md n).alignmentCheck = s.alignmentCheck := rfl
@[simp] theorem retire_endAddress (s : State) (md : Mode) (n : Nat) :
    (s.retire md n).endAddress = s.endAddress := rfl
@[simp] theorem retire_draws (s : State) (md : Mode) (n : Nat) :
    (s.retire md n).draws = s.draws + 1 := rfl

/-! ### `placeCode` -/

@[simp] theorem placeCode_zmm (s : State) (bs : List Byte) :
    (placeCode s bs).zmm = s.zmm := rfl
@[simp] theorem placeCode_fpr (s : State) (bs : List Byte) :
    (placeCode s bs).fpr = s.fpr := rfl
@[simp] theorem placeCode_x87Status (s : State) (bs : List Byte) :
    (placeCode s bs).x87Status = s.x87Status := rfl
@[simp] theorem placeCode_x87Tag (s : State) (bs : List Byte) :
    (placeCode s bs).x87Tag = s.x87Tag := rfl
@[simp] theorem placeCode_kreg (s : State) (bs : List Byte) :
    (placeCode s bs).kreg = s.kreg := rfl
@[simp] theorem placeCode_mxcsr (s : State) (bs : List Byte) :
    (placeCode s bs).mxcsr = s.mxcsr := rfl
@[simp] theorem placeCode_gpr (s : State) (bs : List Byte) :
    (placeCode s bs).gpr = s.gpr := rfl
@[simp] theorem placeCode_rip (s : State) (bs : List Byte) :
    (placeCode s bs).rip = s.rip := rfl
@[simp] theorem placeCode_rflags (s : State) (bs : List Byte) :
    (placeCode s bs).rflags = s.rflags := rfl
@[simp] theorem placeCode_es (s : State) (bs : List Byte) :
    (placeCode s bs).es = s.es := rfl
@[simp] theorem placeCode_cs (s : State) (bs : List Byte) :
    (placeCode s bs).cs = s.cs := rfl
@[simp] theorem placeCode_ss (s : State) (bs : List Byte) :
    (placeCode s bs).ss = s.ss := rfl
@[simp] theorem placeCode_ds (s : State) (bs : List Byte) :
    (placeCode s bs).ds = s.ds := rfl
@[simp] theorem placeCode_fs (s : State) (bs : List Byte) :
    (placeCode s bs).fs = s.fs := rfl
@[simp] theorem placeCode_gs (s : State) (bs : List Byte) :
    (placeCode s bs).gs = s.gs := rfl
@[simp] theorem placeCode_csLong (s : State) (bs : List Byte) :
    (placeCode s bs).csLong = s.csLong := rfl
@[simp] theorem placeCode_csDefault32 (s : State) (bs : List Byte) :
    (placeCode s bs).csDefault32 = s.csDefault32 := rfl
@[simp] theorem placeCode_cr0 (s : State) (bs : List Byte) :
    (placeCode s bs).cr0 = s.cr0 := rfl
@[simp] theorem placeCode_cr4 (s : State) (bs : List Byte) :
    (placeCode s bs).cr4 = s.cr4 := rfl
@[simp] theorem placeCode_efer (s : State) (bs : List Byte) :
    (placeCode s bs).efer = s.efer := rfl
@[simp] theorem placeCode_xcr0 (s : State) (bs : List Byte) :
    (placeCode s bs).xcr0 = s.xcr0 := rfl
@[simp] theorem placeCode_features (s : State) (bs : List Byte) :
    (placeCode s bs).features = s.features := rfl
@[simp] theorem placeCode_mem (s : State) (bs : List Byte) :
    (placeCode s bs).mem = s.mem.writeBytes s.rip bs := rfl
@[simp] theorem placeCode_translation (s : State) (bs : List Byte) :
    (placeCode s bs).translation = s.translation := rfl
@[simp] theorem placeCode_linearWidth (s : State) (bs : List Byte) :
    (placeCode s bs).linearWidth = s.linearWidth := rfl
@[simp] theorem placeCode_suppression (s : State) (bs : List Byte) :
    (placeCode s bs).suppression = s.suppression := rfl
@[simp] theorem placeCode_alignmentCheck (s : State) (bs : List Byte) :
    (placeCode s bs).alignmentCheck = s.alignmentCheck := rfl
@[simp] theorem placeCode_endAddress (s : State) (bs : List Byte) :
    (placeCode s bs).endAddress = s.endAddress := rfl
@[simp] theorem placeCode_draws (s : State) (bs : List Byte) :
    (placeCode s bs).draws = s.draws := rfl

/-! ### `launchReference` -/

@[simp] theorem launchReference_zmm (s : State) :
    (launchReference s).zmm = s.zmm := rfl
@[simp] theorem launchReference_fpr (s : State) :
    (launchReference s).fpr = s.fpr := rfl
@[simp] theorem launchReference_x87Status (s : State) :
    (launchReference s).x87Status = s.x87Status := rfl
@[simp] theorem launchReference_x87Tag (s : State) :
    (launchReference s).x87Tag = s.x87Tag := rfl
@[simp] theorem launchReference_kreg (s : State) :
    (launchReference s).kreg = s.kreg := rfl
@[simp] theorem launchReference_mxcsr (s : State) :
    (launchReference s).mxcsr = s.mxcsr := rfl
@[simp] theorem launchReference_gpr (s : State) :
    (launchReference s).gpr = s.gpr := rfl
@[simp] theorem launchReference_rip (s : State) :
    (launchReference s).rip = s.rip := rfl
@[simp] theorem launchReference_rflags (s : State) :
    (launchReference s).rflags = clearBits s.rflags 0x20000#64 := rfl
@[simp] theorem launchReference_es (s : State) :
    (launchReference s).es = s.es := rfl
@[simp] theorem launchReference_cs (s : State) :
    (launchReference s).cs =
      { s.cs with attributes := { s.cs.attributes with long := true, default32 := false } } := rfl
@[simp] theorem launchReference_ss (s : State) :
    (launchReference s).ss = s.ss := rfl
@[simp] theorem launchReference_ds (s : State) :
    (launchReference s).ds = s.ds := rfl
@[simp] theorem launchReference_fs (s : State) :
    (launchReference s).fs = s.fs := rfl
@[simp] theorem launchReference_gs (s : State) :
    (launchReference s).gs = s.gs := rfl
@[simp] theorem launchReference_csLong (s : State) :
    (launchReference s).csLong = true := rfl
@[simp] theorem launchReference_csDefault32 (s : State) :
    (launchReference s).csDefault32 = false := rfl
@[simp] theorem launchReference_cr0 (s : State) :
    (launchReference s).cr0 = setBits (clearBits s.cr0 0xC#64) 0x1#64 := rfl
@[simp] theorem launchReference_cr4 (s : State) :
    (launchReference s).cr4 = setBits s.cr4 0x40200#64 := rfl
@[simp] theorem launchReference_efer (s : State) :
    (launchReference s).efer = setBits s.efer 0x400#64 := rfl
@[simp] theorem launchReference_xcr0 (s : State) :
    (launchReference s).xcr0 = 0xE7#64 := rfl
@[simp] theorem launchReference_features (s : State) :
    (launchReference s).features = s.features := rfl
@[simp] theorem launchReference_mem (s : State) :
    (launchReference s).mem = s.mem := rfl
@[simp] theorem launchReference_translation (s : State) :
    (launchReference s).translation = [] := rfl
@[simp] theorem launchReference_linearWidth (s : State) :
    (launchReference s).linearWidth = s.linearWidth := rfl
@[simp] theorem launchReference_suppression (s : State) :
    (launchReference s).suppression = s.suppression := rfl
@[simp] theorem launchReference_alignmentCheck (s : State) :
    (launchReference s).alignmentCheck = s.alignmentCheck := rfl
@[simp] theorem launchReference_endAddress (s : State) :
    (launchReference s).endAddress = none := rfl
@[simp] theorem launchReference_draws (s : State) :
    (launchReference s).draws = s.draws := rfl

/-! ### Derived readings -/

@[simp] theorem writeZmm_mode (s : State) (i : BitVec 5) (v : VecReg) : (s.writeZmm i v).mode = s.mode := rfl
@[simp] theorem writeMm_mode (s : State) (i : BitVec 3) (v : BitVec 64) : (s.writeMm i v).mode = s.mode := rfl
@[simp] theorem retire_mode (s : State) (md : Mode) (n : Nat) : (s.retire md n).mode = s.mode := rfl

@[simp] theorem writeZmm_segment (s : State) (i : BitVec 5) (v : VecReg) (r : SegReg) :
    (s.writeZmm i v).segment r = s.segment r := by cases r <;> rfl
@[simp] theorem writeMm_segment (s : State) (i : BitVec 3) (v : BitVec 64) (r : SegReg) :
    (s.writeMm i v).segment r = s.segment r := by cases r <;> rfl
@[simp] theorem retire_segment (s : State) (md : Mode) (n : Nat) (r : SegReg) :
    (s.retire md n).segment r = s.segment r := by cases r <;> rfl

@[simp] theorem retire_readZmm (s : State) (md : Mode) (n : Nat) (j : BitVec 5) :
    (s.retire md n).readZmm j = s.readZmm j := rfl
@[simp] theorem retire_readMm (s : State) (md : Mode) (n : Nat) (j : BitVec 3) :
    (s.retire md n).readMm j = s.readMm j := rfl
@[simp] theorem retire_readFpr (s : State) (md : Mode) (n : Nat) (j : BitVec 3) :
    (s.retire md n).readFpr j = s.readFpr j := rfl
@[simp] theorem writeMm_readZmm (s : State) (i : BitVec 3) (v : BitVec 64) (j : BitVec 5) :
    (s.writeMm i v).readZmm j = s.readZmm j := rfl
@[simp] theorem writeZmm_readFpr (s : State) (i : BitVec 5) (v : VecReg) (j : BitVec 3) :
    (s.writeZmm i v).readFpr j = s.readFpr j := rfl
@[simp] theorem writeZmm_readMm (s : State) (i : BitVec 5) (v : VecReg) (j : BitVec 3) :
    (s.writeZmm i v).readMm j = s.readMm j := rfl

@[simp] theorem writeZmm_readRflags (s : State) (i : BitVec 5) (v : VecReg) :
    (s.writeZmm i v).readRflags = s.readRflags := rfl
@[simp] theorem writeMm_readRflags (s : State) (i : BitVec 3) (v : BitVec 64) :
    (s.writeMm i v).readRflags = s.readRflags := rfl
@[simp] theorem retire_readRflags (s : State) (md : Mode) (n : Nat) :
    (s.retire md n).readRflags = s.readRflags := rfl
@[simp] theorem writeZmm_readXcr0 (s : State) (i : BitVec 5) (v : VecReg) :
    (s.writeZmm i v).readXcr0 = s.readXcr0 := rfl
@[simp] theorem writeMm_readXcr0 (s : State) (i : BitVec 3) (v : BitVec 64) :
    (s.writeMm i v).readXcr0 = s.readXcr0 := rfl
@[simp] theorem retire_readXcr0 (s : State) (md : Mode) (n : Nat) :
    (s.retire md n).readXcr0 = s.readXcr0 := rfl

@[simp] theorem writeZmm_codeAddr (s : State) (i : BitVec 5) (v : VecReg) (md : Mode) (k : Nat) :
    codeAddr (s.writeZmm i v) md k = codeAddr s md k := by cases md <;> rfl
@[simp] theorem writeMm_codeAddr (s : State) (i : BitVec 3) (v : BitVec 64) (md : Mode) (k : Nat) :
    codeAddr (s.writeMm i v) md k = codeAddr s md k := by cases md <;> rfl

/-- RFLAGS as it reads: bit 1 is 1, every other bit is the stored one. -/
theorem getLsbD_readRflags (s : State) (j : Nat) :
    s.readRflags.getLsbD j = (s.rflags.getLsbD j || j == 1) := by
  by_cases h : j < 64
  · have h1 : ∀ j < 64, (0x2#64).getLsbD j = (j == 1) := by decide
    rw [State.readRflags, BitVec.getLsbD_or, h1 j h]
  · rw [BitVec.getLsbD_of_ge _ _ (by omega), BitVec.getLsbD_of_ge _ _ (by omega)]
    simp; omega

/-- XCR0 as it reads: bit 0 is 1, every other bit is the stored one. -/
theorem getLsbD_readXcr0 (s : State) (j : Nat) :
    s.readXcr0.getLsbD j = (s.xcr0.getLsbD j || j == 0) := by
  by_cases h : j < 64
  · have h1 : ∀ j < 64, (0x1#64).getLsbD j = (j == 0) := by decide
    rw [State.readXcr0, BitVec.getLsbD_or, h1 j h]
  · rw [BitVec.getLsbD_of_ge _ _ (by omega), BitVec.getLsbD_of_ge _ _ (by omega)]
    simp; omega

/-- A vector register read after a write. -/
theorem readZmm_writeZmm (s : State) (i j : BitVec 5) (v : VecReg) :
    (s.writeZmm i v).readZmm j = if j = i then v else s.readZmm j := by
  unfold State.readZmm State.writeZmm
  rw [Vector.getElem_set]
  by_cases h : j = i
  · simp [h]
  · have : ¬ i.toNat = j.toNat := fun e => h (BitVec.eq_of_toNat_eq e.symm)
    simp [h, this]

@[simp] theorem readZmm_writeZmm_same (s : State) (i : BitVec 5) (v : VecReg) :
    (s.writeZmm i v).readZmm i = v := by simp [readZmm_writeZmm]

theorem readZmm_writeZmm_other (s : State) {i j : BitVec 5} (v : VecReg) (h : j ≠ i) :
    (s.writeZmm i v).readZmm j = s.readZmm j := by simp [readZmm_writeZmm, h]

/-- An x87 register read after a write of an MMX register. -/
theorem readFpr_writeMm (s : State) (i j : BitVec 3) (v : BitVec 64) :
    (s.writeMm i v).readFpr j = if j = i then 0xFFFF#16 ++ v else s.readFpr j := by
  unfold State.readFpr State.writeMm
  rw [Vector.getElem_set]
  by_cases h : j = i
  · simp [h]
  · have : ¬ i.toNat = j.toNat := fun e => h (BitVec.eq_of_toNat_eq e.symm)
    simp [h, this]

@[simp] theorem readMm_writeMm_same (s : State) (i : BitVec 3) (v : BitVec 64) :
    (s.writeMm i v).readMm i = v := by
  simp only [State.readMm, readFpr_writeMm, if_true]
  apply BitVec.eq_of_getLsbD_eq
  intro j hj
  have h : (0xFFFF#16 ++ v).getLsbD j = v.getLsbD j := by rw [BitVec.getLsbD_append]; simp [hj]
  rw [BitVec.getLsbD_extractLsb']
  simpa [hj] using h

/-- The canonical form of memory holds after reset. -/
theorem reset_mem_wf : Memory.wf State.reset.mem := by
  simp [Memory.wf, State.reset]

end Sys2Proof.Machine
end

