-- ==== Sys2Proof/Laws/Exec.lean ====
section
/-!
SUPPORT. What a meaning can do: the inversion lemma of each shared form, the frame of every next state, and
when no exception applies.
-/

namespace Sys2Proof.Machine

/-! ### The first exception that applies -/

@[simp] theorem firstOf_nil : firstOf [] = none := rfl
@[simp] theorem firstOf_some (st : Stop) (l : List (Option Stop)) : firstOf (some st :: l) = some st := rfl
@[simp] theorem firstOf_none (l : List (Option Stop)) : firstOf (none :: l) = firstOf l := rfl

/-- No exception applies exactly when none of the conditions does. -/
theorem firstOf_eq_none {l : List (Option Stop)} : firstOf l = none ↔ ∀ o ∈ l, o = none := by
  induction l with
  | nil => simp
  | cons o l ih => cases o <;> simp [ih]

/-- The exception reported is one of the conditions that apply. -/
theorem mem_of_firstOf {l : List (Option Stop)} {st : Stop} (h : firstOf l = some st) : some st ∈ l := by
  induction l with
  | nil => simp at h
  | cons o l ih =>
    cases o with
    | none => simp at h; exact List.mem_cons_of_mem _ (ih h)
    | some x => simp at h; simp [h]

@[simp] theorem finish_none (t : State) : finish none t = .next t := rfl
@[simp] theorem finish_some (st : Stop) (t : State) : finish (some st) t = st.out := rfl
@[simp] theorem out_fault (f : Fault) : (Stop.fault f).out = .fault f := rfl
@[simp] theorem out_refuse (r : Refusal) : (Stop.refuse r).out = .refused r := rfl

theorem out_ne_next (st : Stop) (t : State) : st.out ≠ .next t := by cases st <;> simp [Stop.out]

/-- `finish` answers a next state only when no exception applies. -/
theorem finish_next {o : Option Stop} {t u : State} (h : finish o t = .next u) : o = none ∧ u = t := by
  cases o with
  | none => simpa [eq_comm] using h
  | some st => exact absurd h (out_ne_next st u)

@[simp] theorem udIf_false : udIf false = none := rfl
@[simp] theorem udIf_true : udIf true = some (raise .ud) := rfl

theorem udIf_eq_none {c : Bool} : udIf c = none ↔ c = false := by cases c <;> simp [udIf]

theorem nmStop_eq_none {s : State} : nmStop s = none ↔ s.ts = false := by
  unfold nmStop; cases s.ts <;> simp

/-! ### Inversion of the four forms -/

/-- An MMX row that answers a next state met no exception, and the next state is `mmxDone`. -/
theorem mmxForm_next {e : Elem} {l : LegInstr} {s t : State} (h : mmxForm e l s = .next t) :
    ∃ md, s.mode = some md ∧ mmxStop l md s = none ∧ t = mmxDone e l md s := by
  unfold mmxForm at h
  split at h
  · cases h
  · exact ⟨_, ‹_›, finish_next h⟩

/-- The same for a legacy SSE row. -/
theorem sseForm_next {e : Elem} {l : LegInstr} {s t : State} (h : sseForm e l s = .next t) :
    ∃ md, s.mode = some md ∧ sseRowStop l md s = none ∧ t = sseDone e l md s := by
  unfold sseForm at h
  split at h
  · cases h
  · exact ⟨_, ‹_›, finish_next h⟩

/-- The same for a VEX row. -/
theorem vexForm_next {e : Elem} {vl : Nat} {v : VexInstr} {s t : State}
    (h : vexForm e vl v s = .next t) :
    ∃ md, s.mode = some md ∧ vexStop vl v md s = none ∧ t = vexDone e vl v md s := by
  unfold vexForm at h
  split at h
  · cases h
  · exact ⟨_, ‹_›, finish_next h⟩

/-- The same for an EVEX row. -/
theorem evexForm_next {e : Elem} {vl : Nat} {i : EvexInstr} {s t : State}
    (h : evexForm e vl i s = .next t) :
    ∃ md, s.mode = some md ∧ evexStop e vl i md s = none ∧ t = evexDone e vl i md s := by
  unfold evexForm at h
  split at h
  · cases h
  · exact ⟨_, ‹_›, finish_next h⟩

/-! ### The rows as forms -/

@[simp] theorem exec_rowMmx (e : Elem) (l : LegInstr) (s : State) :
    exec (rowMmx e l) s = mmxForm e l s := by cases e <;> rfl

@[simp] theorem exec_rowSse (e : Elem) (l : LegInstr) (s : State) :
    exec (rowSse e l) s = sseForm e l s := by cases e <;> rfl

@[simp] theorem exec_rowVex (e : Elem) (n : VexLen) (v : VexInstr) (s : State) :
    exec (rowVex e n v) s = vexForm e n.bits v s := by cases e <;> cases n <;> rfl

@[simp] theorem exec_rowEvex (e : Elem) (n : EvexLen) (i : EvexInstr) (s : State) :
    exec (rowEvex e n i) s = evexForm e n.bits i s := by cases e <;> cases n <;> rfl

@[simp] theorem len_rowMmx (e : Elem) (l : LegInstr) : (rowMmx e l).len = l.len := by cases e <;> rfl
@[simp] theorem len_rowSse (e : Elem) (l : LegInstr) : (rowSse e l).len = l.len := by cases e <;> rfl
@[simp] theorem len_rowVex (e : Elem) (n : VexLen) (v : VexInstr) : (rowVex e n v).len = v.len := by
  cases e <;> cases n <;> rfl
@[simp] theorem len_rowEvex (e : Elem) (n : EvexLen) (i : EvexInstr) : (rowEvex e n i).len = i.len := by
  cases e <;> cases n <;> rfl

/-- Every instruction is a row of one of the four forms. -/
theorem instr_rows (i : Instr) :
    (∃ e l, i = rowMmx e l) ∨ (∃ e l, i = rowSse e l) ∨ (∃ e n v, i = rowVex e n v)
      ∨ ∃ e n x, i = rowEvex e n x := by
  cases i with
  | paddsbMm l => exact .inl ⟨.byte, l, rfl⟩
  | paddswMm l => exact .inl ⟨.word, l, rfl⟩
  | paddsbXmm l => exact .inr (.inl ⟨.byte, l, rfl⟩)
  | paddswXmm l => exact .inr (.inl ⟨.word, l, rfl⟩)
  | vpaddsbVex128 v => exact .inr (.inr (.inl ⟨.byte, .l128, v, rfl⟩))
  | vpaddswVex128 v => exact .inr (.inr (.inl ⟨.word, .l128, v, rfl⟩))
  | vpaddsbVex256 v => exact .inr (.inr (.inl ⟨.byte, .l256, v, rfl⟩))
  | vpaddswVex256 v => exact .inr (.inr (.inl ⟨.word, .l256, v, rfl⟩))
  | vpaddsbEvex128 x => exact .inr (.inr (.inr ⟨.byte, .l128, x, rfl⟩))
  | vpaddsbEvex256 x => exact .inr (.inr (.inr ⟨.byte, .l256, x, rfl⟩))
  | vpaddsbEvex512 x => exact .inr (.inr (.inr ⟨.byte, .l512, x, rfl⟩))
  | vpaddswEvex128 x => exact .inr (.inr (.inr ⟨.word, .l128, x, rfl⟩))
  | vpaddswEvex256 x => exact .inr (.inr (.inr ⟨.word, .l256, x, rfl⟩))
  | vpaddswEvex512 x => exact .inr (.inr (.inr ⟨.word, .l512, x, rfl⟩))

/-! ### Frames of the updates -/

theorem kept_writeMm_retire (s : State) (r : BitVec 3) (v : BitVec 64) (md : Mode) (n : Nat) :
    Kept s ((s.writeMm r v).retire md n) := by constructor <;> simp

theorem kept_writeZmm_retire (s : State) (r : BitVec 5) (v : VecReg) (md : Mode) (n : Nat) :
    Kept s ((s.writeZmm r v).retire md n) := by constructor <;> simp

theorem keptX87_writeZmm_retire (s : State) (r : BitVec 5) (v : VecReg) (md : Mode) (n : Nat) :
    KeptX87 s ((s.writeZmm r v).retire md n) := by simp [KeptX87]

theorem keptZmm_writeZmm_retire (s : State) (r : BitVec 5) (v : VecReg) (md : Mode) (n : Nat) :
    KeptZmmBut r s ((s.writeZmm r v).retire md n) := by
  intro j hj; simp [readZmm_writeZmm_other _ _ hj]

/-! ### When the memory checks pass -/

theorem formStop_none {s : State} {md : Mode} {p : Place} {i : Nat} (h : ByteReadable s md p i) :
    formStop s md p i = none := by
  obtain ⟨h1, h2, d, h3⟩ := h
  unfold formStop
  rw [if_neg, if_neg, h3]
  · rintro ⟨hm, hge⟩; exact absurd (h2 hm) (by omega)
  · rintro ⟨hm, hc⟩; rw [h1 hm] at hc; cases hc

theorem pageStop_none {s : State} {md : Mode} {p : Place} {i : Nat} (h : ByteReadable s md p i) :
    pageStop s md p i = none := by
  obtain ⟨-, -, d, h3⟩ := h
  simp [pageStop, h3]

theorem sseStop_none {s : State} {al : Align} {p : Place} (h : Aligned s al p) :
    sseStop s al p = none := by
  unfold sseStop
  rw [if_neg]
  rintro ⟨rfl, hc⟩
  simp [multipleOf, h.1, h.2] at hc

theorem acStop_none {s : State} {al : Align} {p : Place} (h : Aligned s al p) :
    acStop s al p = none := by
  unfold acStop
  rw [if_neg]
  rintro ⟨h1, h2, h3⟩
  have h2' : p.la.toNat % 8 ≠ 0 := by simpa [multipleOf] using h2
  cases al with
  | sse => have := h.1; omega
  | mmx => exact h2' (h h1)
  | vector =>
    rcases h h1 with h | h
    · exact h2' h
    · simp [h, Choice.pick] at h3

/-- A readable and aligned operand raises nothing. -/
theorem readStop_none {s : State} {md : Mode} {al : Align} {p : Place} {bytes : List Nat}
    (ha : Aligned s al p) (hb : ∀ i ∈ bytes, ByteReadable s md p i) :
    readStop s md al p bytes = none := by
  unfold readStop
  rw [firstOf_eq_none]
  intro o ho
  simp only [List.mem_cons, List.not_mem_nil, or_false] at ho
  rcases ho with rfl | rfl | rfl | rfl
  · rw [firstOf_eq_none]
    intro o ho
    obtain ⟨i, hi, rfl⟩ := List.mem_map.1 ho
    exact formStop_none (hb i hi)
  · exact sseStop_none ha
  · rw [firstOf_eq_none]
    intro o ho
    obtain ⟨i, hi, rfl⟩ := List.mem_map.1 ho
    exact pageStop_none (hb i hi)
  · exact acStop_none ha

theorem rmStop_none {s : State} {md : Mode} {al : Align} {c : AddrInfo} {n : Nat} {rm : Rm}
    (h : RmReady s md al c (· < n) rm) : rmStop s md al c n rm = none := by
  cases rm with
  | reg r => rfl
  | mem m => exact readStop_none h.1 fun i hi => h.2 i (List.mem_range.1 hi)

/-- With every byte readable no suppression matters. -/
theorem rmStopMasked_none {s : State} {md : Mode} {c : AddrInfo} {e : Elem} {k : Quad} {n : Nat}
    {rm : Rm} (h : RmReady s md .vector c (· < n) rm) : rmStopMasked s md c e k n rm = none := by
  cases rm with
  | reg r => rfl
  | mem m =>
    have h1 := readStop_none (bytes := List.range n) h.1 fun i hi => h.2 i (List.mem_range.1 hi)
    have h2 := readStop_none (bytes := enabledBytes e k n) h.1 fun i hi =>
      h.2 i (List.mem_range.1 (List.mem_of_mem_filter hi))
    simp only [rmStopMasked, maskedStop, h1, h2]
    cases s.suppression <;> rfl

/-- With suppression on, only the bytes of enabled elements need be readable. -/
theorem rmStopMasked_yes_none {s : State} {md : Mode} {c : AddrInfo} {e : Elem} {k : Quad} {n : Nat}
    {rm : Rm} (hs : s.suppression = .yes)
    (h : RmReady s md .vector c (fun i => i < n ∧ k.getLsbD (i / e.size) = true) rm) :
    rmStopMasked s md c e k n rm = none := by
  cases rm with
  | reg r => rfl
  | mem m =>
    have h2 := readStop_none (bytes := enabledBytes e k n) h.1 fun i hi => by
      obtain ⟨hi, hk⟩ := List.mem_filter.1 hi
      exact h.2 i ⟨List.mem_range.1 hi, hk⟩
    simp only [rmStopMasked, maskedStop, hs, h2]

/-! ### When no exception applies -/

theorem mmxStop_none {s : State} {md : Mode} {l : LegInstr} (he : MmxEnabled s l) (ht : s.ts = false)
    (hx : s.x87Es = false) (hr : RmReady s md .mmx (legAddr l s) (· < 8) l.rm) :
    mmxStop l md s = none := by
  obtain ⟨h1, h2, h3⟩ := he
  have hu : mmxUd s l = false := by simp [mmxUd, hasLock, h1, h2, h3]
  have hm : mfStop s = none := by simp [mfStop, hx]
  simp [mmxStop, hu, nmStop_eq_none.2 ht, hm, rmStop_none hr]

theorem sseRowStop_none {s : State} {md : Mode} {l : LegInstr} (he : SseEnabled s l)
    (ht : s.ts = false) (hr : RmReady s md .sse (legAddr l s) (· < 16) l.rm) :
    sseRowStop l md s = none := by
  obtain ⟨h1, h2, h3, h4⟩ := he
  have hu : sseUd s l = false := by simp [sseUd, hasLock, h1, h2, h3, h4]
  simp [sseRowStop, hu, nmStop_eq_none.2 ht, rmStop_none hr]

theorem noClash_eq {pfx : List Pfx} {rex : Option Rex} :
    NoClash pfx rex ↔ hasLock pfx = false ∧ hasVectorClash pfx rex = false := by
  unfold NoClash hasLock hasVectorClash
  cases rex <;> simp [and_assoc]

theorem vexFeature_eq (n : VexLen) (f : Features) : vexFeature n.bits f = n.feature f := by
  cases n <;> rfl

theorem evexFeature_eq (n : EvexLen) (f : Features) : evexFeature n.bits f = n.feature f := by
  cases n <;> simp [evexFeature, EvexLen.bits, EvexLen.feature]

theorem vectorModeUd_eq_false {md : Mode} : vectorModeUd md = false ↔ md ≠ .real ∧ md ≠ .v86 := by
  cases md <;> simp [vectorModeUd]

/-- A VEX row raises #UD exactly when it is not enabled (R162, R163). -/
theorem vexUd_eq_false {n : VexLen} {v : VexInstr} {md : Mode} {s : State} :
    vexUd n.bits v md s = false ↔ VexEnabled n s md v := by
  unfold VexEnabled
  rw [noClash_eq]
  simp only [vexUd, vexFeature_eq, State.avxEnabled, Bool.or_eq_false_iff, Bool.not_eq_false',
    beq_iff_eq, vectorModeUd_eq_false]
  tauto

/-- An EVEX row raises #UD exactly when it is not enabled (R162, R165). -/
theorem evexUd_eq_false {n : EvexLen} {i : EvexInstr} {md : Mode} {s : State} :
    evexUd n.bits i md s = false ↔ EvexEnabled n s md i := by
  unfold EvexEnabled
  rw [noClash_eq]
  simp only [evexUd, evexFeature_eq, evexBitsUd, State.avxEnabled, State.avx512Enabled,
    Bool.or_eq_false_iff, Bool.not_eq_false', beq_iff_eq, vectorModeUd_eq_false, bne_eq_false_iff_eq,
    Bool.and_eq_false_iff, beq_eq_false_iff_ne, not_and_or, Bool.not_eq_true, ne_eq]
  tauto

theorem vexStop_none {n : VexLen} {s : State} {md : Mode} {v : VexInstr} (he : VexEnabled n s md v)
    (ht : s.ts = false) (hr : RmReady s md .vector (vexAddr v s) (· < n.bits / 8) v.rm) :
    vexStop n.bits v md s = none := by
  simp [vexStop, vexUd_eq_false.2 he, nmStop_eq_none.2 ht, rmStop_none hr]

theorem evexStop_none {e : Elem} {n : EvexLen} {s : State} {md : Mode} {i : EvexInstr}
    (he : EvexEnabled n s md i) (ht : s.ts = false)
    (hr : RmReady s md .vector (evexAddr n.bits i s) (· < n.bits / 8) i.rm) :
    evexStop e n.bits i md s = none := by
  simp [evexStop, evexUd_eq_false.2 he, nmStop_eq_none.2 ht, rmStopMasked_none hr]

/-! ### When the last source operand stops an enabled row -/

/-- An enabled MMX row whose operand check stops ends so. -/
theorem exec_rowMmx_stop {e : Elem} {l : LegInstr} {s : State} {md : Mode} {st : Stop} (hm : s.mode = some md)
    (he : MmxEnabled s l) (ht : s.ts = false) (hx : s.x87Es = false)
    (h : rmStop s md .mmx (legAddr l s) 8 l.rm = some st) : exec (rowMmx e l) s = st.out := by
  obtain ⟨h1, h2, h3⟩ := he
  have hu : mmxUd s l = false := by simp [mmxUd, hasLock, h1, h2, h3]
  simp [mmxForm, hm, mmxStop, hu, nmStop_eq_none.2 ht, mfStop, hx, h]

/-- The same for a legacy SSE row. -/
theorem exec_rowSse_stop {e : Elem} {l : LegInstr} {s : State} {md : Mode} {st : Stop} (hm : s.mode = some md)
    (he : SseEnabled s l) (ht : s.ts = false)
    (h : rmStop s md .sse (legAddr l s) 16 l.rm = some st) : exec (rowSse e l) s = st.out := by
  obtain ⟨h1, h2, h3, h4⟩ := he
  have hu : sseUd s l = false := by simp [sseUd, hasLock, h1, h2, h3, h4]
  simp [sseForm, hm, sseRowStop, hu, nmStop_eq_none.2 ht, h]

/-- The same for a VEX row. -/
theorem exec_rowVex_stop {e : Elem} {n : VexLen} {v : VexInstr} {s : State} {md : Mode} {st : Stop}
    (hm : s.mode = some md) (he : VexEnabled n s md v) (ht : s.ts = false)
    (h : rmStop s md .vector (vexAddr v s) (n.bits / 8) v.rm = some st) :
    exec (rowVex e n v) s = st.out := by
  simp [vexForm, hm, vexStop, vexUd_eq_false.2 he, nmStop_eq_none.2 ht, h]

/-- The same for an EVEX row. -/
theorem exec_rowEvex_stop {e : Elem} {n : EvexLen} {i : EvexInstr} {s : State} {md : Mode} {st : Stop}
    (hm : s.mode = some md) (he : EvexEnabled n s md i) (ht : s.ts = false)
    (h : rmStopMasked s md (evexAddr n.bits i s) e (s.writemask i.aaa) (n.bits / 8) i.rm = some st) :
    exec (rowEvex e n i) s = st.out := by
  simp [evexForm, hm, evexStop, evexUd_eq_false.2 he, nmStop_eq_none.2 ht, h]

/-- The operand check under a writemask stops so when the check of all bytes does (unless they are suppressed)
and the check of the enabled bytes does (unless all are checked). -/
theorem rmStopMasked_some {s : State} {md : Mode} {c : AddrInfo} {e : Elem} {k : Quad} {n : Nat} {m : MemForm}
    {st : Stop}
    (hfull : s.suppression ≠ .yes → readStop s md .vector (place s md c m) (List.range n) = some st)
    (hpart : s.suppression ≠ .no →
      readStop s md .vector (place s md c m) (enabledBytes e k n) = some st) :
    rmStopMasked s md c e k n (.mem m) = some st := by
  unfold rmStopMasked maskedStop
  cases h : s.suppression with
  | yes => exact hpart (by simp [h])
  | no => exact hfull (by simp [h])
  | either => simp [hfull (by simp [h]), hpart (by simp [h])]

/-- The bytes of enabled elements, in the words of `ByteEnabled`. -/
theorem mem_enabledBytes {e : Elem} {x : EvexInstr} {s : State} {n i : Nat} (hn : n ≤ 64) :
    i ∈ enabledBytes e (s.writemask x.aaa) n ↔ i < n ∧ ByteEnabled e x s i := by
  unfold enabledBytes ByteEnabled State.writemask
  rw [List.mem_filter, List.mem_range]
  refine and_congr_right fun hi => ?_
  by_cases h : x.aaa = 0#3
  · have : i / e.size < 64 := lt_of_le_of_lt (Nat.div_le_self _ _) (by omega)
    rw [if_pos h, BitVec.getLsbD_allOnes]
    simp [h, this]
  · simp [h]

theorem range_sorted (n : Nat) : (List.range n).Pairwise (· < ·) := List.pairwise_lt_range

theorem enabledBytes_sorted (e : Elem) (k : Quad) (n : Nat) : (enabledBytes e k n).Pairwise (· < ·) :=
  (range_sorted n).filter _

/-- In a rising list the first byte with a stop decides. -/
theorem firstOf_map_first {l : List Nat} {f : Nat → Option Stop} {st : Stop} {j : Nat}
    (hl : l.Pairwise (· < ·)) (hj : j ∈ l) (h : ∀ i ∈ l, i < j → f i = none) (hf : f j = some st) :
    firstOf (l.map f) = some st := by
  induction l with
  | nil => cases hj
  | cons a l ih =>
    rw [List.pairwise_cons] at hl
    rcases List.mem_cons.1 hj with rfl | hj
    · simp [hf]
    · rw [List.map_cons, h a List.mem_cons_self (hl.1 j hj), firstOf_none]
      exact ih hl.2 hj fun i hi => h i (List.mem_cons_of_mem _ hi)

theorem firstOf_map_none {l : List Nat} {f : Nat → Option Stop} (h : ∀ i ∈ l, f i = none) :
    firstOf (l.map f) = none := by
  rw [firstOf_eq_none]
  intro o ho
  obtain ⟨i, hi, rfl⟩ := List.mem_map.1 ho
  exact h i hi

/-- Item 5 of R169 forbids nothing of a byte exactly when it is well formed. -/
theorem formStop_eq_none {s : State} {md : Mode} {p : Place} {i : Nat} :
    formStop s md p i = none ↔ ByteFormed s md p i := by
  unfold formStop ByteFormed
  split
  · rename_i h
    exact ⟨fun h' => absurd h' (by simp), fun h' => absurd (h'.1 h.1) (by simp [h.2])⟩
  · split
    · rename_i h
      exact ⟨fun h' => absurd h' (by simp), fun h' => absurd (h'.2.1 h.1) (by omega)⟩
    · rename_i h1 h2
      have h3 : md = .mode64 → canonical s.linearWidth (byteAddr md p i) = true := fun hm => by
        by_contra h; exact h1 ⟨hm, by simpa using h⟩
      have h4 : md = .real ∨ md = .v86 → p.ea.toNat + i < 2 ^ 16 := fun hm => by
        by_contra h; exact h2 ⟨hm, by omega⟩
      refine Iff.trans ?_ ⟨fun h => ⟨h3, h4, h⟩, fun h => h.2.2⟩
      cases s.translate .read p.seg (byteAddr md p i) <;> simp

/-! ### Fetching one byte -/

/-- All a fetch of one byte can answer but a stop: the byte of memory that `translate` gives for its address, which
wraps nowhere and is canonical in `Mode64`. -/
theorem fetchByte_eq_ok {s : State} {md : Mode} {k : Nat} {b : Byte} :
    fetchByte s md k = .ok b ↔
      codeOffsetStop s md k = none ∧ (codeAddr s md 0).toNat + k < 2 ^ spaceBits md
        ∧ (md = .mode64 → canonical s.linearWidth (codeAddr s md k) = true)
        ∧ ∃ d, s.translate .fetch .cs (codeAddr s md k) = .shift d ∧ b = s.loadByte (codeAddr s md k + d) := by
  unfold fetchByte
  cases codeOffsetStop s md k with
  | some st => simp
  | none =>
    dsimp only
    split
    · simp [Nat.not_lt.2 ‹_›]
    · split
      · rename_i h; simp [h.1 ▸ h.2, h.1]
      · rename_i h1 h2
        have h3 : md = .mode64 → canonical s.linearWidth (codeAddr s md k) = true := fun hm =>
          Bool.not_eq_false _ ▸ fun h => h2 ⟨hm, h⟩
        unfold fetchLinear
        split <;> rename_i h <;>
          simp only [h, Nat.lt_of_not_le h1, true_and, Except.ok.injEq, reduceCtorEq,
            TranslateVerdict.shift.injEq, false_and, exists_false, and_false, exists_eq_left']
        exact ⟨fun hb => ⟨h3, hb.symm⟩, fun hb => hb.2.symm⟩

/-- The next instruction's bytes go on where the last one's ended. -/
theorem codeAddr_retire (s : State) (md : Mode) (n k : Nat) :
    codeAddr (s.retire md n) md k = codeAddr s md (n + k) := by
  have h : BitVec.ofNat 64 (n + k) = BitVec.ofNat 64 n + BitVec.ofNat 64 k := BitVec.ofNat_add n k
  cases md <;> simp only [codeAddr, retire_rip, retire_cs, nextRip, h, lowBits] <;> bv_omega

/-! ### The next state of any instruction -/

/-- Every next state of an instruction is the old one with one MMX or one vector register written, retired. -/
theorem exec_next {i : Instr} {s t : State} (h : exec i s = .next t) :
    ∃ md, s.mode = some md ∧ ((∃ r v, t = (s.writeMm r v).retire md i.len)
      ∨ ∃ r v, t = (s.writeZmm r v).retire md i.len) := by
  rcases instr_rows i with ⟨e, l, rfl⟩ | ⟨e, l, rfl⟩ | ⟨e, n, v, rfl⟩ | ⟨e, n, x, rfl⟩
  · rw [exec_rowMmx] at h
    obtain ⟨md, hm, -, rfl⟩ := mmxForm_next h
    exact ⟨md, hm, .inl ⟨l.reg, mmxResult e l md s, by rw [len_rowMmx]; rfl⟩⟩
  · rw [exec_rowSse] at h
    obtain ⟨md, hm, -, rfl⟩ := sseForm_next h
    exact ⟨md, hm, .inr ⟨l.xmmDst, keepUpper (s.readZmm l.xmmDst) (sseResult e l md s), by
      rw [len_rowSse]; rfl⟩⟩
  · rw [exec_rowVex] at h
    obtain ⟨md, hm, -, rfl⟩ := vexForm_next h
    exact ⟨md, hm, .inr ⟨v.dst, vexResult e n.bits v md s, by rw [len_rowVex]; rfl⟩⟩
  · rw [exec_rowEvex] at h
    obtain ⟨md, hm, -, rfl⟩ := evexForm_next h
    exact ⟨md, hm, .inr ⟨x.dst, evexResult e n.bits x md s, by rw [len_rowEvex]; rfl⟩⟩

/-- A step that answers a next state ran the instruction it decoded. -/
theorem step_next {s t : State} (h : step s = .next t) :
    ∃ md i rest, s.mode = some md ∧ s.endAddress ≠ some s.rip
      ∧ decode md (fetchFrom s md maxLen 0).1 = .ok (.row i) rest ∧ exec i s = .next t := by
  unfold step at h
  split at h
  · cases h
  · rename_i he
    split at h
    · cases h
    · rename_i md hm
      split at h
      · rename_i i rest hd
        exact ⟨md, i, rest, hm, he, hd, h⟩
      · exact absurd h (out_ne_next _ t)
      · exact absurd h (out_ne_next _ t)
      · cases h

end Sys2Proof.Machine
end

