-- ==== Sys2Proof/Laws/Memory.lean ====
section
/-!
SUPPORT. Memory: what a read finds after a write, and that every memory operation keeps the canonical form.
-/

namespace Sys2Proof.Machine

@[simp] theorem read_nil (a : Nat) : Memory.read [] a = Config.unlistedByte := rfl

/-- In a list of rising addresses, an address below the first is not listed. -/
theorem read_below {m : Memory} {a : Nat} (h : ∀ c ∈ m, a < c.1) :
    Memory.read m a = Config.unlistedByte := by
  induction m with
  | nil => rfl
  | cons c m ih =>
    have hc : a < c.1 := h c (by simp)
    have : c.1 ≠ a := by omega
    simp [Memory.read, this, ih fun d hd => h d (by simp [hd])]

/-- Rising addresses. -/
theorem pairwise_cons {c : Host.Cell} {m : Memory}
    (h : ((c :: m).map Prod.fst).Pairwise (· < ·)) :
    (∀ d ∈ m, c.1 < d.1) ∧ (m.map Prod.fst).Pairwise (· < ·) := by
  simp only [List.map_cons, List.pairwise_cons, List.mem_map] at h
  exact ⟨fun d hd => h.1 d.1 ⟨d, hd, rfl⟩, h.2⟩

/-- The address just written reads as what was written; every other address reads as before. -/
theorem read_write {m : Memory} (hm : (m.map Prod.fst).Pairwise (· < ·)) (a x : Nat) (b : Byte) :
    (m.write a b).read x = if x = a then b else m.read x := by
  induction m with
  | nil =>
    by_cases hb : b = Config.unlistedByte
    · simp [Memory.write, hb]
    · by_cases hx : x = a
      · simp [Memory.write, hb, Memory.read, hx]
      · simp [Memory.write, hb, Memory.read, hx, Ne.symm hx]
  | cons c m ih =>
    obtain ⟨k, v⟩ := c
    obtain ⟨hk, hm'⟩ := pairwise_cons hm
    have low : ∀ y, y ≤ k → Memory.read m y = Config.unlistedByte := fun y hy =>
      read_below fun d hd => lt_of_le_of_lt hy (hk d hd)
    unfold Memory.write
    by_cases h1 : a < k
    · by_cases hx : x = a
      · subst hx
        have : k ≠ x := by omega
        by_cases hb : b = Config.unlistedByte <;> simp [h1, hb, Memory.read, this, low x h1.le]
      · by_cases hb : b = Config.unlistedByte <;>
          simp [h1, hb, Memory.read, hx, Ne.symm hx]
    · by_cases h2 : a = k
      · subst h2
        by_cases hx : x = a
        · by_cases hb : b = Config.unlistedByte <;> simp [hb, Memory.read, hx, low a le_rfl]
        · by_cases hb : b = Config.unlistedByte <;> simp [hb, Memory.read, hx, Ne.symm hx]
      · simp only [h1, h2, if_false, Memory.read, ih hm']
        by_cases hx : x = a
        · have : k ≠ x := by omega
          simp [hx, Ne.symm h2]
        · simp [hx]

/-- Every entry of a written memory is the written one or an old one. -/
theorem mem_write {m : Memory} {a : Nat} {b : Byte} {c : Host.Cell} (h : c ∈ m.write a b) :
    (c = (a, b) ∧ b ≠ Config.unlistedByte) ∨ c ∈ m := by
  induction m with
  | nil =>
    by_cases hb : b = Config.unlistedByte <;> simp [Memory.write, hb] at h
    exact .inl ⟨h, hb⟩
  | cons d m ih =>
    obtain ⟨k, v⟩ := d
    unfold Memory.write at h
    split at h
    · split at h
      · exact .inr h
      · rename_i hb
        rcases List.mem_cons.1 h with h | h
        · exact .inl ⟨h, hb⟩
        · exact .inr h
    · split at h
      · split at h
        · exact .inr (List.mem_cons_of_mem _ h)
        · rename_i hb
          rcases List.mem_cons.1 h with h | h
          · exact .inl ⟨h, hb⟩
          · exact .inr (List.mem_cons_of_mem _ h)
      · rcases List.mem_cons.1 h with h | h
        · exact .inr (by simp [h])
        · rcases ih h with h | h
          · exact .inl h
          · exact .inr (List.mem_cons_of_mem _ h)

/-- A write keeps the addresses rising. -/
theorem write_rising {m : Memory} (hm : (m.map Prod.fst).Pairwise (· < ·)) (a : Nat) (b : Byte) :
    ((m.write a b).map Prod.fst).Pairwise (· < ·) := by
  induction m with
  | nil => by_cases hb : b = Config.unlistedByte <;> simp [Memory.write, hb]
  | cons c m ih =>
    obtain ⟨k, v⟩ := c
    obtain ⟨hk, hm'⟩ := pairwise_cons hm
    unfold Memory.write
    split
    · rename_i h1
      split
      · exact hm
      · simp only [List.map_cons, List.pairwise_cons, List.mem_cons, List.mem_map] at hm ⊢
        refine ⟨?_, hm⟩
        rintro x (rfl | ⟨d, hd, rfl⟩)
        · exact h1
        · exact h1.trans (hk d hd)
    · rename_i h1
      split
      · rename_i h2
        subst h2
        split
        · exact hm'
        · simpa using hm
      · rename_i h2
        simp only [List.map_cons, List.pairwise_cons, List.mem_map]
        refine ⟨?_, ih hm'⟩
        rintro x ⟨d, hd, rfl⟩
        rcases mem_write hd with ⟨rfl, -⟩ | hd
        · show k < a; omega
        · exact hk d hd

/-- A write at a 64-bit address keeps the canonical form. -/
theorem write_wf {m : Memory} (hm : Memory.wf m) {a : Nat} (ha : a < 2 ^ 64) (b : Byte) :
    Memory.wf (m.write a b) := by
  refine ⟨write_rising hm.1 a b, fun c hc => ?_⟩
  rcases mem_write hc with ⟨rfl, hb⟩ | hc
  · exact ⟨ha, hb⟩
  · exact hm.2 c hc

theorem writeBytes_wf {m : Memory} (hm : Memory.wf m) (a : Quad) (bs : List Byte) :
    Memory.wf (m.writeBytes a bs) := by
  induction bs generalizing m a with
  | nil => exact hm
  | cons b bs ih => exact ih (write_wf hm a.isLt b) (a + 1#64)

theorem memWrite_wf {m : Memory} (hm : Memory.wf m) (a : Quad) (n : Nat) (v : VecReg) :
    Memory.wf (memWrite m a n v) := writeBytes_wf hm a _

end Sys2Proof.Machine
end

