-- ==== Sys2Proof/Laws/PerInstr.lean ====
section
/-!
SUPPORT. Statements made per instruction. `EncodeLength`: the encoder writes as many bytes as `Instr.len`
counts (30_encoding.md R95).
-/

namespace Sys2Proof.Laws.EncodeLength

/-- The encoding of an instruction has `ilen` bytes. -/
def Statement (i : Instr) : Prop := (encode i).length = i.len

theorem paddsbMm (l : LegInstr) : Statement (.paddsbMm l) := LegInstr.bytes_length _ _

theorem paddsbXmm (l : LegInstr) : Statement (.paddsbXmm l) := LegInstr.bytes_length _ _

theorem paddswMm (l : LegInstr) : Statement (.paddswMm l) := LegInstr.bytes_length _ _

theorem paddswXmm (l : LegInstr) : Statement (.paddswXmm l) := LegInstr.bytes_length _ _

theorem vpaddsbVex128 (v : VexInstr) : Statement (.vpaddsbVex128 v) := VexInstr.bytes_length _ _ _

theorem vpaddswVex128 (v : VexInstr) : Statement (.vpaddswVex128 v) := VexInstr.bytes_length _ _ _

theorem vpaddsbVex256 (v : VexInstr) : Statement (.vpaddsbVex256 v) := VexInstr.bytes_length _ _ _

theorem vpaddswVex256 (v : VexInstr) : Statement (.vpaddswVex256 v) := VexInstr.bytes_length _ _ _

theorem vpaddsbEvex128 (e : EvexInstr) : Statement (.vpaddsbEvex128 e) := EvexInstr.bytes_length _ _ _

theorem vpaddsbEvex256 (e : EvexInstr) : Statement (.vpaddsbEvex256 e) := EvexInstr.bytes_length _ _ _

theorem vpaddsbEvex512 (e : EvexInstr) : Statement (.vpaddsbEvex512 e) := EvexInstr.bytes_length _ _ _

theorem vpaddswEvex128 (e : EvexInstr) : Statement (.vpaddswEvex128 e) := EvexInstr.bytes_length _ _ _

theorem vpaddswEvex256 (e : EvexInstr) : Statement (.vpaddswEvex256 e) := EvexInstr.bytes_length _ _ _

theorem vpaddswEvex512 (e : EvexInstr) : Statement (.vpaddswEvex512 e) := EvexInstr.bytes_length _ _ _

end Sys2Proof.Laws.EncodeLength
end

