-- ==== Sys2Proof/Laws/Results.lean ====
section
/-!
SUPPORT. What the shared operations under the meanings compute: saturated lanes, address arithmetic, the
parts of a register that a write keeps, operand bytes, and how a checked read can stop.
-/

namespace Sys2Proof.Machine

/-! ### Lanes and registers -/

/-- A saturated lane is the clamped exact sum (R120, R121). -/
theorem satAdd_toInt (e : Elem) (a b : BitVec e.bits) :
    (satAdd e a b).toInt = clampSigned e.bits (a.toInt + b.toInt) := by
  cases e
  · simpa [satAdd, clampSigned] using satByte_toInt _
  · simpa [satAdd, clampSigned] using satWord_toInt _

/-- A lane depends on the bits below the vector length only. -/
theorem lane_congr {e : Elem} {u v : VecReg} {n i : Nat} (h : ∀ j < n, u.getLsbD j = v.getLsbD j)
    (hi : i < n / e.bits) : lane e u i = lane e v i := by
  apply BitVec.eq_of_getLsbD_eq
  intro j hj
  have hle : e.bits * (i + 1) ≤ n := le_trans (Nat.mul_le_mul_left _ hi) (Nat.mul_div_le n e.bits)
  rw [Nat.mul_succ] at hle
  rw [lane, lane, BitVec.getLsbD_extractLsb', BitVec.getLsbD_extractLsb', h _ (by omega)]

/-- A legacy SSE write replaces bits 127:0 (R127). -/
theorem keepUpper_low (o v : VecReg) {j : Nat} (hj : j < 128) :
    (keepUpper o v).getLsbD j = v.getLsbD j := by
  show (o.extractLsb' 128 384 ++ v.extractLsb' 0 128).getLsbD j = _
  rw [BitVec.getLsbD_append]
  simp only [BitVec.getLsbD_extractLsb']
  simp [hj]

/-- A legacy SSE write keeps the bits from 128 up (R127). -/
theorem keepUpper_high (o v : VecReg) {j : Nat} (hj : 128 ≤ j) :
    (keepUpper o v).getLsbD j = o.getLsbD j := by
  by_cases h : j < 512
  · show (o.extractLsb' 128 384 ++ v.extractLsb' 0 128).getLsbD j = _
    rw [BitVec.getLsbD_append]
    have h1 : ¬ j < 128 := by omega
    have h2 : j - 128 < 384 := by omega
    have h3 : 128 + (j - 128) = j := by omega
    simp only [BitVec.getLsbD_extractLsb']
    simp [h1, h2, h3]
  · rw [BitVec.getLsbD_of_ge _ _ (by omega), BitVec.getLsbD_of_ge _ _ (by omega)]

/-- The status-word mask of an MMX write clears TOP and nothing else (R23). -/
theorem clearTop (x : BitVec 16) :
    (x &&& 0xC7FF#16).extractLsb' 11 3 = 0#3
      ∧ ∀ j, ¬ (11 ≤ j ∧ j ≤ 13) → (x &&& 0xC7FF#16).getLsbD j = x.getLsbD j := by
  constructor
  · apply BitVec.eq_of_getLsbD_eq
    intro j hj
    have : ∀ j < 3, (0xC7FF#16 : BitVec 16).getLsbD (11 + j) = false := by decide
    rw [BitVec.getLsbD_extractLsb', BitVec.getLsbD_and]
    simp [this j hj]
  · intro j hj
    rw [BitVec.getLsbD_and]
    by_cases h : j < 16
    · have : ∀ j < 16, ¬ (11 ≤ j ∧ j ≤ 13) → (0xC7FF#16 : BitVec 16).getLsbD j = true := by decide
      simp [this j h hj]
    · rw [BitVec.getLsbD_of_ge x j (by omega)]; simp

/-! ### Addresses -/

theorem lowBits_toNat {n : Nat} (hn : n ≤ 64) (a : Quad) : (lowBits n a).toNat = a.toNat % 2 ^ n := by
  simp only [lowBits, BitVec.toNat_setWidth]
  exact Nat.mod_eq_of_lt
    (lt_of_lt_of_le (Nat.mod_lt _ (by positivity)) (Nat.pow_le_pow_right (by decide) hn))

theorem lowBits_64 (a : Quad) : lowBits 64 a = a := by simp [lowBits]

theorem lowBits_add {n : Nat} (hn : n ≤ 64) (a b : Quad) :
    lowBits n (lowBits n a + b) = lowBits n (a + b) := by
  apply BitVec.eq_of_toNat_eq
  have hd : 2 ^ n ∣ 2 ^ 64 := pow_dvd_pow 2 hn
  rw [lowBits_toNat hn, lowBits_toNat hn, BitVec.toNat_add, BitVec.toNat_add, lowBits_toNat hn,
    Nat.mod_mod_of_dvd _ hd, Nat.mod_mod_of_dvd _ hd]
  simp [Nat.add_mod]

/-- RIP after an instruction (R27). -/
theorem nextRip_mode64 (rip : Quad) (n : Nat) : nextRip .mode64 rip n = rip + BitVec.ofNat 64 n := rfl

theorem nextRip_toNat {md : Mode} (h : md ≠ .mode64) (rip : Quad) (n : Nat) :
    (nextRip md rip n).toNat = (rip.toNat + n) % 2 ^ 32 := by
  have h1 : nextRip md rip n = lowBits 32 (rip + BitVec.ofNat 64 n) := by
    cases md
    · exact absurd rfl h
    · rfl
    · rfl
    · rfl
  rw [h1, lowBits_toNat (by decide)]
  simp [BitVec.toNat_add, Nat.add_mod]

/-! ### Operands -/

theorem rmValue_eq (s : State) (md : Mode) (c : AddrInfo) (n : Nat) (f : BitVec 3 → VecReg) (rm : Rm) :
    rmValue s md c n f rm =
      match rm with
      | .reg r => f r
      | .mem m => operandValue s md (place s md c m) n := by cases rm <;> rfl

/-- With no translation rule an operand's byte is the byte of memory at its linear address (R58). -/
theorem operandByte_identity {s : State} {md : Mode} {p : Place} {i : Nat} (h : s.translation = []) :
    operandByte s md p i = Memory.read s.mem (byteAddr md p i).toNat := by
  simp [operandByte, State.translate, h, translateBy, State.loadByte]

/-- What a byte reads as after consecutive bytes have been stored (R57). -/
theorem read_writeBytes {m : Memory} (hm : Memory.wf m) (a : Quad) (bs : List Byte)
    (ha : a.toNat + bs.length ≤ 2 ^ 64) (x : Nat) :
    Memory.read (m.writeBytes a bs) x =
      if h : a.toNat ≤ x ∧ x < a.toNat + bs.length then bs[x - a.toNat]'(by omega)
      else Memory.read m x := by
  induction bs generalizing m a with
  | nil => simp [Memory.writeBytes]
  | cons b bs ih =>
    simp only [Memory.writeBytes, List.length_cons] at *
    by_cases hb : bs = []
    · subst hb
      simp only [Memory.writeBytes, List.length_nil, zero_add]
      rw [read_write hm.1]
      by_cases h : x = a.toNat
      · subst h; simp
      · have : ¬ (a.toNat ≤ x ∧ x < a.toNat + 1) := by omega
        rw [if_neg h, dif_neg this]
    · have hl : 0 < bs.length := List.length_pos_of_ne_nil hb
      have h1 : (a + 1#64).toNat = a.toNat + 1 := by rw [BitVec.toNat_add]; simp; omega
      rw [ih (write_wf hm a.isLt b) (a + 1#64) (by omega), read_write hm.1]
      simp only [h1]
      by_cases h : x = a.toNat
      · subst h; simp
      · by_cases h2 : a.toNat + 1 ≤ x ∧ x < a.toNat + 1 + bs.length
        · have h3 : a.toNat ≤ x ∧ x < a.toNat + (bs.length + 1) := by omega
          have h4 : x - a.toNat = x - (a.toNat + 1) + 1 := by omega
          rw [dif_pos h2, dif_pos h3]
          simp [h4]
        · have h3 : ¬ (a.toNat ≤ x ∧ x < a.toNat + (bs.length + 1)) := by omega
          rw [dif_neg h2, dif_neg h3, if_neg h]

/-! ### How a checked read can stop -/

/-- The stops of a data read: #SS(0), #GP(0), #AC(0), #PF with a byte's address, or a rejection by a
translation rule (R163 to R168). -/
def IsReadStop (s : State) (md : Mode) (p : Place) (st : Stop) : Prop :=
  st = raise .ss ∨ st = raise .gp ∨ st = raise .ac
    ∨ (∃ b rsvd i, st = raisePf (pfCode b rsvd s.cpl .read) (byteAddr md p i))
    ∨ (st = .refuse .translateRejects ∧ s.translation ≠ [])

theorem segFault_isReadStop (s : State) (md : Mode) (p : Place) (r : SegReg) :
    IsReadStop s md p (segFault r) := by
  unfold segFault IsReadStop; split <;> simp

theorem formStop_some {s : State} {md : Mode} {p : Place} {i : Nat} {st : Stop}
    (h : formStop s md p i = some st) : IsReadStop s md p st := by
  unfold formStop at h
  split at h
  · obtain rfl := Option.some.inj h; exact segFault_isReadStop ..
  · split at h
    · obtain rfl := Option.some.inj h; simp [IsReadStop]
    · split at h <;> first | (obtain rfl := Option.some.inj h; simp [IsReadStop]) | cases h

theorem pageStop_some {s : State} {md : Mode} {p : Place} {i : Nat} {st : Stop}
    (h : pageStop s md p i = some st) : IsReadStop s md p st := by
  unfold pageStop at h
  split at h
  · obtain rfl := Option.some.inj h
    exact .inr (.inr (.inr (.inl ⟨_, _, _, rfl⟩)))
  · rename_i hr
    obtain rfl := Option.some.inj h
    refine .inr (.inr (.inr (.inr ⟨rfl, fun ht => ?_⟩)))
    simp [State.translate, ht, translateBy] at hr
  · cases h
  · cases h
  · cases h

theorem sseStop_some {s : State} {al : Align} {p : Place} {st : Stop} (h : sseStop s al p = some st) :
    st = raise .gp := by
  have : ∀ c : Prop, [Decidable c] → (if c then some (raise .gp) else none) = some st →
      st = raise .gp := by
    intro c _ h
    split at h
    · exact (Option.some.inj h).symm
    · cases h
  exact this _ h

theorem acStop_some {s : State} {al : Align} {p : Place} {st : Stop} (h : acStop s al p = some st) :
    st = raise .ac := by
  have : ∀ c : Prop, [Decidable c] → (if c then some (raise .ac) else none) = some st →
      st = raise .ac := by
    intro c _ h
    split at h
    · exact (Option.some.inj h).symm
    · cases h
  exact this _ h

theorem readStop_some {s : State} {md : Mode} {al : Align} {p : Place} {bytes : List Nat} {st : Stop}
    (h : readStop s md al p bytes = some st) : IsReadStop s md p st := by
  have hm := mem_of_firstOf h
  simp only [List.mem_cons, List.not_mem_nil, or_false] at hm
  rcases hm with h | h | h | h
  · obtain ⟨i, -, h⟩ := List.mem_map.1 (mem_of_firstOf h.symm)
    exact formStop_some h
  · simp [IsReadStop, sseStop_some h.symm]
  · obtain ⟨i, -, h⟩ := List.mem_map.1 (mem_of_firstOf h.symm)
    exact pageStop_some h
  · simp [IsReadStop, acStop_some h.symm]

/-- With or without suppression a masked read stops as a read does (R165). -/
theorem maskedStop_some {s : State} {full part : Option Stop} {st : Stop}
    (h : maskedStop s full part = some st) : full = some st ∨ part = some st := by
  unfold maskedStop at h
  split at h
  · exact .inr h
  · exact .inl h
  · split at h
    · exact .inl h
    · split at h
      · exact .inr h
      · exact .inl h

end Sys2Proof.Machine
end

