-- ==== Sys2Proof/Tests/Slice0.lean ====
section
/-!
SUPPORT. Tests: well-formedness, decoding, single steps, and a witness for the hypotheses of every obligation.
Words and expected results are those of 95_test_vectors.md, named in each comment, unless it says otherwise.
-/

namespace Sys2Proof.Tests

set_option Elab.async false

open Machine

/-! ### Helpers -/

/-- The attributes of a present code segment with the given L and D bits. -/
def codeAttr (long default32 : Bool) : Attributes := ⟨11#4, true, long, default32⟩

/-- The reference configuration, CPL = 3, `pc = 1000H`. -/
def ref : State :=
  { launchReference State.reset with rip := 0x1000#64, cs := ⟨3#16, 0#64, 0xFFFF#32, codeAttr true false⟩ }

/-- `Compat32` with the reference bits. -/
def compat : State := { ref with efer := 0#64, cs := ⟨3#16, 0#64, 0xFFFF#32, codeAttr false true⟩ }

def a64 : BitVec 64 := 0x7F80FF017F40C012#64
def b64 : BitVec 64 := 0x0180FF7F7F40C034#64
def a128 : VecReg := 0x7F7F80800102FEFD7FFF80000001FFFF#512
def b128 : VecReg := 0x01FF80FF7F7E020300018000FFFF0001#512
def resB : VecReg := 0x7F7E80807F7F00007F008000FF00FF00#512
def resW : VecReg := 0x7FFF80007FFF01007FFF800000000000#512

/-- `lo` in bits 127:0, ones above. -/
def onesAbove (lo : VecReg) : VecReg := (BitVec.allOnes 512 <<< 128) ||| lo

/-- `n` copies of a value of `w` bits. -/
def copies (w : Nat) (v : BitVec w) (n : Nat) : VecReg := pack w (fun _ => v) n

/-- The sixteen bytes at 2000H of 95_test_vectors.md 2.7. -/
def data : List Byte :=
  [0x01#8, 0x00#8, 0xFF#8, 0xFF#8, 0x00#8, 0x80#8, 0xFF#8, 0x7F#8,
    0x01#8, 0xFF#8, 0x7F#8, 0x7E#8, 0x02#8, 0x03#8, 0x80#8, 0xFF#8]

def setGpr (s : State) (r : BitVec 4) (v : Quad) : State := { s with gpr := s.gpr.set r.toNat v r.isLt }

def setK (s : State) (r : BitVec 3) (v : Quad) : State := { s with kreg := s.kreg.set r.toNat v r.isLt }

/-- One step on code placed at RIP. -/
def run (s : State) (bs : List Byte) : Host.Outcome State Fault Refusal := step (placeCode s bs)

/-- The outcome is a next state with a property. -/
def after (o : Host.Outcome State Fault Refusal) (p : State → Bool) : Bool :=
  match o with
  | .next t => p t
  | .fault _ => false
  | .refused _ => false

def faults (o : Host.Outcome State Fault Refusal) (f : Fault) : Bool :=
  match o with
  | .next _ => false
  | .fault g => g == f
  | .refused _ => false

def refuses (o : Host.Outcome State Fault Refusal) (r : Refusal) : Bool :=
  match o with
  | .next _ => false
  | .fault _ => false
  | .refused q => q == r

theorem next_of {o : Host.Outcome State Fault Refusal} (h : after o (fun _ => true) = true) :
    ∃ t, o = .next t := by
  cases o with
  | next t => exact ⟨t, rfl⟩
  | fault _ => cases h
  | refused _ => cases h

/-- The bytes decode to the instruction, and the instruction encodes to the bytes. -/
def reads (md : Mode) (bs : List Byte) (i : Instr) : Bool :=
  decode md bs == .ok (.row i) [] && encode i == bs

/-! ### Well-formedness: a good term, and an ill-formed one for each check -/

theorem test_wf_good :
    Instr.wf .mode64 (.paddsbXmm ⟨[.seg .fs, .addrSize, .opSize], some ⟨true, true, true, true⟩, 7#3,
      .mem (.sib 3#2 7#3 7#3 (.d32 5#32))⟩) = true := by decide

theorem test_wf_repeated_prefix :
    Instr.wf .mode64 (.paddsbMm ⟨[.addrSize, .addrSize], none, 0#3, .reg 0#3⟩) = false := by decide

theorem test_wf_two_segments :
    Instr.wf .mode64 (.paddsbMm ⟨[.seg .cs, .seg .ds], none, 0#3, .reg 0#3⟩) = false := by decide

theorem test_wf_rex_outside_mode64 :
    Instr.wf .compat32 (.paddsbMm ⟨[], some ⟨false, false, false, false⟩, 0#3, .reg 0#3⟩) = false := by decide

theorem test_wf_sib_escape_as_base :
    Instr.wf .mode64 (.paddsbMm ⟨[], none, 0#3, .mem (.base 4#3 .none)⟩) = false := by decide

theorem test_wf_disp32_row_as_base :
    Instr.wf .mode64 (.paddsbMm ⟨[], none, 0#3, .mem (.base 5#3 .none)⟩) = false
      ∧ Instr.wf .mode64 (.paddsbMm ⟨[], none, 0#3, .mem (.sib 0#2 0#3 5#3 .none)⟩) = false := by decide

theorem test_wf_address_size :
    Instr.wf .mode64 (.paddsbMm ⟨[], none, 0#3, .mem (.base16 0#3 .none)⟩) = false
      ∧ Instr.wf .mode64 (.paddsbMm ⟨[], none, 0#3, .mem (.disp16 0#16)⟩) = false
      ∧ Instr.wf .compat32 (.paddsbMm ⟨[.addrSize], none, 0#3, .mem (.disp 0#32)⟩) = false
      ∧ Instr.wf .compat32 (.paddsbMm ⟨[.addrSize], none, 0#3, .mem (.base16 6#3 .none)⟩) = false := by decide

theorem test_wf_rep :
    Instr.wf .mode64 (.paddsbMm ⟨[.rep], none, 0#3, .reg 0#3⟩) = false
      ∧ Instr.wf .mode64 (.paddsbMm ⟨[.repne], none, 0#3, .reg 0#3⟩) = false := by decide

theorem test_wf_operand_size :
    Instr.wf .mode64 (.paddsbMm ⟨[.opSize], none, 0#3, .reg 0#3⟩) = false
      ∧ Instr.wf .mode64 (.paddsbXmm ⟨[], none, 0#3, .reg 0#3⟩) = false := by decide

theorem test_wf_high_register :
    Instr.wf .compat32 (.vpaddsbVex128 ⟨[], none, .three false false true false 1#4, 0#3, .reg 2#3⟩) = false
      ∧ Instr.wf .compat32 (.vpaddsbEvex512
          ⟨[], none, false, false, false, false, 0#2, false, 1#4, true, false, false, true, 0#3, 0#3,
            .reg 2#3⟩) = false := by decide

theorem test_wf_length :
    Instr.wf .mode64 (.paddsbXmm ⟨[.seg .fs, .addrSize, .opSize, .lock], some ⟨true, true, true, true⟩, 7#3,
      .mem (.sib 3#2 7#3 7#3 (.d32 5#32))⟩) = true
    ∧ Instr.wf .mode64 (.vpaddsbEvex128
        ⟨[.seg .fs, .addrSize, .opSize, .lock, .rep], none, false, false, false, false, 0#2, false, 1#4, true,
          false, false, false, 0#3, 0#3, .mem (.sib 3#2 7#3 7#3 (.d32 5#32))⟩) = false := by decide

/-! ### Decoding: a word of the spec for every constructor -/

/-- V1. -/
theorem test_decode_paddsbMm :
    reads .mode64 [0x0F#8, 0xEC#8, 0xC1#8] (.paddsbMm ⟨[], none, 0#3, .reg 1#3⟩) = true := by decide

/-- V2. -/
theorem test_decode_paddswMm :
    reads .mode64 [0x0F#8, 0xED#8, 0xC1#8] (.paddswMm ⟨[], none, 0#3, .reg 1#3⟩) = true := by decide

/-- V14: xmm8, xmm9. -/
theorem test_decode_paddsbXmm :
    reads .mode64 [0x66#8, 0x45#8, 0x0F#8, 0xEC#8, 0xC1#8]
      (.paddsbXmm ⟨[.opSize], some ⟨false, true, false, true⟩, 0#3, .reg 1#3⟩) = true := by decide

/-- V4. -/
theorem test_decode_paddswXmm :
    reads .mode64 [0x66#8, 0x0F#8, 0xED#8, 0xC1#8]
      (.paddswXmm ⟨[.opSize], none, 0#3, .reg 1#3⟩) = true := by decide

/-- V15: xmm0, xmm1, xmm10. -/
theorem test_decode_vpaddsbVex128 :
    reads .mode64 [0xC4#8, 0xC1#8, 0x71#8, 0xEC#8, 0xC2#8]
      (.vpaddsbVex128 ⟨[], none, .three false false true false 1#4, 0#3, .reg 2#3⟩) = true := by decide

/-- V8. -/
theorem test_decode_vpaddswVex128 :
    reads .mode64 [0xC5#8, 0xF1#8, 0xED#8, 0xC2#8]
      (.vpaddswVex128 ⟨[], none, .two false 1#4, 0#3, .reg 2#3⟩) = true := by decide

/-- V9. -/
theorem test_decode_vpaddsbVex256 :
    reads .mode64 [0xC5#8, 0xF5#8, 0xEC#8, 0xC2#8]
      (.vpaddsbVex256 ⟨[], none, .two false 1#4, 0#3, .reg 2#3⟩) = true := by decide

/-- V10. -/
theorem test_decode_vpaddswVex256 :
    reads .mode64 [0xC5#8, 0xF5#8, 0xED#8, 0xC2#8]
      (.vpaddswVex256 ⟨[], none, .two false 1#4, 0#3, .reg 2#3⟩) = true := by decide

/-- V17: xmm16, xmm17, xmm2, its register numbers too. -/
theorem test_decode_vpaddsbEvex128 :
    let e : EvexInstr := ⟨[], none, false, false, false, true, 0#2, false, 1#4, true, false, false, true,
      0#3, 0#3, .reg 2#3⟩
    reads .mode64 [0x62#8, 0xE1#8, 0x75#8, 0x00#8, 0xEC#8, 0xC2#8] (.vpaddsbEvex128 e) = true
      ∧ e.dst = 16#5 ∧ e.src1 = 17#5 ∧ e.rmReg 2#3 = 2#5 := by decide

/-- 2.6, fourth row: ymm0 under k1. -/
theorem test_decode_vpaddsbEvex256 :
    reads .mode64 [0x62#8, 0xF1#8, 0x75#8, 0x29#8, 0xEC#8, 0xC1#8]
      (.vpaddsbEvex256 ⟨[], none, false, false, false, false, 0#2, false, 1#4, true, false, false, false,
        1#3, 0#3, .reg 1#3⟩) = true := by decide

/-- V12. -/
theorem test_decode_vpaddsbEvex512 :
    reads .mode64 [0x62#8, 0xF1#8, 0x75#8, 0x48#8, 0xEC#8, 0xC2#8]
      (.vpaddsbEvex512 ⟨[], none, false, false, false, false, 0#2, false, 1#4, true, false, false, false,
        0#3, 0#3, .reg 2#3⟩) = true := by decide

/-- M8: zeroing under k1. -/
theorem test_decode_vpaddswEvex128 :
    reads .mode64 [0x62#8, 0xF1#8, 0x75#8, 0x89#8, 0xED#8, 0xC2#8]
      (.vpaddswEvex128 ⟨[], none, false, false, false, false, 0#2, false, 1#4, true, true, false, false,
        1#3, 0#3, .reg 2#3⟩) = true := by decide

/-- 30_encoding.md R91 by hand: P0 = F1, P1 = 75, P2 = 0 01 0 1 000b = 28. -/
theorem test_decode_vpaddswEvex256 :
    reads .mode64 [0x62#8, 0xF1#8, 0x75#8, 0x28#8, 0xED#8, 0xC2#8]
      (.vpaddswEvex256 ⟨[], none, false, false, false, false, 0#2, false, 1#4, true, false, false, false,
        0#3, 0#3, .reg 2#3⟩) = true := by decide

/-- V13. -/
theorem test_decode_vpaddswEvex512 :
    reads .mode64 [0x62#8, 0xF1#8, 0x75#8, 0x48#8, 0xED#8, 0xC2#8]
      (.vpaddswEvex512 ⟨[], none, false, false, false, false, 0#2, false, 1#4, true, false, false, false,
        0#3, 0#3, .reg 2#3⟩) = true := by decide

/-- V16: the r/m register is xmm18. -/
theorem test_decode_evex_high_rm :
    let e : EvexInstr := ⟨[], none, false, true, false, false, 0#2, false, 1#4, true, false, false, false,
      0#3, 0#3, .reg 2#3⟩
    reads .mode64 [0x62#8, 0xB1#8, 0x75#8, 0x08#8, 0xEC#8, 0xC2#8] (.vpaddsbEvex128 e) = true
      ∧ e.rmReg 2#3 = 18#5 := by decide

/-- A4 (SIB), A5 (RIP-relative), A9 (prefix 67). -/
theorem test_decode_memory_forms :
    reads .mode64 [0x66#8, 0x0F#8, 0xEC#8, 0x04#8, 0x88#8]
      (.paddsbXmm ⟨[.opSize], none, 0#3, .mem (.sib 2#2 1#3 0#3 .none)⟩) = true
    ∧ reads .mode64 [0x66#8, 0x0F#8, 0xEC#8, 0x05#8, 0xF8#8, 0x0F#8, 0x00#8, 0x00#8]
        (.paddsbXmm ⟨[.opSize], none, 0#3, .mem (.disp 0xFF8#32)⟩) = true
    ∧ reads .mode64 [0x67#8, 0x66#8, 0x0F#8, 0xEC#8, 0x00#8]
        (.paddsbXmm ⟨[.addrSize, .opSize], none, 0#3, .mem (.base 0#3 .none)⟩) = true := by decide

/-- 30_encoding.md R87 by hand: 16-bit addressing, BX+SI+disp8 and disp16 alone. -/
theorem test_decode_16_bit_forms :
    reads .compat32 [0x67#8, 0x0F#8, 0xEC#8, 0x40#8, 0x10#8]
      (.paddsbMm ⟨[.addrSize], none, 0#3, .mem (.base16 0#3 (.d8 0x10#8))⟩) = true
    ∧ reads .compat32 [0x67#8, 0x0F#8, 0xEC#8, 0x0E#8, 0x34#8, 0x12#8]
        (.paddsbMm ⟨[.addrSize], none, 1#3, .mem (.disp16 0x1234#16)⟩) = true := by decide

/-- 2.9, the rows that need a mode or a fetch address. -/
theorem test_refused_words :
    decode .compat32 [0x41#8, 0x0F#8, 0xEC#8, 0xC1#8] = .refused .rexOutsideMode64
    ∧ decode .compat32 [0xC4#8, 0xC1#8, 0x71#8, 0xEC#8, 0xC2#8] = .refused .highRegister
    ∧ refuses (run { ref with rip := 0x00007FFFFFFFFFFE#64 } [0x0F#8, 0xEC#8, 0xC1#8]) .fetchNonCanonical
        = true := by decide +kernel

/-- opcode_table.json, the `match` words of rows 1, 5 and 9. -/
theorem test_decodeTableWord :
    decodeTableWord 16 0x0FEC = some (.paddsbMm ⟨[], none, 0#3, .mem (.base 0#3 .none)⟩)
    ∧ (decodeTableWord 32 0xC40101EC).isSome = true ∧ (decodeTableWord 40 0x62010100EC).isSome = true := by
  decide

/-! ### Single steps -/

/-- V1, with the x87 side effects of 10_state.md R23. -/
theorem test_step_paddsbMm :
    after (run ((ref.writeMm 0#3 a64).writeMm 1#3 b64) [0x0F#8, 0xEC#8, 0xC1#8]) (fun t =>
      t.readFpr 0#3 == 0xFFFF7F80FE7F7F7F8046#80 && t.x87Top == 0#3 && t.x87Tag == 0#16
        && t.rip == 0x1003#64) = true := by decide +kernel

/-- A14. -/
theorem test_step_paddsbMm_memory :
    let s := { setGpr ref 0#4 0x2000#64 with mem := Memory.writeBytes [] 0x2000#64 data }
    after (run (s.writeMm 0#3 0x7F7F80800102FEFD#64) [0x0F#8, 0xEC#8, 0x00#8]) (fun t =>
      t.readMm 0#3 == 0x7F7E80800001FEFE#64) = true := by decide +kernel

/-- V2. -/
theorem test_step_paddswMm :
    after (run ((ref.writeMm 0#3 a64).writeMm 1#3 b64) [0x0F#8, 0xED#8, 0xC1#8]) (fun t =>
      t.readFpr 0#3 == 0xFFFF7FFFFE807FFF8046#80 && t.x87Tag == 0#16) = true := by decide +kernel

/-- V3. -/
theorem test_step_paddsbXmm :
    after (run ((ref.writeZmm 0#5 (onesAbove a128)).writeZmm 1#5 b128) [0x66#8, 0x0F#8, 0xEC#8, 0xC1#8])
      (fun t => t.readZmm 0#5 == onesAbove resB && t.rip == 0x1004#64) = true := by decide +kernel

/-- A5, RIP-relative. -/
theorem test_step_paddsbXmm_memory :
    let s := { ref with mem := Memory.writeBytes [] 0x2000#64 data }
    after (run (s.writeZmm 0#5 a128) [0x66#8, 0x0F#8, 0xEC#8, 0x05#8, 0xF8#8, 0x0F#8, 0x00#8, 0x00#8])
      (fun t => t.readZmm 0#5 == 0x7EFF83827F7FFDFE7FFE8000FF00FF00#512) = true := by decide +kernel

/-- V4. -/
theorem test_step_paddswXmm :
    after (run ((ref.writeZmm 0#5 (onesAbove a128)).writeZmm 1#5 b128) [0x66#8, 0x0F#8, 0xED#8, 0xC1#8])
      (fun t => t.readZmm 0#5 == onesAbove resW) = true := by decide +kernel

/-- V5. -/
theorem test_step_vpaddsbVex128 :
    after (run (((ref.writeZmm 0#5 (BitVec.allOnes 512)).writeZmm 1#5 a128).writeZmm 2#5 b128)
      [0xC5#8, 0xF1#8, 0xEC#8, 0xC2#8]) (fun t => t.readZmm 0#5 == resB && t.readZmm 1#5 == a128) = true := by
  decide +kernel

/-- A11: unaligned, displacement not scaled, upper bits cleared. -/
theorem test_step_vpaddsbVex128_memory :
    let s := { setGpr ref 0#4 0x1FFF#64 with mem := Memory.writeBytes [] 0x2000#64 data }
    after (run (s.writeZmm 0#5 (onesAbove a128)) [0xC5#8, 0xF9#8, 0xEC#8, 0x40#8, 0x01#8]) (fun t =>
      t.readZmm 0#5 == 0x7EFF83827F7FFDFE7FFE8000FF00FF00#512) = true := by decide +kernel

/-- V8. -/
theorem test_step_vpaddswVex128 :
    after (run (((ref.writeZmm 0#5 (BitVec.allOnes 512)).writeZmm 1#5 a128).writeZmm 2#5 b128)
      [0xC5#8, 0xF1#8, 0xED#8, 0xC2#8]) (fun t => t.readZmm 0#5 == resW) = true := by decide +kernel

/-- V9. -/
theorem test_step_vpaddsbVex256 :
    after (run (((ref.writeZmm 0#5 (BitVec.allOnes 512)).writeZmm 1#5 (a128 <<< 128 ||| b128)).writeZmm 2#5
      (b128 <<< 128 ||| a128)) [0xC5#8, 0xF5#8, 0xEC#8, 0xC2#8]) (fun t =>
        t.readZmm 0#5 == (resB <<< 128 ||| resB)) = true := by decide +kernel

/-- V10. -/
theorem test_step_vpaddswVex256 :
    after (run (((ref.writeZmm 0#5 (BitVec.allOnes 512)).writeZmm 1#5 (a128 <<< 128 ||| b128)).writeZmm 2#5
      (b128 <<< 128 ||| a128)) [0xC5#8, 0xF5#8, 0xED#8, 0xC2#8]) (fun t =>
        t.readZmm 0#5 == (resW <<< 128 ||| resW)) = true := by decide +kernel

/-- The state of 2.5, with K1. -/
def masked (k1 : Quad) : State :=
  ((setK ref 1#3 k1).writeZmm 0#5 (onesAbove (copies 8 0x55#8 16))).writeZmm 1#5 a128 |>.writeZmm 2#5 b128

/-- M2: merging. -/
theorem test_step_vpaddsbEvex128 :
    after (run (masked 0xA5A5#64) [0x62#8, 0xF1#8, 0x75#8, 0x09#8, 0xEC#8, 0xC2#8]) (fun t =>
      t.readZmm 0#5 == 0x7F558055557F55007F55805555005500#512) = true := by decide +kernel

/-- A12: displacement times 16. -/
theorem test_step_vpaddsbEvex128_memory :
    let s := { setGpr ref 0#4 0x1FF0#64 with mem := Memory.writeBytes [] 0x2000#64 data }
    after (run (s.writeZmm 0#5 a128) [0x62#8, 0xF1#8, 0x7D#8, 0x08#8, 0xEC#8, 0x40#8, 0x01#8]) (fun t =>
      t.readZmm 0#5 == 0x7EFF83827F7FFDFE7FFE8000FF00FF00#512 && t.rip == 0x1007#64) = true := by
  decide +kernel

/-- 2.6, fourth row: everything masked off, merged below 256 and cleared above. -/
theorem test_step_vpaddsbEvex256 :
    after (run (ref.writeZmm 0#5 (BitVec.allOnes 512)) [0x62#8, 0xF1#8, 0x75#8, 0x29#8, 0xEC#8, 0xC1#8])
      (fun t => t.readZmm 0#5 == (BitVec.allOnes 256).setWidth 512) = true := by decide +kernel

/-- V12. -/
theorem test_step_vpaddsbEvex512 :
    after (run ((ref.writeZmm 1#5 (copies 8 0x80#8 64)).writeZmm 2#5 (copies 8 0xFF#8 64))
      [0x62#8, 0xF1#8, 0x75#8, 0x48#8, 0xEC#8, 0xC2#8]) (fun t =>
        t.readZmm 0#5 == copies 8 0x80#8 64) = true := by decide +kernel

/-- M7: merging. -/
theorem test_step_vpaddswEvex128 :
    after (run (masked 0xA5#64) [0x62#8, 0xF1#8, 0x75#8, 0x09#8, 0xED#8, 0xC2#8]) (fun t =>
      t.readZmm 0#5 == 0x7FFF55557FFF55555555800055550000#512) = true := by decide +kernel

/-- M8: zeroing. -/
theorem test_step_vpaddswEvex128_zeroing :
    after (run (masked 0xA5#64) [0x62#8, 0xF1#8, 0x75#8, 0x89#8, 0xED#8, 0xC2#8]) (fun t =>
      t.readZmm 0#5 == 0x7FFF00007FFF00000000800000000000#512) = true := by decide +kernel

/-- The operands of V10 under EVEX.256 with no mask: by 40_padds.md R126 the result of V10. -/
theorem test_step_vpaddswEvex256 :
    after (run (((ref.writeZmm 0#5 (BitVec.allOnes 512)).writeZmm 1#5 (a128 <<< 128 ||| b128)).writeZmm 2#5
      (b128 <<< 128 ||| a128)) [0x62#8, 0xF1#8, 0x75#8, 0x28#8, 0xED#8, 0xC2#8]) (fun t =>
        t.readZmm 0#5 == (resW <<< 128 ||| resW)) = true := by decide +kernel

/-- V13. -/
theorem test_step_vpaddswEvex512 :
    after (run ((ref.writeZmm 1#5 (copies 16 0x7FFF#16 32)).writeZmm 2#5 (copies 16 0x8000#16 32))
      [0x62#8, 0xF1#8, 0x75#8, 0x48#8, 0xED#8, 0xC2#8]) (fun t =>
        t.readZmm 0#5 == copies 16 0xFFFF#16 32) = true := by decide +kernel

/-- E32: the second byte of the second page cannot be fetched. -/
theorem test_step_fetch_fault :
    faults (run { ref with rip := 0x1FFE#64, translation := [⟨0x2000#64, 0x2FFF#64, some .fetch, none, none,
      .pf false false⟩] } [0x66#8, 0x0F#8, 0xEC#8, 0xC1#8])
      (.exception .pf 14 (some 0x14#32) (some 0x2000#64)) = true := by decide +kernel

/-- E21: L'L = 11b; also behind prefix 67 (30_encoding.md R91), and in `Compat32` (R97 item 2). -/
theorem test_step_reserved_length :
    faults (run ref [0x62#8, 0xF1#8, 0x75#8, 0x68#8, 0xEC#8, 0xC2#8]) (.exception .ud 6 none none) = true
    ∧ faults (run ref [0x67#8, 0x62#8, 0xF1#8, 0x75#8, 0x68#8, 0xEC#8, 0xC2#8]) (.exception .ud 6 none none) = true
    ∧ faults (run compat [0x62#8, 0xF1#8, 0x75#8, 0x68#8, 0xEC#8, 0xC2#8]) (.exception .ud 6 none none) = true := by
  decide +kernel

/-! ### Witnesses: the hypotheses of each obligation hold together somewhere -/

/-- With the identity translation a byte at a canonical address is readable in `Mode64`. -/
theorem readable_identity {s : State} {p : Place} {i : Nat} (ht : s.translation = [])
    (hc : canonical s.linearWidth (byteAddr .mode64 p i) = true) : ByteReadable s .mode64 p i :=
  ⟨fun _ => hc, fun h => absurd h (by decide), 0#64, by simp [State.translate, ht, translateBy]⟩

theorem noSegmentVerdict_identity {s : State} {p : Place} {n : Nat} (ht : s.translation = []) :
    NoSegmentVerdict s .mode64 p n :=
  fun _ _ => by simp [State.translate, ht, translateBy]

theorem ready_identity {s : State} {al : Align} {c : AddrInfo} {bytes : Nat → Prop} {m : MemForm} (n : Nat)
    (ht : s.translation = []) (hb : ∀ i, bytes i → i < n) (ha : Aligned s al (place s .mode64 c m))
    (hc : ∀ i < n, canonical s.linearWidth (byteAddr .mode64 (place s .mode64 c m) i) = true) :
    RmReady s .mode64 al c bytes (.mem m) :=
  ⟨ha, fun i hi => readable_identity ht (hc i (hb i hi))⟩

/-- In `Mode64`: R169 item 5 forbids none of the first `n` bytes. -/
theorem formed_of {s : State} {p : Place} (n : Nat)
    (hf : ∀ i < n, canonical s.linearWidth (byteAddr .mode64 p i) = true
      ∧ s.translate .read p.seg (byteAddr .mode64 p i) ≠ .gp
      ∧ s.translate .read p.seg (byteAddr .mode64 p i) ≠ .ss) :
    ∀ i < n, ByteFormed s .mode64 p i :=
  fun i hi => ⟨fun _ => (hf i hi).1, fun h => absurd h (by decide), (hf i hi).2⟩

/-- `[rax]` with prefix 66 or without. -/
def legMem (pfx : List Pfx) : LegInstr := ⟨pfx, none, 0#3, .mem (.base 0#3 .none)⟩

def legReg (pfx : List Pfx) : LegInstr := ⟨pfx, none, 0#3, .reg 1#3⟩

def vexMem : VexInstr := ⟨[], none, .two false 0#4, 0#3, .mem (.base 0#3 .none)⟩

def vexReg : VexInstr := ⟨[], none, .two false 1#4, 0#3, .reg 2#3⟩

def evexWith (aaa : BitVec 3) (rm : Rm) : EvexInstr :=
  ⟨[], none, false, false, false, false, 0#2, false, 1#4, true, false, false, false, aaa, 0#3, rm⟩

def evexMem (aaa : BitVec 3) : EvexInstr := evexWith aaa (.mem (.base 0#3 .none))

def evexReg (aaa : BitVec 3) : EvexInstr := evexWith aaa (.reg 2#3)

/-- RAX points at the given address. -/
def at_ (a : Quad) : State := setGpr ref 0#4 a

/-- R120, at the values where its clauses meet (95_test_vectors.md 2.1). -/
theorem witness_saturateByte :
    satByte 128 = 0x7F#8 ∧ satByte 127 = 0x7F#8 ∧ satByte (-128) = 0x80#8 ∧ satByte (-129) = 0x80#8
      ∧ satByte 126 = 0x7E#8 ∧ satByte (-2) = 0xFE#8 := by decide

/-- R121, at the values where its clauses meet (2.2). -/
theorem witness_saturateWord :
    satWord 32768 = 0x7FFF#16 ∧ satWord 32767 = 0x7FFF#16 ∧ satWord (-32768) = 0x8000#16
      ∧ satWord (-32769) = 0x8000#16 ∧ satWord 9029 = 0x2345#16 := by decide

/-- The last lanes of the longest operand. -/
theorem witness_PackedAddIsLaneWise :
    512 ∈ [64, 128, 256, 512] ∧ 63 < 512 / Elem.byte.bits ∧ 31 < 512 / Elem.word.bits := by decide

/-- Each premise of the lane laws: exact at both bounds, opposite signs, overflow up and down. -/
theorem witness_SaturatingLaneLaws :
    satAdd .byte 0x7E#8 0x01#8 = 0x7F#8 ∧ satAdd .byte 0xC0#8 0xC0#8 = 0x80#8
      ∧ satAdd .byte 0x80#8 0x7F#8 = 0xFF#8 ∧ satAdd .byte 0x7F#8 0x01#8 = 0x7F#8
      ∧ satAdd .byte 0x80#8 0xFF#8 = 0x80#8 ∧ (0x80#8).toInt ≤ (0x7F#8).toInt := by decide

/-- The bounds, a translation that moves, one that does not, a byte that can be fetched, and the last byte of each
address space with the one after it. -/
theorem witness_ByteOrderIsLittleEndian :
    64 ≤ 64 ∧ 63 < 64 ∧ 2 * 31 + 1 < 64 ∧ (at_ 0x2000#64).translation = []
      ∧ State.translate { ref with translation := [⟨0x1000#64, 0x1FFF#64, some .read, none, none, .shift 0x10#64⟩] }
          .read .ds (byteAddr .mode64 ⟨.ds, 0x1000#64, 0x1000#64⟩ 1) = .shift 0x10#64
      ∧ fetchByte ref .mode64 0 = .ok 0#8
      ∧ byteAddr .mode64 ⟨.ds, 0x1000#64, 0x1000#64⟩ 63 = 0x103F#64
      ∧ byteAddr .compat32 ⟨.ds, 0xFFFFFFFE#64, 0xFFFFFFFE#64⟩ 1 = 0xFFFFFFFF#64
      ∧ byteAddr .compat32 ⟨.ds, 0xFFFFFFFE#64, 0xFFFFFFFE#64⟩ 2 = 0#64 :=
  ⟨by decide, by decide, by decide, rfl, by decide +kernel, by rfl, by decide, by decide, by decide⟩

theorem witness_EffectiveAddressInMode64 :
    .addrSize ∉ (⟨[], false, false, 1, 0#64⟩ : AddrInfo).pfx
      ∧ .addrSize ∈ (⟨[.addrSize], false, false, 1, 0#64⟩ : AddrInfo).pfx := by decide

theorem witness_EffectiveAddressUnder32BitAddressing :
    addrBits .compat32 [] = 32 ∧ addrBits .mode64 [.addrSize] = 32 ∧ addrBits .real [.addrSize] = 32
      ∧ addrBits .v86 [.addrSize] = 32 := by decide

/-- The same for an instruction of each format. -/
theorem witness_address_sizes :
    addrBits .compat32 (legMem []).pfx = 32 ∧ addrBits .compat32 vexMem.pfx = 32
      ∧ addrBits .compat32 (evexMem 0#3).pfx = 32 ∧ addrBits .compat32 (legMem [.addrSize]).pfx = 16
      ∧ addrBits .compat32 { vexMem with pfx := [.addrSize] }.pfx = 16
      ∧ addrBits .compat32 { evexMem 0#3 with pfx := [.addrSize] }.pfx = 16 := by decide

theorem witness_EffectiveAddressUnder16BitAddressing :
    addrBits .compat32 [.addrSize] = 16 ∧ addrBits .real [] = 16 ∧ addrBits .v86 [] = 16 := by decide

theorem witness_EightBitDisplacementsAreScaled :
    .addrSize ∉ (evexMem 0#3).pfx ∧ .addrSize ∉ vexMem.pfx ∧ .addrSize ∉ (legMem [.opSize]).pfx := by decide

/-- One prefix list for each clause. -/
theorem witness_LinearAddressOfOperand :
    segOverride [] = none ∧ segOverride [.opSize, .seg .fs] = some .fs ∧ segOverride [.seg .es] = some .es
      ∧ Mode.compat32 ≠ .mode64 ∧ SegReg.es ≠ .fs ∧ SegReg.es ≠ .gs := by decide

/-- The 64 bytes at the top of the address space. -/
theorem witness_MemWriteStoresEachByte :
    Memory.wf [] ∧ 64 ≤ 64 ∧ (0xFFFFFFFFFFFFFFC0#64).toNat + 64 ≤ 2 ^ 64 :=
  ⟨by simp [Memory.wf], by decide, by decide⟩

/-- A register source, and the eight highest bytes of the canonical lower half. -/
theorem witness_MmxRowsComplete :
    let s := at_ 0x00007FFFFFFFFFF8#64
    s.mode = some .mode64 ∧ MmxEnabled s (legMem []) ∧ s.ts = false ∧ s.x87Es = false
      ∧ RmReady s .mode64 .mmx (legAddr (legMem []) s) (· < 8) (legMem []).rm
      ∧ RmReady s .mode64 .mmx (legAddr (legReg []) s) (· < 8) (legReg []).rm :=
  ⟨by decide +kernel, by unfold MmxEnabled; decide +kernel, by decide +kernel, by decide +kernel,
    ready_identity 8 rfl (fun _ h => h) (by unfold Aligned; decide +kernel) (by decide +kernel), trivial⟩

theorem witness_SseRowsComplete :
    let s := at_ 0x00007FFFFFFFFFF0#64
    let l := legMem [.opSize]
    s.mode = some .mode64 ∧ SseEnabled s l ∧ s.ts = false
      ∧ RmReady s .mode64 .sse (legAddr l s) (· < 16) l.rm :=
  ⟨by decide +kernel, by unfold SseEnabled; decide +kernel, by decide +kernel,
    ready_identity 16 rfl (fun _ h => h) (by unfold Aligned; decide +kernel) (by decide +kernel)⟩

/-- An operand that is not aligned. -/
theorem witness_VexRowsComplete :
    let s := at_ 0x00007FFFFFFFFFE0#64
    s.mode = some .mode64 ∧ VexEnabled .l256 s .mode64 vexMem ∧ VexEnabled .l128 s .mode64 vexMem
      ∧ s.ts = false ∧ RmReady s .mode64 .vector (vexAddr vexMem s) (· < VexLen.l256.bits / 8) vexMem.rm
      ∧ RmReady (at_ 0x2001#64) .mode64 .vector (vexAddr vexMem s) (· < VexLen.l128.bits / 8) vexMem.rm :=
  ⟨by decide +kernel, by unfold VexEnabled NoClash; decide +kernel,
    by unfold VexEnabled NoClash; decide +kernel, by decide +kernel,
    ready_identity 32 rfl (fun _ h => h) (by unfold Aligned; decide +kernel) (by decide +kernel),
    ready_identity 16 rfl (fun _ h => h) (by unfold Aligned; decide +kernel) (by decide +kernel)⟩

theorem witness_EvexRowsComplete :
    let s := at_ 0x00007FFFFFFFFFC0#64
    s.mode = some .mode64 ∧ EvexEnabled .l512 s .mode64 (evexMem 1#3) ∧ EvexEnabled .l128 s .mode64 (evexMem 0#3)
      ∧ s.ts = false
      ∧ RmReady s .mode64 .vector (evexAddr 512 (evexMem 1#3) s) (· < EvexLen.l512.bits / 8) (evexMem 1#3).rm :=
  ⟨by decide +kernel, by unfold EvexEnabled NoClash; decide +kernel,
    by unfold EvexEnabled NoClash; decide +kernel, by decide +kernel,
    ready_identity 64 rfl (fun _ h => h) (by unfold Aligned; decide +kernel) (by decide +kernel)⟩

/-- E30 with suppression: bytes 2008H to 200FH cannot be read, and only bytes 0 to 7 are enabled. -/
def suppressed : State :=
  { setK (at_ 0x2000#64) 1#3 0xFF#64 with
    suppression := .yes
    translation := [⟨0x2008#64, 0x200F#64, some .read, none, none, .pf false false⟩] }

theorem witness_SuppressedBytesDoNotFault :
    suppressed.mode = some .mode64 ∧ EvexEnabled .l128 suppressed .mode64 (evexMem 1#3)
      ∧ suppressed.ts = false ∧ suppressed.suppression = .yes ∧ (evexMem 1#3).aaa ≠ 0#3
      ∧ RmReady suppressed .mode64 .vector (evexAddr 128 (evexMem 1#3) suppressed)
          (fun i => i < EvexLen.l128.bits / 8
            ∧ (suppressed.readK (evexMem 1#3).aaa).getLsbD (i / Elem.byte.size) = true) (evexMem 1#3).rm := by
  refine ⟨by decide +kernel, by unfold EvexEnabled NoClash; decide +kernel, by decide +kernel, rfl,
    by decide, by unfold Aligned; decide +kernel, fun i hi => ?_⟩
  have h1 : ∀ i < 16, (suppressed.readK 1#3).getLsbD (i / Elem.byte.size) = true →
      canonical suppressed.linearWidth
        (byteAddr .mode64 (place suppressed .mode64 (evexAddr 128 (evexMem 1#3) suppressed) (.base 0#3 .none)) i)
          = true
      ∧ suppressed.translate .read .ds
        (byteAddr .mode64 (place suppressed .mode64 (evexAddr 128 (evexMem 1#3) suppressed) (.base 0#3 .none)) i)
          = .shift 0#64 := by decide +kernel
  obtain ⟨hc, ht⟩ := h1 i hi.1 hi.2
  exact ⟨fun _ => hc, fun h => absurd h (by decide), 0#64, ht⟩

/-- E30's counterpart: under `no` the same instruction ends in the page fault of its first rejected byte. -/
theorem test_unsuppressed_fault :
    faults (exec (.vpaddsbEvex128 (evexMem 1#3)) { suppressed with suppression := .no })
      (.exception .pf 14 (some 4#32) (some 0x2008#64)) = true := by decide +kernel

/-- E31: element 8 is enabled, so the choice does not matter. -/
theorem test_enabled_fault :
    faults (exec (.vpaddsbEvex128 (evexMem 1#3)) (setK { suppressed with suppression := .either } 1#3 0x1FF#64))
      (.exception .pf 14 (some 4#32) (some 0x2008#64)) = true := by decide +kernel

/-- One VEX instruction of each form. -/
theorem witness_RegisterNumbers :
    vexReg.vex = .two false 1#4
      ∧ (⟨[], none, .three true false true false 15#4, 7#3, .reg 7#3⟩ : VexInstr).vex =
          .three true false true false 15#4 := ⟨rfl, rfl⟩

/-- 30_encoding.md R89 by hand: the highest numbers of each format, and each extension bit alone. -/
theorem test_register_numbers :
    (⟨[.opSize], some ⟨false, true, false, true⟩, 7#3, .reg 7#3⟩ : LegInstr).xmmDst = 15#5
      ∧ (⟨[], none, .three true false true false 15#4, 7#3, .reg 7#3⟩ : VexInstr).rmReg 7#3 = 15#5
      ∧ { evexReg 0#3 with r := true, r' := true, reg := 7#3 }.dst = 31#5
      ∧ { evexReg 0#3 with r' := true }.dst = 16#5 ∧ { evexReg 0#3 with v' := true }.src1 = 17#5
      ∧ { evexReg 0#3 with x := true }.rmReg 2#3 = 18#5 := by decide

theorem witness_MmxRowsFrame : ∃ t, exec (rowMmx .byte (legMem [])) (at_ 0x2001#64) = .next t :=
  next_of (by decide +kernel)

theorem witness_VectorRowsFrame :
    (∃ t, exec (rowSse .word (legMem [.opSize])) (at_ 0x2000#64) = .next t)
      ∧ (∃ t, exec (rowVex .byte .l256 vexMem) (at_ 0x2001#64) = .next t)
      ∧ ∃ t, exec (rowEvex .word .l512 (evexMem 1#3)) (at_ 0x2001#64) = .next t :=
  ⟨next_of (by decide +kernel), next_of (by decide +kernel), next_of (by decide +kernel)⟩

theorem witness_BitsAboveTheVectorLength :
    (∃ t, exec (rowMmx .word (legReg [])) ref = .next t)
      ∧ (∃ t, exec (rowSse .byte (legReg [.opSize])) ref = .next t)
      ∧ (∃ t, exec (rowVex .word .l128 vexReg) ref = .next t)
      ∧ (∃ t, exec (rowVex .word .l256 vexReg) ref = .next t)
      ∧ ∃ t, exec (rowEvex .byte .l256 (evexReg 0#3)) ref = .next t :=
  ⟨next_of (by decide +kernel), next_of (by decide +kernel), next_of (by decide +kernel),
    next_of (by decide +kernel), next_of (by decide +kernel)⟩

/-- Once in each half of the statement, the second at the top of the 32-bit space. -/
theorem witness_RipPassesTheInstruction :
    (∃ t, exec (.paddsbMm (legReg [])) ref = .next t) ∧ ref.mode = some .mode64
      ∧ (∃ t, exec (.paddsbMm (legReg [])) { compat with rip := 0xFFFFFFFD#64 } = .next t)
      ∧ compat.mode ≠ some .mode64
      ∧ after (exec (.paddsbMm (legReg [])) { compat with rip := 0xFFFFFFFD#64 }) (fun t => t.rip == 0#64)
          = true :=
  ⟨next_of (by decide +kernel), by decide +kernel, next_of (by decide +kernel), by decide +kernel,
    by decide +kernel⟩

/-- M6: bit 16 of K1 differs, which 16 elements do not reach. -/
theorem witness_OnlyMaskBitsBelowKlAreRead :
    (∃ t, exec (rowEvex .byte .l128 (evexReg 1#3)) (setK ref 1#3 0xA5A5#64) = .next t)
      ∧ ∀ j < EvexLen.l128.bits / Elem.byte.bits,
          (State.readK { setK ref 1#3 0xA5A5#64 with kreg := (setK ref 1#3 0x1A5A5#64).kreg } 1#3).getLsbD j
            = ((setK ref 1#3 0xA5A5#64).readK 1#3).getLsbD j :=
  ⟨next_of (by decide +kernel), by decide +kernel⟩

/-- Sources that differ in a lane whose mask bit is 0. -/
theorem witness_MaskedOffLanesIgnoreTheSources :
    ∀ j < 128 / Elem.byte.bits, (0xFFFE#64).getLsbD j = true →
      lane .byte (0x55#512) j = lane .byte (0xAA#512) j ∧ lane .byte b128 j = lane .byte b128 j := by
  decide +kernel

theorem witness_VexRowsIgnoreTheOldDestination :
    vexReg.src1 ≠ vexReg.dst ∧ ∀ r, vexReg.rm = .reg r → vexReg.rmReg r ≠ vexReg.dst := by
  refine ⟨by decide, fun r h => ?_⟩
  obtain rfl := Rm.reg.inj h
  decide

/-- P6: xmm0, xmm1 in the three encodings. -/
theorem witness_ThreeEncodingsAgree :
    let l := legReg [.opSize]
    let v : VexInstr := ⟨[], none, .two false 0#4, 0#3, .reg 1#3⟩
    let x : EvexInstr := { evexWith 0#3 (.reg 1#3) with vvvv := 0#4 }
    (l.rm = .reg 1#3 ∧ v.rm = .reg 1#3 ∧ x.rm = .reg 1#3 ∧ v.dst = l.xmmDst ∧ v.src1 = l.xmmDst
      ∧ v.rmReg 1#3 = l.xmmRm 1#3 ∧ x.dst = l.xmmDst ∧ x.src1 = l.xmmDst ∧ x.rmReg 1#3 = l.xmmRm 1#3
      ∧ x.aaa = 0#3)
    ∧ (∃ t, exec (rowSse .byte l) ref = .next t) ∧ (∃ t, exec (rowVex .byte .l128 v) ref = .next t)
      ∧ ∃ t, exec (rowEvex .byte .l128 x) ref = .next t :=
  ⟨by decide, next_of (by decide +kernel), next_of (by decide +kernel), next_of (by decide +kernel)⟩

/-- Both sides of each equivalence: LOCK, EM, OSFXSR, OSXSAVE, `z` without a mask, and none of them. -/
theorem witness_RaiseUd :
    ref.mode = some .mode64 ∧ MmxEnabled ref (legReg []) ∧ ¬ MmxEnabled ref (legReg [.lock])
      ∧ SseEnabled ref (legReg [.opSize]) ∧ ¬ SseEnabled { ref with cr4 := 0x40000#64 } (legReg [.opSize])
      ∧ VexEnabled .l256 ref .mode64 vexReg ∧ ¬ VexEnabled .l256 { ref with xcr0 := 3#64 } .mode64 vexReg
      ∧ EvexEnabled .l512 ref .mode64 (evexReg 0#3)
      ∧ ¬ EvexEnabled .l512 ref .mode64 { evexReg 0#3 with z := true } :=
  ⟨by decide +kernel, by unfold MmxEnabled; decide +kernel, by unfold MmxEnabled; decide +kernel,
    by unfold SseEnabled; decide +kernel, by unfold SseEnabled; decide +kernel,
    by unfold VexEnabled NoClash; decide +kernel, by unfold VexEnabled NoClash; decide +kernel,
    by unfold EvexEnabled NoClash; decide +kernel, by unfold EvexEnabled NoClash; decide +kernel⟩

/-- E7. -/
theorem witness_TaskSwitchedRaisesNm :
    let s := { ref with cr0 := 0x60000019#64 }
    s.mode = some .mode64 ∧ s.ts = true ∧ MmxEnabled s (legReg []) ∧ SseEnabled s (legReg [.opSize])
      ∧ VexEnabled .l128 s .mode64 vexReg ∧ EvexEnabled .l128 s .mode64 (evexReg 0#3) := by
  unfold MmxEnabled SseEnabled VexEnabled EvexEnabled NoClash
  decide +kernel

/-- E28, and the same with CR0.NE = 0. -/
theorem witness_PendingX87StopsMmxRows :
    let s := { ref with x87Status := 0x80#16 }
    s.mode = some .mode64 ∧ MmxEnabled s (legReg []) ∧ s.ts = false ∧ s.x87Es = true ∧ s.ne = false
      ∧ State.ne { s with cr0 := 0x60000031#64 } = true := by
  unfold MmxEnabled
  decide +kernel

theorem readable16 (s : State) (l : LegInstr) (m : MemForm) (ht : s.translation = []) (n : Nat)
    (hc : ∀ i < n, canonical s.linearWidth (byteAddr .mode64 (place s .mode64 (legAddr l s) m) i) = true) :
    ∀ i < n, ByteReadable s .mode64 (place s .mode64 (legAddr l s) m) i :=
  fun i hi => readable_identity ht (hc i hi)

/-- E1 with its first byte on a page that is not present: R169 item 6 comes before item 7. -/
theorem witness_MisalignedSseOperandRaisesGp :
    let s := { at_ 0x2001#64 with
      translation := [⟨0x2000#64, 0x2FFF#64, some .read, none, none, .pf false false⟩] }
    let l := legMem [.opSize]
    s.mode = some .mode64 ∧ SseEnabled s l ∧ s.ts = false ∧ l.rm = .mem (.base 0#3 .none)
      ∧ (∀ i < 16, ByteFormed s .mode64 (place s .mode64 (legAddr l s) (.base 0#3 .none)) i)
      ∧ s.translate .read .ds (byteAddr .mode64 (place s .mode64 (legAddr l s) (.base 0#3 .none)) 0)
          = .pf false false
      ∧ (place s .mode64 (legAddr l s) (.base 0#3 .none)).la.toNat % 16 ≠ 0
      ∧ (place s .mode64 (legAddr l s) (.base 0#3 .none)).ea.toNat % 16 ≠ 0
      ∧ faults (exec (rowSse .byte l) s) (.exception .gp 13 (some 0#32) none) = true :=
  ⟨by decide +kernel, by unfold SseEnabled; decide +kernel, by decide +kernel, rfl,
    formed_of 16 (by decide +kernel), by decide +kernel, by decide +kernel, by decide +kernel, by decide +kernel⟩

/-- An FS base of 8 under an aligned effective address. -/
theorem witness_HalfAlignedSseOperand :
    let s := { at_ 0x2000#64 with fs := ⟨0#16, 8#64, 0xFFFF#32, .reset⟩ }
    let l := legMem [.opSize, .seg .fs]
    s.mode = some .mode64 ∧ SseEnabled s l ∧ s.ts = false ∧ l.rm = .mem (.base 0#3 .none)
      ∧ (∀ i < 16, ByteReadable s .mode64 (place s .mode64 (legAddr l s) (.base 0#3 .none)) i)
      ∧ ((place s .mode64 (legAddr l s) (.base 0#3 .none)).la.toNat % 16 = 0 ↔
          (place s .mode64 (legAddr l s) (.base 0#3 .none)).ea.toNat % 16 ≠ 0)
      ∧ s.alignmentChecked = false :=
  ⟨by decide +kernel, by unfold SseEnabled; decide +kernel, by decide +kernel, rfl,
    readable16 _ _ _ rfl 16 (by decide +kernel), by decide +kernel, by decide +kernel⟩

/-- E27: byte 8 is the first byte of the operand at a non-canonical address. -/
theorem witness_NonCanonicalOperandFaults :
    let s := at_ 0x00007FFFFFFFFFF8#64
    (∀ p n, NoSegmentVerdict s .mode64 p n) ∧ (∀ p n, NoSegmentVerdict (at_ 0x00007FFFFFFFFFF9#64) .mode64 p n)
      ∧ s.mode = some .mode64 ∧ s.ts = false ∧ s.x87Es = false
      ∧ SseEnabled s (legMem [.opSize]) ∧ MmxEnabled (at_ 0x00007FFFFFFFFFF9#64) (legMem [])
      ∧ VexEnabled .l128 s .mode64 vexMem ∧ EvexEnabled .l128 s .mode64 (evexMem 0#3)
      ∧ canonical s.linearWidth (byteAddr .mode64 (place s .mode64 (vexAddr vexMem s) (.base 0#3 .none)) 7) = true
      ∧ canonical s.linearWidth (byteAddr .mode64 (place s .mode64 (vexAddr vexMem s) (.base 0#3 .none)) 8) = false
      ∧ canonical s.linearWidth
          (byteAddr .mode64 (place s .mode64 (evexAddr 128 (evexMem 0#3) s) (.base 0#3 .none)) 8) = false
      ∧ canonical s.linearWidth
          (byteAddr .mode64 (place (at_ 0x00007FFFFFFFFFF9#64) .mode64
            (legAddr (legMem []) (at_ 0x00007FFFFFFFFFF9#64)) (.base 0#3 .none)) 7) = false :=
  ⟨fun _ _ => noSegmentVerdict_identity rfl, fun _ _ => noSegmentVerdict_identity rfl, by
    unfold MmxEnabled SseEnabled VexEnabled EvexEnabled NoClash
    decide +kernel⟩

/-- E26: the same in the stack segment. -/
theorem test_noncanonical_stack :
    faults (exec (.paddsbXmm ⟨[.opSize], none, 0#3, .mem (.sib 0#2 4#3 4#3 .none)⟩)
      (setGpr ref 4#4 0x0000800000000000#64)) (.exception .ss 12 (some 0#32) none) = true := by decide +kernel

/-- Real-address mode with BX + SI = FFF1H, one byte beyond a 16-byte operand that fits. -/
theorem witness_OffsetPastFfffRaisesGp :
    let s := setGpr { State.reset with cr4 := 0x200#64 } 3#4 0xFFF1#64
    let l : LegInstr := ⟨[.opSize], none, 0#3, .mem (.base16 0#3 .none)⟩
    let l2 : LegInstr := ⟨[], none, 0#3, .mem (.base16 0#3 (.d8 8#8))⟩
    s.mode = some .real ∧ s.ts = false ∧ SseEnabled s l ∧ MmxEnabled s l2 ∧ s.x87Es = false
      ∧ (∀ i < 16, s.translate .read (place s .real (legAddr l s) (.base16 0#3 .none)).seg
          (byteAddr .real (place s .real (legAddr l s) (.base16 0#3 .none)) i) ≠ .ss)
      ∧ (∀ i < 16, s.translate .read (place s .real (legAddr l2 s) (.base16 0#3 (.d8 8#8))).seg
          (byteAddr .real (place s .real (legAddr l2 s) (.base16 0#3 (.d8 8#8))) i) ≠ .ss)
      ∧ (place s .real (legAddr l s) (.base16 0#3 .none)).ea.toNat + 15 = 2 ^ 16
      ∧ (place s .real (legAddr l2 s) (.base16 0#3 (.d8 8#8))).ea.toNat + 7 = 2 ^ 16 := by
  unfold MmxEnabled SseEnabled
  decide +kernel

theorem witness_EitherIsOneOfTheTwo :
    State.reset.suppression = .either ∧ State.reset.alignmentCheck = .either
      ∧ ∃ t, exec (rowEvex .byte .l128 (evexMem 1#3)) (at_ 0x2000#64) = .next t :=
  ⟨rfl, rfl, next_of (by decide +kernel)⟩

/-- E29's page with the given verdict, under a VEX.256 operand that starts 16 bytes before it. -/
def paged (v : TranslateVerdict) : State :=
  { at_ 0x1FF0#64 with translation := [⟨0x2000#64, 0x2FFF#64, some .read, none, none, v⟩] }

/-- In `Mode64`, from facts about one byte at a time. -/
theorem firstPageVerdict_of {s : State} {p : Place} {bytes : Nat → Prop} {j : Nat} {v : TranslateVerdict} (n : Nat)
    (hn : ∀ i, bytes i → i < n) (hj : bytes j)
    (hf : ∀ i < n, canonical s.linearWidth (byteAddr .mode64 p i) = true
      ∧ s.translate .read p.seg (byteAddr .mode64 p i) ≠ .gp
      ∧ s.translate .read p.seg (byteAddr .mode64 p i) ≠ .ss)
    (hlow : ∀ i < j, s.translate .read p.seg (byteAddr .mode64 p i) = .shift 0#64)
    (hv : s.translate .read p.seg (byteAddr .mode64 p j) = v) :
    FirstPageVerdict s .mode64 p bytes j v :=
  ⟨hj, fun i hi => formed_of n hf i (hn i hi),
    fun i hi hij => ⟨fun _ => (hf i (hn i hi)).1, fun h => absurd h (by decide), 0#64, hlow i hij⟩, hv⟩

/-- The page under each class, for #PF and for a rejection without a name: byte 7 of an MMX operand, byte 0 of a
legacy SSE one, byte 16 of a VEX.256 one. -/
theorem witness_LowestPageFaultIsReported (v : TranslateVerdict) (hv : v = .pf false false ∨ v = .reject) :
    let s := setGpr (paged v) 0#4 0x1FF9#64
    let u := setGpr (paged v) 0#4 0x2000#64
    let w := paged v
    let l := legMem [.opSize]
    (s.mode = some .mode64 ∧ s.ts = false ∧ s.x87Es = false ∧ MmxEnabled s (legMem [])
      ∧ FirstPageVerdict s .mode64 (place s .mode64 (legAddr (legMem []) s) (.base 0#3 .none)) (· < 8) 7 v)
    ∧ (u.mode = some .mode64 ∧ u.ts = false ∧ SseEnabled u l
      ∧ Aligned u .sse (place u .mode64 (legAddr l u) (.base 0#3 .none))
      ∧ FirstPageVerdict u .mode64 (place u .mode64 (legAddr l u) (.base 0#3 .none)) (· < 16) 0 v)
    ∧ w.mode = some .mode64 ∧ w.ts = false ∧ VexEnabled .l256 w .mode64 vexMem
      ∧ FirstPageVerdict w .mode64 (place w .mode64 (vexAddr vexMem w) (.base 0#3 .none))
          (· < VexLen.l256.bits / 8) 16 v := by
  rcases hv with rfl | rfl <;>
    exact ⟨⟨by decide +kernel, by decide +kernel, by decide +kernel, by unfold MmxEnabled; decide +kernel,
        firstPageVerdict_of 8 (fun _ h => h) (by decide) (by decide +kernel) (by decide +kernel) (by decide +kernel)⟩,
      ⟨by decide +kernel, by decide +kernel, by unfold SseEnabled; decide +kernel,
        by unfold Aligned; decide +kernel,
        firstPageVerdict_of 16 (fun _ h => h) (by decide) (by decide +kernel) (by decide +kernel)
          (by decide +kernel)⟩,
      by decide +kernel, by decide +kernel, by unfold VexEnabled NoClash; decide +kernel,
      firstPageVerdict_of 32 (fun _ h => h) (by decide) (by decide +kernel) (by decide +kernel) (by decide +kernel)⟩

/-- Under an EVEX.256 row whose bytes 16 and up are enabled, for each value of the parameter. -/
theorem witness_LowestPageFaultOfAnEvexRow (c : Choice) (v : TranslateVerdict)
    (hv : v = .pf false false ∨ v = .reject) :
    let s := { setK (paged v) 1#3 0xFFFF0000#64 with suppression := c }
    s.mode = some .mode64 ∧ s.ts = false ∧ EvexEnabled .l256 s .mode64 (evexMem 1#3)
      ∧ ByteEnabled .byte (evexMem 1#3) s 16
      ∧ FirstPageVerdict s .mode64 (place s .mode64 (evexAddr 256 (evexMem 1#3) s) (.base 0#3 .none))
          (EvexChecked .byte .l256 (evexMem 1#3) s) 16 v := by
  rcases hv with rfl | rfl <;> cases c <;>
    exact ⟨by decide +kernel, by decide +kernel, by unfold EvexEnabled NoClash; decide +kernel,
      by unfold ByteEnabled; decide +kernel,
      firstPageVerdict_of 32 (fun _ h => h.1) ⟨by decide, fun _ => by unfold ByteEnabled; decide +kernel⟩
        (by decide +kernel) (by decide +kernel) (by decide +kernel)⟩

/-- D24, 93 U22: a rejection without a named fault ends the row in the refusal. -/
theorem test_rejected_operand :
    refuses (exec (rowVex .byte .l256 vexMem) (paged .reject)) .translateRejects = true
    ∧ refuses (exec (rowMmx .byte (legMem [])) (setGpr (paged .reject) 0#4 0x1FF9#64)) .translateRejects = true := by
  decide +kernel

/-- A segment of `Compat32` that ends before 2008H, its limit checked by `translate`. -/
def limited (r : SegReg) (v : TranslateVerdict) : State :=
  { setGpr (setGpr compat 0#4 0x2001#64) 5#4 0x2001#64 with
    translation := [⟨0x2008#64, 0xFFFFFFFF#64, some .read, none, some r, v⟩] }

/-- `[ebp]`: the stack segment is the default. -/
def stackMem : MemForm := .base 5#3 (.d8 0#8)

theorem firstSegmentFault_of {s : State} {p : Place} {bytes : Nat → Prop} {j : Nat} {v : TranslateVerdict}
    (hj : bytes j) (hlow : ∀ i < j, s.translate .read p.seg (byteAddr .compat32 p i) = .shift 0#64)
    (hv : s.translate .read p.seg (byteAddr .compat32 p j) = v) :
    FirstSegmentFault s .compat32 p bytes j v :=
  ⟨hj, fun i _ hij => ⟨fun h => absurd h (by decide), fun h => absurd h (by decide),
      by rw [hlow i hij]; decide, by rw [hlow i hij]; decide⟩,
    fun h => absurd h (by decide), fun h => absurd h (by decide), hv⟩

/-- Byte 7 of the operand lies past the limit: in DS #GP(0), in SS #SS(0). -/
theorem witness_SegmentVerdictsOfTranslateAreRaised :
    let g := limited .ds .gp
    let k := limited .ss .ss
    (k.mode = some .compat32 ∧ k.ts = false ∧ k.x87Es = false
        ∧ MmxEnabled k ⟨[], none, 0#3, .mem stackMem⟩)
      ∧ g.mode = some .compat32 ∧ g.ts = false ∧ g.x87Es = false ∧ MmxEnabled g (legMem [])
      ∧ SseEnabled g (legMem [.opSize]) ∧ VexEnabled .l128 g .compat32 vexMem
      ∧ EvexEnabled .l512 g .compat32 (evexMem 0#3) ∧ ByteEnabled .byte (evexMem 0#3) g 7
      ∧ FirstSegmentFault g .compat32 (place g .compat32 (legAddr (legMem []) g) (.base 0#3 .none)) (· < 8) 7 .gp
      ∧ FirstSegmentFault g .compat32 (place g .compat32 (legAddr (legMem [.opSize]) g) (.base 0#3 .none))
          (· < 16) 7 .gp
      ∧ FirstSegmentFault g .compat32 (place g .compat32 (vexAddr vexMem g) (.base 0#3 .none)) (· < 16) 7 .gp
      ∧ FirstSegmentFault g .compat32 (place g .compat32 (evexAddr 512 (evexMem 0#3) g) (.base 0#3 .none))
          (EvexChecked .byte .l512 (evexMem 0#3) g) 7 .gp
      ∧ FirstSegmentFault k .compat32
          (place k .compat32 (legAddr ⟨[], none, 0#3, .mem stackMem⟩ k) stackMem) (· < 8) 7 .ss :=
  ⟨by unfold MmxEnabled; decide +kernel, by decide +kernel, by decide +kernel, by decide +kernel,
    by unfold MmxEnabled; decide +kernel,
    by unfold SseEnabled; decide +kernel, by unfold VexEnabled NoClash; decide +kernel,
    by unfold EvexEnabled NoClash; decide +kernel, .inl rfl,
    firstSegmentFault_of (by decide) (by decide +kernel) (by decide +kernel),
    firstSegmentFault_of (by decide) (by decide +kernel) (by decide +kernel),
    firstSegmentFault_of (by decide) (by decide +kernel) (by decide +kernel),
    firstSegmentFault_of ⟨by decide, fun _ => .inl rfl⟩ (by decide +kernel) (by decide +kernel),
    firstSegmentFault_of (by decide) (by decide +kernel) (by decide +kernel)⟩

/-- E4. -/
theorem witness_AlignmentCheckRaisesAc :
    let s := { at_ 0x2001#64 with cr0 := 0x60040011#64, rflags := 0x40002#64 }
    let l := legMem []
    s.mode = some .mode64 ∧ MmxEnabled s l ∧ s.ts = false ∧ s.x87Es = false
      ∧ l.rm = .mem (.base 0#3 .none)
      ∧ (∀ i < 8, ByteReadable s .mode64 (place s .mode64 (legAddr l s) (.base 0#3 .none)) i)
      ∧ s.am = true ∧ s.ac = true ∧ s.cpl = 3#2
      ∧ (place s .mode64 (legAddr l s) (.base 0#3 .none)).la.toNat % 8 ≠ 0 :=
  ⟨by decide +kernel, by unfold MmxEnabled; decide +kernel, by decide +kernel, by decide +kernel, rfl,
    readable16 _ _ _ rfl 8 (by decide +kernel), by decide +kernel, by decide +kernel, by decide +kernel,
    by decide +kernel⟩

/-- The other classes with `alignment_check` = yes: operands at 2001H, and for the legacy SSE row an FS base of 4 under
an aligned effective address. -/
theorem witness_AlignmentCheckOfTheOtherRows :
    let s := { at_ 0x2001#64 with cr0 := 0x60040011#64, rflags := 0x40002#64, alignmentCheck := .yes }
    let f := { setGpr s 0#4 0x2000#64 with fs := ⟨0#16, 4#64, 0xFFFF#32, .reset⟩ }
    let l := legMem [.opSize, .seg .fs]
    s.mode = some .mode64 ∧ s.ts = false ∧ s.am = true ∧ s.ac = true ∧ s.cpl = 3#2 ∧ s.alignmentCheck = .yes
      ∧ (f.mode = some .mode64 ∧ f.ts = false ∧ f.am = true ∧ f.ac = true ∧ f.cpl = 3#2 ∧ f.alignmentCheck = .yes)
      ∧ VexEnabled .l128 s .mode64 vexMem ∧ EvexEnabled .l128 s .mode64 (evexMem 1#3) ∧ SseEnabled f l
      ∧ (place s .mode64 (vexAddr vexMem s) (.base 0#3 .none)).la.toNat % 8 ≠ 0
      ∧ (place s .mode64 (evexAddr 128 (evexMem 1#3) s) (.base 0#3 .none)).la.toNat % 8 ≠ 0
      ∧ (place f .mode64 (legAddr l f) (.base 0#3 .none)).la.toNat % 8 ≠ 0
      ∧ (place f .mode64 (legAddr l f) (.base 0#3 .none)).ea.toNat % 16 = 0
      ∧ (∀ i < 16, ByteReadable s .mode64 (place s .mode64 (vexAddr vexMem s) (.base 0#3 .none)) i)
      ∧ (∀ i, EvexChecked .byte .l128 (evexMem 1#3) s i →
          ByteReadable s .mode64 (place s .mode64 (evexAddr 128 (evexMem 1#3) s) (.base 0#3 .none)) i)
      ∧ ∀ i < 16, ByteReadable f .mode64 (place f .mode64 (legAddr l f) (.base 0#3 .none)) i := by
  refine ⟨by decide +kernel, by decide +kernel, by decide +kernel, by decide +kernel, by decide +kernel, rfl,
    by decide +kernel, by unfold VexEnabled NoClash; decide +kernel,
    by unfold EvexEnabled NoClash; decide +kernel,
    by unfold SseEnabled; decide +kernel, by decide +kernel, by decide +kernel, by decide +kernel,
    by decide +kernel, fun i hi => readable_identity rfl ?_, fun i hi => readable_identity rfl ?_,
    readable16 _ _ _ rfl 16 (by decide +kernel)⟩
  · revert i; decide +kernel
  · have hi : i < 16 := hi.1
    clear * - hi
    revert i; decide +kernel

/-- A meaning that faults, and one that is refused. -/
theorem witness_MeaningsStopOnlyAsListed :
    faults (exec (.paddsbMm (legReg [.lock])) ref) (.exception .ud 6 none none) = true
      ∧ refuses (exec (.paddsbMm (legReg [])) { ref with x87Status := 0x80#16 }) .externalX87Report = true := by
  decide +kernel

/-- The longest admitted encodings, and the longest decoded one. -/
theorem witness_DecodeUndoesEncode :
    let i : Instr := .vpaddsbEvex512 { evexWith 7#3 (.mem (.sib 3#2 7#3 7#3 (.d32 0x80000000#32))) with
      pfx := [.addrSize, .seg .gs], r := true, r' := true, v' := true, vvvv := 15#4 }
    i.wf .mode64 = true ∧ i.len = 13 := by decide

theorem witness_EncodeUndoesDecode :
    decode .mode64 [0xC5#8, 0xF1#8, 0xEC#8, 0xC2#8, 0x90#8] = .ok (.row (.vpaddsbVex128 vexReg)) [0x90#8]
      ∧ (Instr.vpaddsbVex128 vexReg).len ≤ maxLen := by decide

/-- The premises of the length bounds, at the longest encodings. -/
theorem witness_AdmittedLengths :
    (Instr.paddsbMm ⟨[.seg .fs, .addrSize], some ⟨true, true, true, true⟩, 7#3,
        .mem (.sib 3#2 7#3 7#3 (.d32 5#32))⟩).len = 11
      ∧ (Instr.paddsbXmm ⟨[.seg .fs, .addrSize, .opSize], some ⟨true, true, true, true⟩, 7#3,
        .mem (.sib 3#2 7#3 7#3 (.d32 5#32))⟩).len = 12
      ∧ (Instr.vpaddsbVex256 ⟨[.seg .fs, .addrSize], none, .three true true true true 0#4, 7#3,
        .mem (.sib 3#2 7#3 7#3 (.d32 5#32))⟩).len = 12
      ∧ NoClash [.seg .fs, .addrSize] none
      ∧ decode .mode64 [0x0F#8, 0xEC#8, 0xC1#8] = .ok (.row (.paddsbMm (legReg []))) [] := by
  unfold NoClash
  decide

theorem witness_DecodingLooksNoFurther :
    decode .mode64 [0x0F#8, 0xEC#8, 0xC1#8] = .ok (.row (.paddsbMm (legReg []))) []
      ∧ decode .mode64 [0x90#8] = .refused .notInFamily := by decide

/-- V1's code at RIP. -/
def coded : State := placeCode ref [0x0F#8, 0xEC#8, 0xC1#8]

theorem witness_StepRunsTheDecodedInstruction :
    coded.mode = some .mode64 ∧ coded.endAddress ≠ some coded.rip
      ∧ decode .mode64 (fetchFrom coded .mode64 maxLen 0).1
          = .ok (.row (.paddsbMm (legReg []))) (List.replicate 12 0#8) := by decide +kernel

theorem witness_PlacedCodeRuns :
    coded.mode = some .mode64 ∧ coded.endAddress ≠ some coded.rip
      ∧ (Instr.paddsbMm (legReg [])).wf .mode64 = true
      ∧ ∀ k (h : k < (encode (.paddsbMm (legReg []))).length),
          fetchByte coded .mode64 k = .ok (encode (.paddsbMm (legReg [])))[k] := by
  refine ⟨by decide +kernel, by decide +kernel, by decide, fun k h => ?_⟩
  have hk : k < 3 := h
  match k, hk with
  | 0, _ => rfl
  | 1, _ => rfl
  | 2, _ => rfl

/-- E32: two bytes before the page. -/
theorem witness_FetchFaultComesFirst :
    let s := { placeCode { ref with rip := 0x1FFE#64 } [0x66#8, 0x0F#8, 0xEC#8, 0xC1#8] with
      translation := [⟨0x2000#64, 0x2FFF#64, some .fetch, none, none, .pf false false⟩] }
    s.mode = some .mode64 ∧ s.endAddress ≠ some s.rip ∧ [0x66#8, 0x0F#8].length < maxLen
      ∧ (∀ k (h : k < [0x66#8, 0x0F#8].length), fetchByte s .mode64 k = .ok [0x66#8, 0x0F#8][k])
      ∧ fetchByte s .mode64 2 = .error (raisePf 0x14#32 0x2000#64)
      ∧ decode .mode64 [0x66#8, 0x0F#8] = .short := by
  refine ⟨by decide +kernel, by decide +kernel, by decide, fun k h => ?_, rfl, by decide⟩
  have hk : k < 2 := h
  match k, hk with
  | 0, _ => rfl
  | 1, _ => rfl

/-- Every fetch up to 1000H has the given verdict. -/
def unfetchable (s : State) (v : TranslateVerdict) : State :=
  { s with translation := [⟨0#64, 0x1000#64, some .fetch, none, none, v⟩] }

/-- One of each constructor. -/
def fetchVerdicts : List TranslateVerdict := [.shift 0x20#64, .pf true true, .gp, .ss, .reject]

/-- Each clause at its boundary: the last byte of the space, the last and first canonical bytes. -/
theorem witness_FetchOfOneByte :
    2 ^ 64 ≤ (0xFFFFFFFFFFFFFFFF#64).toNat + 1
      ∧ canonical .la48 (0x00007FFFFFFFFFFF#64 + BitVec.ofNat 64 0) = true
      ∧ canonical .la48 (0x00007FFFFFFFFFFF#64 + BitVec.ofNat 64 1) = false
      ∧ canonical .la48 0xFFFF800000000000#64 = true ∧ canonical .la48 0xFFFF7FFFFFFFFFFF#64 = false
      ∧ ref.translation = []
      ∧ ∀ v ∈ fetchVerdicts, (unfetchable ref v).translate .fetch .cs (ref.rip + BitVec.ofNat 64 0) = v := by
  decide +kernel

/-- R167, D20, by hand: the fetch of `ref`'s first byte at 1000H under a shift by 20H, and under #SS(0). -/
theorem test_fetch_verdicts :
    fetchByte { unfetchable ref (.shift 0x20#64) with mem := [(0x1020, 0xEC#8)] } .mode64 0 = .ok 0xEC#8
    ∧ faults (step (unfetchable ref .ss)) (.exception .ss 12 (some 0#32) none) = true
    ∧ refuses (step (unfetchable ref .reject)) .translateRejects = true := by decide +kernel

/-- `Compat32` with a CS base of FFFFFFF0H and EIP = 8: byte 8 would lie past the top of the linear space. -/
def wrapping : State :=
  { compat with rip := 8#64, cs := ⟨3#16, 0xFFFFFFF0#64, 0xFFFF#32, codeAttr false true⟩ }

/-- Each clause outside `Mode64` at its boundary: EIP, linear address and 16-bit offset at the top. -/
theorem witness_FetchOfOneByteOutsideMode64 :
    Mode.compat32 ≠ .mode64 ∧ wrapping.rip.toNat % 2 ^ 32 + 8 < 2 ^ 32
      ∧ (wrapping.cs.base.toNat + wrapping.rip.toNat) % 2 ^ 32 + 7 < 2 ^ 32
      ∧ 2 ^ 32 ≤ (wrapping.cs.base.toNat + wrapping.rip.toNat) % 2 ^ 32 + 8
      ∧ 2 ^ 32 ≤ (0xFFFFFFFF#64).toNat % 2 ^ 32 + 1 ∧ State.reset.rip.toNat % 2 ^ 32 + 15 < 2 ^ 16
      ∧ 2 ^ 16 ≤ State.reset.rip.toNat % 2 ^ 32 + 16 ∧ wrapping.translation = []
      ∧ ∀ v ∈ fetchVerdicts, (unfetchable compat v).translate .fetch .cs (BitVec.ofNat 64 0x1000) = v := by
  decide +kernel

/-- D20: an instruction across the top of the linear space is refused, one that ends at the top runs. -/
theorem test_fetch_across_the_top :
    refuses (step { wrapping with rip := 0xE#64, mem := Memory.writeBytes [] 0xFFFFFFFE#64 [0x0F#8, 0xEC#8] })
      .fetchWraps = true
    ∧ after (step { wrapping with rip := 0xD#64, mem := Memory.writeBytes [] 0xFFFFFFFD#64 [0x0F#8, 0xEC#8, 0xC1#8] })
      (fun t => t.rip == 0x10#64) = true := by decide +kernel

theorem witness_RunIsOverAtTheEndAddress :
    let s := { ref with endAddress := some 0x1000#64 }
    s.endAddress = some s.rip := rfl

theorem witness_ReservedLengthRaisesUd :
    let s := placeCode ref [0x62#8, 0xF1#8, 0x75#8, 0x68#8, 0xEC#8, 0xC2#8]
    (s.mode = some .mode64 ∧ s.endAddress ≠ some s.rip
      ∧ decode .mode64 (fetchFrom s .mode64 maxLen 0).1 = .ok .reservedLength (List.replicate 9 0#8))
    ∧ (0xF1#8).extractLsb' 0 2 = 1#2 ∧ (0x75#8).extractLsb' 0 2 = 1#2 ∧ (0x68#8).extractLsb' 5 2 = 3#2
      ∧ takeModRm false [0xC2#8] = .ok (0#3, .reg 2#3) [] := by decide +kernel

/-- L'L = 11b behind prefixes 64, 67 and a REX in `Mode64`, and behind 67 in `Compat32`: the encodings written out
from 30_encoding.md R91, and a state that holds the first. -/
theorem witness_ReservedLengthBehindPrefixes :
    let x : EvexInstr := { evexReg 0#3 with pfx := [.seg .fs, .addrSize], rex := some ⟨true, false, false, false⟩ }
    let y : EvexInstr := { evexReg 0#3 with pfx := [.addrSize] }
    let bytes := [0x64#8, 0x67#8, 0x48#8, 0x62#8, 0xF1#8, 0x75#8, 0x68#8, 0xEC#8, 0xC2#8]
    let s := placeCode ref bytes
    x.wf .mode64 = true ∧ x.bytes 3#2 false = bytes ∧ x.len ≤ maxLen ∧ y.wf .compat32 = true
      ∧ y.bytes 3#2 true = [0x67#8, 0x62#8, 0xF1#8, 0x75#8, 0x68#8, 0xED#8, 0xC2#8]
      ∧ s.mode = some .mode64 ∧ s.endAddress ≠ some s.rip
      ∧ ((List.range bytes.length).all fun k => fetchByte s .mode64 k == .ok (bytes.getD k 0#8)) = true
      ∧ decode .compat32 [0x67#8, 0x62#8, 0xF1#8, 0x75#8, 0x68#8, 0xED#8, 0xC2#8] = .ok .reservedLength [] := by
  decide +kernel

/-- A NOP, and an instruction of 16 bytes: F0 64 67 F3 62 P0 P1 P2 EC ModRM SIB disp32 with a REX. -/
def overlong : List Byte :=
  [0xF0#8, 0x64#8, 0x67#8, 0xF3#8, 0x48#8, 0x62#8, 0xF1#8, 0x75#8, 0x08#8, 0xEC#8, 0x84#8, 0x00#8, 0x00#8,
    0x00#8, 0x00#8]

theorem witness_UndecodableBytesStopTheStep :
    decode .mode64 (fetchFrom (placeCode ref [0x90#8]) .mode64 maxLen 0).1 = .refused .notInFamily
      ∧ decode .mode64 (fetchFrom (placeCode ref overlong) .mode64 maxLen 0).1 = .short
      ∧ (fetchFrom (placeCode ref overlong) .mode64 maxLen 0).1.length = 15
      ∧ ref.mode = some .mode64 ∧ ref.endAddress ≠ some ref.rip := by decide +kernel

theorem witness_Runs : coded.mode = some .mode64 ∧ ∃ t, Steps 1 coded t := by
  obtain ⟨t, h⟩ := next_of (o := step coded) (by decide +kernel)
  exact ⟨by decide +kernel, t, t, h, rfl⟩

/-- V1's code with its end address after it. -/
def launched : State := { coded with endAddress := some 0x1003#64 }

theorem launched_premises : LaunchPremises launched := by
  refine ⟨⟨.mode64, by decide +kernel, .inl rfl, fun e k _ _ => ⟨0#64, rfl⟩⟩, by decide +kernel,
    fun _ => by decide +kernel, by unfold FixedBits; decide +kernel⟩

theorem witness_LaunchPremisesPersist :
    LaunchPremises launched ∧ launched.rip.toNat + maxLen < 2 ^ 32 ∧ ∃ t, step launched = .next t :=
  ⟨launched_premises, by decide +kernel, next_of (by decide +kernel)⟩

theorem witness_StepKeepsTheInvariant : Inv coded ∧ ∃ t, step coded = .next t := by
  refine ⟨⟨?_, fun h => absurd (by decide +kernel) h, by unfold FixedBits; decide +kernel, fun _ r j hj => ?_⟩,
    next_of (by decide +kernel)⟩
  · have h : coded.mem = [(0x1000, 0x0F#8), (0x1001, 0xEC#8), (0x1002, 0xC1#8)] := by decide +kernel
    rw [h]
    simp [Memory.wf, Config.unlistedByte]
  · have : (coded.readZmm r) = 0#512 := by
      simp [State.readZmm, coded, ref, placeCode, launchReference, State.reset]
    simp [this]

/-- One state for each clause. -/
theorem witness_ModeFollowsTheControlBits :
    State.reset.mode = some .real ∧ State.mode { ref with rflags := 0x20002#64 } = some .v86
      ∧ ref.mode = some .mode64 ∧ compat.mode = some .compat32
      ∧ State.mode { compat with cs := ⟨3#16, 0#64, 0xFFFF#32, codeAttr false false⟩ } = none
      ∧ State.mode { ref with efer := 0#64 } = none := by decide +kernel

/-- Log 25: PE = 0 and VM = 1 decide before LMA and the code segment do. -/
theorem test_mode_order :
    State.mode { ref with cr0 := 0x60000010#64 } = some .real
      ∧ State.mode { ref with rflags := 0x20002#64 } = some .v86
      ∧ State.mode { compat with cr0 := 0x60000010#64 } = some .real := by decide +kernel

/-- R28, R31: bits stored as 0 read as 1. -/
theorem test_fixed_bits :
    State.readRflags { ref with rflags := 0#64 } = 2#64 ∧ State.readXcr0 { ref with xcr0 := 0xE6#64 } = 0xE7#64 := by
  decide +kernel

theorem witness_AfterResetOnlyMmxRowsExecute :
    .lock ∉ (legReg []).pfx ∧ (legReg []).rm = .reg 1#3
      ∧ (place State.reset .real (legAddr (legMem []) State.reset) (.disp16 0xFFF8#16)).ea.toNat + 7 < 2 ^ 16 := by
  decide +kernel

end Sys2Proof.Tests
end

section
/-!
PROOFS. The state: what a completed instruction leaves unchanged, the instruction pointer, the invariant, the
fetch of one byte, the operating mode, and the state after reset (10_state.md).
-/

namespace Sys2Proof.Machine

/-! ### The next state of an instruction -/

/-- RIP after any instruction (R27). -/
theorem exec_rip {i : Instr} {s t : State} (h : exec i s = .next t) :
    ∃ md, s.mode = some md ∧ t.rip = nextRip md s.rip i.len := by
  obtain ⟨md, hm, ⟨r, v, rfl⟩ | ⟨r, v, rfl⟩⟩ := exec_next h <;> exact ⟨md, hm, rfl⟩

/-- Every next state of an instruction has kept what no instruction writes. -/
theorem exec_kept {i : Instr} {s t : State} (h : exec i s = .next t) : Kept s t := by
  obtain ⟨md, -, ⟨r, v, rfl⟩ | ⟨r, v, rfl⟩⟩ := exec_next h
  · exact kept_writeMm_retire s r v md i.len
  · exact kept_writeZmm_retire s r v md i.len

/-- No instruction stores (20_memory.md R57): the list of memory is the same, not only its bytes. -/
theorem exec_mem {i : Instr} {s t : State} (h : exec i s = .next t) : t.mem = s.mem := by
  obtain ⟨md, -, ⟨r, v, rfl⟩ | ⟨r, v, rfl⟩⟩ := exec_next h <;> rfl

theorem exec_mode {i : Instr} {s t : State} (h : exec i s = .next t) : t.mode = s.mode := by
  obtain ⟨md, -, ⟨r, v, rfl⟩ | ⟨r, v, rfl⟩⟩ := exec_next h <;> rfl

/-- A row that met no exception raised no #UD, which every list of exceptions tests first (60_exceptions.md R169). -/
theorem ud_false_of_firstOf {c : Bool} {l : List (Option Stop)} (h : firstOf (udIf c :: l) = none) :
    c = false :=
  udIf_eq_none.1 (firstOf_eq_none.1 h _ List.mem_cons_self)

/-! ### The bits above MAXVL (00_scope.md R6, 40_padds.md R127) -/

theorem maxvl_ge_128 (f : Features) : 128 ≤ f.maxvl := by
  unfold Features.maxvl; split_ifs <;> omega

/-- A part with nested features that has a VEX row has registers as wide as the row. -/
theorem vexBits_le_maxvl {n : VexLen} {f : Features} (hf : Nested f) (h : n.feature f = true) :
    n.bits ≤ f.maxvl := by
  obtain ⟨-, -, avxOfAvx2, -⟩ := hf
  cases n with
  | l128 => exact maxvl_ge_128 f
  | l256 =>
    have avx : f.avx = true := avxOfAvx2 h
    unfold Features.maxvl VexLen.bits
    split_ifs <;> simp

/-- A part with nested features that has an EVEX row has registers of 512 bits. -/
theorem evexBits_le_maxvl {n : EvexLen} {f : Features} (hf : Nested f) (h : n.feature f = true) :
    n.bits ≤ f.maxvl := by
  have bw : f.avx512bw = true := by
    cases n <;> simp only [EvexLen.feature, Bool.and_eq_true] at h
    · exact h.1
    · exact h.1
    · exact h
  have wide : f.maxvl = 512 := by simp [Features.maxvl, hf.1 (.inl bw)]
  rw [wide]
  cases n <;> decide

/-- A vector register written with a value that has no bit above MAXVL. -/
theorem upperClear_writeZmm_retire {s : State} (hs : UpperClear s) {r : BitVec 5} {v : VecReg}
    (hv : ZeroFrom s.features.maxvl v) (md : Mode) (n : Nat) : UpperClear ((s.writeZmm r v).retire md n) := by
  intro q j hj
  rw [retire_features, writeZmm_features] at hj
  rw [retire_readZmm, readZmm_writeZmm]
  split
  · exact hv j hj
  · exact hs q j hj

/-- A legacy SSE write brings no bit above 127 into a register (R127). -/
theorem zeroFrom_keepUpper {o v : VecReg} {m : Nat} (hm : 128 ≤ m) (ho : ZeroFrom m o) :
    ZeroFrom m (keepUpper o v) := by
  intro j hj
  rw [keepUpper_high o v (le_trans hm hj), ho j hj]

/-- On a part with nested features no instruction writes a bit above MAXVL: a row's vector length is at most MAXVL
where the row is enabled, and a legacy SSE row keeps the upper bits. -/
theorem exec_upperClear {i : Instr} {s t : State} (hf : Nested s.features) (hs : UpperClear s)
    (h : exec i s = .next t) : UpperClear t := by
  rcases instr_rows i with ⟨e, l, rfl⟩ | ⟨e, l, rfl⟩ | ⟨e, n, v, rfl⟩ | ⟨e, n, x, rfl⟩
  · rw [exec_rowMmx] at h
    obtain ⟨md, -, -, rfl⟩ := mmxForm_next h
    exact hs
  · rw [exec_rowSse] at h
    obtain ⟨md, -, -, rfl⟩ := sseForm_next h
    exact upperClear_writeZmm_retire hs (zeroFrom_keepUpper (maxvl_ge_128 _) (hs l.xmmDst)) md l.len
  · rw [exec_rowVex] at h
    obtain ⟨md, -, hstop, rfl⟩ := vexForm_next h
    have enabled : VexEnabled n s md v := vexUd_eq_false.1 (ud_false_of_firstOf hstop)
    exact upperClear_writeZmm_retire hs
      (fun j hj => padds_high e _ _ (le_trans (vexBits_le_maxvl hf enabled.1) hj)) md v.len
  · rw [exec_rowEvex] at h
    obtain ⟨md, -, hstop, rfl⟩ := evexForm_next h
    have enabled : EvexEnabled n s md x := evexUd_eq_false.1 (ud_false_of_firstOf hstop)
    exact upperClear_writeZmm_retire hs
      (fun j hj => maskedPadds_high e _ _ _ _ _ (le_trans (evexBits_le_maxvl hf enabled.1) hj)) md x.len

/-! ### The invariant -/

/-- Outside `Mode64` an instruction leaves 32 bits of RIP, whatever stood there (R27). -/
theorem exec_ripFits {i : Instr} {s t : State} (h : exec i s = .next t) : RipFits t := by
  obtain ⟨md, hm, hrip⟩ := exec_rip h
  intro hne
  have hmd : md ≠ .mode64 := by
    rintro rfl
    exact hne (by rw [exec_mode h, hm])
  rw [hrip, nextRip_toNat hmd]
  exact Nat.mod_lt _ (by decide)

theorem exec_inv {i : Instr} {s t : State} (hs : Inv s) (h : exec i s = .next t) : Inv t := by
  obtain ⟨hmem, -, hfixed, hupper⟩ := hs
  have k := exec_kept h
  refine ⟨?_, exec_ripFits h, ?_, fun hf => ?_⟩
  · rw [exec_mem h]; exact hmem
  · rw [FixedBits, k.rflags, k.xcr0]; exact hfixed
  · rw [k.features] at hf; exact exec_upperClear hf (hupper hf) h

/-- Settles O56: a step that answers a next state ran one instruction, and every instruction keeps the invariant. -/
theorem stepKeepsTheInvariant : Obligations.StepKeepsTheInvariant := by
  intro s t hs h
  obtain ⟨md, i, rest, -, -, -, hexec⟩ := step_next h
  exact exec_inv hs hexec

/-- Settles O21, from the value of RIP that every form retires with. -/
theorem ripPassesTheInstruction : Obligations.RipPassesTheInstruction := by
  intro i s t h
  obtain ⟨md, hm, hrip⟩ := exec_rip h
  rw [hm, hrip]
  refine ⟨fun h64 => ?_, fun hne => ?_⟩
  · obtain rfl : md = .mode64 := Option.some.inj h64
    exact nextRip_mode64 s.rip i.len
  · exact nextRip_toNat (fun he => hne (congrArg some he)) s.rip i.len

/-- Settles O46: the branch of `step` that the hypotheses select. -/
theorem stepRunsTheDecodedInstruction : Obligations.StepRunsTheDecodedInstruction := by
  intro s md i rest hm he hd
  rw [step, if_neg he, hm]
  dsimp only
  rw [hd]

/-! ### The fetch of one byte (R27, 60_exceptions.md R167) -/

/-- The error code of a #PF raised by a fetch, as a sum of its bits P, U/S, RSVD and I/D (20_memory.md R58). -/
theorem pfCode_fetch (p rsvd : Bool) (cpl : BitVec 2) :
    pfCode p rsvd cpl .fetch = BitVec.ofNat 32 ((if p then 1 else 0) + (if cpl = 3#2 then 4 else 0)
      + (if rsvd then 8 else 0) + 16) := by
  revert p rsvd cpl; decide

/-- Each verdict of `translate` has the answer that the statement of a fetch gives it. -/
theorem fetchLinear_answers (s : State) (la : Quad) : FetchAnswers s la (fetchLinear s la) := by
  unfold FetchAnswers fetchLinear
  refine ⟨fun d h => ?shift, fun p rsvd h => ?pf, fun h => ?gp, fun h => ?ss, fun h => ?reject⟩
  case shift => rw [h]; rfl
  case pf => rw [h, ← pfCode_fetch]; rfl
  case gp => rw [h]; rfl
  case ss => rw [h]; rfl
  case reject => rw [h]

theorem fetchLinear_identity {s : State} (h : s.translation = []) (la : Quad) :
    fetchLinear s la = .ok (Memory.read s.mem la.toNat) := by
  simp [fetchLinear, State.translate, h, translateBy, State.loadByte]

theorem fetchByte_of_offsetStop {s : State} {md : Mode} {k : Nat} {st : Stop} (h : codeOffsetStop s md k = some st) :
    fetchByte s md k = .error st := by
  simp [fetchByte, h]

theorem fetchByte_wraps {s : State} {md : Mode} {k : Nat} (ho : codeOffsetStop s md k = none)
    (h : 2 ^ spaceBits md ≤ (codeAddr s md 0).toNat + k) : fetchByte s md k = .error (.refuse .fetchWraps) := by
  simp [fetchByte, ho, h]

theorem fetchByte_linear {s : State} {md : Mode} {k : Nat} (ho : codeOffsetStop s md k = none)
    (h : (codeAddr s md 0).toNat + k < 2 ^ spaceBits md)
    (hc : md = .mode64 → canonical s.linearWidth (codeAddr s md k) = true) :
    fetchByte s md k = fetchLinear s (codeAddr s md k) := by
  have hnc : ¬ (md = .mode64 ∧ canonical s.linearWidth (codeAddr s md k) = false) := fun ⟨hm, hf⟩ => by
    rw [hc hm] at hf; cases hf
  simp only [fetchByte, ho, Nat.not_le.2 h, hnc, if_false]

theorem codeAddr_mode64_zero (s : State) : codeAddr s .mode64 0 = s.rip := BitVec.add_zero s.rip

theorem codeAddr_of_ne_mode64 {md : Mode} (h : md ≠ .mode64) (s : State) (k : Nat) :
    codeAddr s md k = lowBits 32 (s.cs.base + s.rip + BitVec.ofNat 64 k) := by
  cases md with
  | mode64 => exact absurd rfl h
  | compat32 => rfl
  | real => rfl
  | v86 => rfl

/-- Outside `Mode64` the CS base is added modulo 2^32 (log 16). -/
theorem codeAddr_toNat {md : Mode} (h : md ≠ .mode64) (s : State) (k : Nat) :
    (codeAddr s md k).toNat = ((s.cs.base.toNat + s.rip.toNat) % 2 ^ 32 + k) % 2 ^ 32 := by
  rw [codeAddr_of_ne_mode64 h, lowBits_toNat (by decide)]
  simp only [BitVec.toNat_add, BitVec.toNat_ofNat]
  omega

/-- What the offset of a code byte forbids in `Compat32` (D20). -/
theorem codeOffsetStop_compat32 (s : State) (k : Nat) :
    codeOffsetStop s .compat32 k =
      if 2 ^ 32 ≤ s.rip.toNat % 2 ^ 32 + k then some (.refuse .fetchWraps) else none := by
  simp only [codeOffsetStop, lowBits_toNat (show 32 ≤ 64 by decide)]

/-- What the offset of a code byte forbids in real-address and virtual-8086 mode (R163). -/
theorem codeOffsetStop_16 {md : Mode} (h : md = .real ∨ md = .v86) (s : State) (k : Nat) :
    codeOffsetStop s md k = if 2 ^ 16 ≤ s.rip.toNat % 2 ^ 32 + k then some (raise .gp) else none := by
  rcases h with rfl | rfl <;> simp only [codeOffsetStop, lowBits_toNat (show 32 ≤ 64 by decide)]

/-- An offset below the limit of its mode forbids nothing. -/
theorem codeOffsetStop_eq_none {md : Mode} (h : md ≠ .mode64) {s : State} {k : Nat}
    (hk : s.rip.toNat % 2 ^ 32 + k < if md = .compat32 then 2 ^ 32 else 2 ^ 16) : codeOffsetStop s md k = none := by
  cases md with
  | mode64 => exact absurd rfl h
  | compat32 => exact (codeOffsetStop_compat32 s k).trans (if_neg (Nat.not_le.2 hk))
  | real => exact (codeOffsetStop_16 (.inl rfl) s k).trans (if_neg (Nat.not_le.2 hk))
  | v86 => exact (codeOffsetStop_16 (.inr rfl) s k).trans (if_neg (Nat.not_le.2 hk))

theorem rip_add_toNat {s : State} {k : Nat} (hk : s.rip.toNat + k < 2 ^ 64) :
    (s.rip + BitVec.ofNat 64 k).toNat = s.rip.toNat + k := by
  rw [BitVec.toNat_add, BitVec.toNat_ofNat]
  omega

theorem fetchByte_nonCanonical {s : State} {k : Nat} (hk : s.rip.toNat + k < 2 ^ 64)
    (hc : canonical s.linearWidth (s.rip + BitVec.ofNat 64 k) = false) :
    fetchByte s .mode64 k = .error (.refuse .fetchNonCanonical) := by
  have hlt : ¬ 2 ^ spaceBits .mode64 ≤ (codeAddr s .mode64 0).toNat + k := by
    rw [codeAddr_mode64_zero]; exact Nat.not_le.2 hk
  have hcode : canonical s.linearWidth (codeAddr s .mode64 k) = false := hc
  simp only [fetchByte, codeOffsetStop, hlt, hcode, if_false, and_self, if_true]

/-- The fetch of one byte in `Mode64`. -/
theorem fetchByte_mode64 {s : State} {k : Nat} (hk : s.rip.toNat + k < 2 ^ 64)
    (hc : canonical s.linearWidth (s.rip + BitVec.ofNat 64 k) = true) :
    fetchByte s .mode64 k = fetchLinear s (s.rip + BitVec.ofNat 64 k) :=
  fetchByte_linear rfl (by rw [codeAddr_mode64_zero]; exact hk) fun _ => hc

/-- The fetch of one byte in the other modes, where neither the offset nor the linear address wraps. -/
theorem fetchByte_of_ne_mode64 {md : Mode} (h : md ≠ .mode64) {s : State} {k : Nat}
    (ho : codeOffsetStop s md k = none) (hk : (s.cs.base.toNat + s.rip.toNat) % 2 ^ 32 + k < 2 ^ 32) :
    fetchByte s md k = fetchLinear s (BitVec.ofNat 64 ((s.cs.base.toNat + s.rip.toNat) % 2 ^ 32 + k)) := by
  have haddr : codeAddr s md k = BitVec.ofNat 64 ((s.cs.base.toNat + s.rip.toNat) % 2 ^ 32 + k) := by
    apply BitVec.eq_of_toNat_eq
    rw [codeAddr_toNat h, BitVec.toNat_ofNat]
    omega
  rw [← haddr]
  refine fetchByte_linear ho ?_ fun hm => absurd hm h
  rw [codeAddr_toNat h, spaceBits, if_neg h]
  omega

/-- Settles O49: the tests of `fetchByte` in their order, and the answer to each verdict of `translate`. -/
theorem fetchOfOneByte : Obligations.FetchOfOneByte := by
  refine ⟨fun s k => ⟨fun hk => ?_, fun hk hc => ?_, fun hk hc => ?_⟩, ?_⟩
  · exact fetchByte_wraps rfl (by rw [codeAddr_mode64_zero]; exact hk)
  · exact fetchByte_nonCanonical hk hc
  · rw [fetchByte_mode64 hk hc]
    refine ⟨fun ht => ?_, fetchLinear_answers s _⟩
    rw [fetchLinear_identity ht, rip_add_toNat hk]
  · intro s md k hmd first
    refine ⟨?_, fun h16 hk => ?_, fun hk => ?_⟩
    · rintro rfl hk
      exact fetchByte_of_offsetStop (by rw [codeOffsetStop_compat32, if_pos hk])
    · exact fetchByte_of_offsetStop (by rw [codeOffsetStop_16 h16, if_pos hk]; rfl)
    · have ho := codeOffsetStop_eq_none hmd hk
      refine ⟨fun hw => ?_, fun hw => ?_⟩
      · refine fetchByte_wraps ho ?_
        rw [codeAddr_toNat hmd, spaceBits, if_neg hmd]
        omega
      · rw [fetchByte_of_ne_mode64 hmd ho hw]
        refine ⟨fun ht => ?_, fetchLinear_answers s _⟩
        rw [fetchLinear_identity ht, BitVec.toNat_ofNat, Nat.mod_eq_of_lt]
        omega

/-! ### The operating mode (R28, R30, R31) -/

/-- Settles O58: `State.mode` decides by PE, then VM, then LMA with CS.L, then CS.L with CS.D. -/
theorem modeFollowsTheControlBits : Obligations.ModeFollowsTheControlBits := by
  intro s
  unfold State.mode
  refine ⟨fun pe => ?real, fun pe vm => ?v86, fun pe vm lma l => ?mode64, fun pe vm l d => ?compat32,
    fun pe vm l d => ?bits16, fun pe vm lma l => ?longOutsideLongMode, ?_, fun j hj => ?_, ?_, fun j hj => ?_⟩
  case real => simp [pe]
  case v86 => simp [pe, vm]
  case mode64 => simp [pe, vm, lma, l]
  case compat32 => simp [pe, vm, l, d]
  case bits16 => simp [pe, vm, l, d]
  case longOutsideLongMode => simp [pe, vm, lma, l]
  · simp [getLsbD_readRflags]
  · simp [getLsbD_readRflags, hj]
  · simp [getLsbD_readXcr0]
  · simp [getLsbD_readXcr0, hj]

/-! ### Reset (R35) -/

@[simp] theorem reset_readZmm (r : BitVec 5) : State.reset.readZmm r = 0#512 := by
  simp [State.readZmm, State.reset]

@[simp] theorem reset_readFpr (r : BitVec 3) : State.reset.readFpr r = 0#80 := by
  simp [State.readFpr, State.reset]

@[simp] theorem reset_readK (r : BitVec 3) : State.reset.readK r = 0#64 := by
  simp [State.readK, State.reset]

@[simp] theorem reset_readGpr (r : BitVec 4) : State.reset.readGpr r = 0#64 := by
  simp [State.readGpr, State.reset]

@[simp] theorem reset_mode : State.reset.mode = some .real := rfl

/-- Settles O57, field by field of `State.reset`. -/
theorem resetMeetsTheInvariant : Obligations.ResetMeetsTheInvariant := by
  refine ⟨reset_mem_wf, fun _ => ?_, ⟨?_, ?_⟩, fun _ r j _ => ?_⟩
  · decide
  · decide
  · decide
  · simp

/-- Settles O59: the fields of `State.reset`, and its register files at every index. -/
theorem resetLeavesTheListedValues : Obligations.ResetLeavesTheListedValues := by
  refine ⟨reset_readZmm, reset_readFpr, rfl, rfl, reset_readK, rfl, fun r _ => reset_readGpr r, rfl, rfl, rfl, rfl,
    rfl, rfl, rfl, rfl, fun r hr => ?_, rfl, rfl⟩
  cases r with
  | cs => exact absurd rfl hr
  | es | ss | ds | fs | gs => exact ⟨rfl, rfl, rfl⟩

/-- At reset an MMX row without LOCK whose operand is ready completes: no feature, EM, TS or pending x87 exception
stands in its way (R192). -/
theorem exec_rowMmx_reset (e : Elem) {l : LegInstr} (hl : .lock ∉ l.pfx)
    (hr : RmReady State.reset .real .mmx (legAddr l State.reset) (· < 8) l.rm) :
    ∃ t, exec (rowMmx e l) State.reset = .next t := by
  have hstop : mmxStop l .real State.reset = none := mmxStop_none ⟨rfl, hl, rfl⟩ rfl rfl hr
  rw [exec_rowMmx]
  exact ⟨mmxDone e l .real State.reset, by simp only [mmxForm, reset_mode, hstop, finish_none]⟩

/-- At reset a memory operand within offset FFFFH is ready: `translate` is the identity, no alignment is checked. -/
theorem rmReady_reset {c : AddrInfo} {m : MemForm} (h : (place State.reset .real c m).ea.toNat + 7 < 2 ^ 16) :
    RmReady State.reset .real .mmx c (· < 8) (.mem m) := by
  refine ⟨fun hc => absurd hc (by decide), fun i hi => ⟨nofun, fun _ => ?_, 0#64, rfl⟩⟩
  omega

/-- A row whose first test raises #UD ends so. -/
theorem finish_ud (l : List (Option Stop)) (t : State) :
    finish (firstOf (udIf true :: l)) t = .fault (.exception .ud 6 none none) := rfl

/-- Settles O60: at reset CR4.OSFXSR = 0 stops the legacy SSE rows and real-address mode the VEX and EVEX rows,
each with the #UD that R169 tests first; nothing stops an MMX row. -/
theorem afterResetOnlyMmxRowsExecute : Obligations.AfterResetOnlyMmxRowsExecute := by
  intro e
  refine ⟨fun l n hl hrm => ?mmxReg, fun l m hl hrm hea => ?mmxMem, fun l => ?sse, fun n v => ?vex,
    fun n x => ?evex⟩
  case mmxReg => exact exec_rowMmx_reset e hl (by rw [hrm]; trivial)
  case mmxMem => exact exec_rowMmx_reset e hl (by rw [hrm]; exact rmReady_reset hea)
  case sse =>
    have ud : sseUd State.reset l = true := by simp [sseUd, State.osfxsr, State.reset]
    simp only [exec_rowSse, sseForm, reset_mode, sseRowStop, ud, finish_ud]
  case vex =>
    have ud : vexUd n.bits v .real State.reset = true := by simp [vexUd, vectorModeUd]
    simp only [exec_rowVex, vexForm, reset_mode, vexStop, ud, finish_ud]
  case evex =>
    have ud : evexUd n.bits x .real State.reset = true := by simp [evexUd, vectorModeUd]
    simp only [exec_rowEvex, evexForm, reset_mode, evexStop, ud, finish_ud]

end Sys2Proof.Machine
end

section
/-!
PROOFS. Memory: what a run leaves of it, stores, byte order, the effective and linear address of an operand, and where
a checked read stops for each class of row (20_memory.md).
-/

namespace Sys2Proof.Machine

/-! ### Runs write no memory and no control state (R57, D14) -/

theorem kept_refl (s : State) : Kept s s := by constructor <;> intros <;> rfl

theorem kept_trans {s u t : State} (h : Kept s u) (h' : Kept u t) : Kept s t where
  kreg := h'.kreg.trans h.kreg
  mxcsr := h'.mxcsr.trans h.mxcsr
  gpr := h'.gpr.trans h.gpr
  rflags := h'.rflags.trans h.rflags
  segments r := (h'.segments r).trans (h.segments r)
  csLong := h'.csLong.trans h.csLong
  csDefault32 := h'.csDefault32.trans h.csDefault32
  cr0 := h'.cr0.trans h.cr0
  cr4 := h'.cr4.trans h.cr4
  efer := h'.efer.trans h.efer
  xcr0 := h'.xcr0.trans h.xcr0
  features := h'.features.trans h.features
  translation := h'.translation.trans h.translation
  linearWidth := h'.linearWidth.trans h.linearWidth
  suppression := h'.suppression.trans h.suppression
  alignmentCheck := h'.alignmentCheck.trans h.alignmentCheck
  endAddress := h'.endAddress.trans h.endAddress
  memory a := (h'.memory a).trans (h.memory a)

/-- Settles O53, by induction on the number of steps, each of which ran one instruction. -/
theorem runsKeepMemoryAndControlState : Obligations.RunsKeepMemoryAndControlState := by
  intro k
  induction k with
  | zero =>
    rintro s t rfl
    exact ⟨kept_refl s, rfl, rfl⟩
  | succ k ih =>
    rintro s t ⟨u, hstep, hrun⟩
    obtain ⟨md, i, rest, -, -, -, hexec⟩ := step_next hstep
    obtain ⟨hkept, hmem, hmode⟩ := ih u t hrun
    exact ⟨kept_trans (exec_kept hexec) hkept, hmem.trans (exec_mem hexec), hmode.trans (exec_mode hexec)⟩

/-! ### `MemWrite` (R57) -/

/-- What a byte reads as after `memWrite`: a byte of the value inside the operand, the old one outside. -/
theorem read_memWrite {m : Memory} (hm : Memory.wf m) {a : Quad} {n : Nat} (ha : a.toNat + n ≤ 2 ^ 64) (v : VecReg)
    (x : Nat) :
    Memory.read (memWrite m a n v) x =
      if a.toNat ≤ x ∧ x < a.toNat + n then v.extractLsb' (8 * (x - a.toNat)) 8 else Memory.read m x := by
  rw [memWrite, read_writeBytes hm a _ (by simpa using ha) x]
  simp only [List.length_map, List.length_range, List.getElem_map, List.getElem_range, dite_eq_ite]

/-- Settles O11, from the reading of one byte after the store. -/
theorem memWriteStoresEachByte : Obligations.MemWriteStoresEachByte := by
  intro m a n v hm _ ha
  refine ⟨memWrite_wf hm a n v, fun i hi => ?_, fun x hx => ?_⟩
  · rw [read_memWrite hm ha, if_pos ⟨by omega, by omega⟩, Nat.add_sub_cancel_left]
  · rw [read_memWrite hm ha, if_neg fun ⟨hle, hlt⟩ => hx (x - a.toNat) (by omega) (by omega)]

/-! ### Byte order (R51) -/

/-- Byte `i` of an operand's value is its byte `i`. -/
theorem operandValue_byte (s : State) (md : Mode) (p : Place) {n i : Nat} (hn : n ≤ 64) (hi : i < n) :
    (operandValue s md p n).extractLsb' (8 * i) 8 = operandByte s md p i :=
  pack_elem (by decide) _ hi (by omega)

/-- A word lane is two byte lanes, the low one first. -/
theorem lane_word_eq_bytes (v : VecReg) (i : Nat) :
    lane .word v i = v.extractLsb' (8 * (2 * i + 1)) 8 ++ v.extractLsb' (8 * (2 * i)) 8 := by
  rw [BitVec.extractLsb'_append_extractLsb'_eq_extractLsb' (by omega), ← Nat.mul_assoc]
  rfl

/-- A shorter operand at the same place has the same low bits. -/
theorem operandValue_getLsbD (s : State) (md : Mode) (p : Place) {n m j : Nat} (hmn : m ≤ n) (hj : j < 8 * m) :
    (operandValue s md p n).getLsbD j = (operandValue s md p m).getLsbD j := by
  have hm : j / 8 < m := by omega
  simp [operandValue, pack_getLsbD, hm, lt_of_lt_of_le hm hmn]

theorem wrapLinear_toNat (md : Mode) (a : Quad) :
    (wrapLinear md a).toNat = a.toNat % if md = .mode64 then 2 ^ 64 else 2 ^ 32 := by
  unfold wrapLinear
  split
  · exact (Nat.mod_eq_of_lt a.isLt).symm
  · exact lowBits_toNat (by decide) a

/-- Operand bytes stand at ascending addresses, modulo the width of linear addresses (R54; log 14). -/
theorem byteAddr_toNat (md : Mode) (p : Place) (i : Nat) :
    (byteAddr md p i).toNat = (p.la.toNat + i) % if md = .mode64 then 2 ^ 64 else 2 ^ 32 := by
  rw [byteAddr, wrapLinear_toNat, BitVec.toNat_add, BitVec.toNat_ofNat]
  split <;> omega

theorem operandByte_shift {s : State} {md : Mode} {p : Place} {i : Nat} {d : Quad}
    (h : s.translate .read p.seg (byteAddr md p i) = .shift d) :
    operandByte s md p i = Memory.read s.mem (byteAddr md p i + d).toNat := by
  rw [operandByte, h]
  rfl

/-- Code bytes stand at ascending addresses below the top of the space. -/
theorem codeAddr_ascending {s : State} {md : Mode} {k : Nat} (h : (codeAddr s md 0).toNat + k < 2 ^ spaceBits md) :
    (codeAddr s md k).toNat = (codeAddr s md 0).toNat + k := by
  by_cases hmd : md = .mode64
  · subst hmd
    rw [codeAddr_mode64_zero] at h ⊢
    exact rip_add_toNat h
  · rw [spaceBits, if_neg hmd, codeAddr_toNat hmd] at h
    rw [codeAddr_toNat hmd, codeAddr_toNat hmd]
    omega

/-- With no translation rule a fetched byte is the byte of memory at its linear address. -/
theorem fetchByte_identity {s : State} {md : Mode} {k : Nat} {b : Byte} (ht : s.translation = [])
    (h : fetchByte s md k = .ok b) : b = Memory.read s.mem ((codeAddr s md 0).toNat + k) := by
  obtain ⟨-, hk, -, d, hd, rfl⟩ := fetchByte_eq_ok.1 h
  obtain rfl : 0#64 = d := by simpa [State.translate, ht, translateBy] using hd
  rw [BitVec.add_zero, State.loadByte, codeAddr_ascending hk]

/-- Settles O5: operands through their bytes, fetch byte by byte, displacements by running their parsers. -/
theorem byteOrderIsLittleEndian : Obligations.ByteOrderIsLittleEndian := by
  refine ⟨fun s md p n i hn hi => ?operand, fun s md n k b h => ?fetch, fun b0 b1 b2 b3 rest => ?displacement⟩
  case operand =>
    refine ⟨operandValue_byte s md p hn hi, operandValue_byte s md p hn hi, fun hw => ?word, byteAddr_toNat md p i,
      fun d => operandByte_shift, fun ht => ?identity, fun m hm j hj => operandValue_getLsbD s md p hm hj⟩
    case word =>
      rw [lane_word_eq_bytes, operandValue_byte s md p hn hw, operandValue_byte s md p hn (by omega)]
    case identity => rw [operandByte_identity ht, byteAddr_toNat]
  case fetch => exact ⟨by rw [fetchFrom, h], fun ht => fetchByte_identity ht h⟩
  case displacement => exact ⟨rfl, rfl⟩

/-! ### Address arithmetic modulo the address size (R53) -/

theorem lowBits_mul {n : Nat} (hn : n ≤ 64) (a b : Quad) : lowBits n (lowBits n a * b) = lowBits n (a * b) := by
  apply BitVec.eq_of_toNat_eq
  have hd : 2 ^ n ∣ 2 ^ 64 := pow_dvd_pow 2 hn
  rw [lowBits_toNat hn, lowBits_toNat hn, BitVec.toNat_mul, BitVec.toNat_mul, lowBits_toNat hn,
    Nat.mod_mod_of_dvd _ hd, Nat.mod_mod_of_dvd _ hd]
  simp [Nat.mul_mod]

/-- Only the low bits of a summand count. -/
theorem lowBits_add_congr {n : Nat} (hn : n ≤ 64) {a a' b b' : Quad} (ha : lowBits n a = lowBits n a')
    (hb : lowBits n b = lowBits n b') : lowBits n (a + b) = lowBits n (a' + b') := by
  calc lowBits n (a + b)
    _ = lowBits n (a' + b) := by rw [← lowBits_add hn a, ha, lowBits_add hn]
    _ = lowBits n (b + a') := by rw [BitVec.add_comm]
    _ = lowBits n (b' + a') := by rw [← lowBits_add hn b, hb, lowBits_add hn]
    _ = lowBits n (a' + b') := by rw [BitVec.add_comm]

theorem lowBits_lowBits {n : Nat} (hn : n ≤ 64) (a : Quad) : lowBits n (lowBits n a) = lowBits n a := by
  simpa using lowBits_add hn a 0#64

/-- A displacement of 16 bits is a whole address under 16-bit addressing. -/
theorem lowBits_signExtend16 (d : BitVec 16) : lowBits 16 (d.signExtend 64) = d.setWidth 64 := by
  have low : (d.signExtend 64).setWidth 16 = d := by
    ext j hj
    rw [BitVec.getElem_setWidth, BitVec.getLsbD_eq_getElem (by omega), BitVec.getElem_signExtend, dif_pos hj]
  rw [lowBits, low]

/-! ### The address size (R53, R98) -/

theorem addrBits_mode64 (pfx : List Pfx) : addrBits .mode64 pfx = if .addrSize ∈ pfx then 32 else 64 := by
  simp [addrBits]

theorem addrBits_compat32 (pfx : List Pfx) : addrBits .compat32 pfx = if .addrSize ∈ pfx then 16 else 32 := by
  simp [addrBits]

theorem addrBits_real (pfx : List Pfx) : addrBits .real pfx = if .addrSize ∈ pfx then 32 else 16 := by
  simp [addrBits]

theorem addrBits_v86 (pfx : List Pfx) : addrBits .v86 pfx = if .addrSize ∈ pfx then 32 else 16 := by
  simp [addrBits]

/-! ### The effective address under 32- and 64-bit addressing (R53) -/

theorem addrReg_mode64 (hi : Bool) (lo : BitVec 3) : addrReg .mode64 hi lo = reg4 hi lo := rfl

/-- The shift by the scale is a product. -/
theorem sibIndex_eq_mul (s : State) (md : Mode) (c : AddrInfo) (sc : BitVec 2) (ix : BitVec 3) :
    sibIndex s md c sc ix = if addrReg md c.x ix = 4#4 then 0#64
      else lowBits (addrBits md c.pfx) (s.readGpr (addrReg md c.x ix)) * BitVec.ofNat 64 (2 ^ sc.toNat) := by
  have hshift : ∀ a : Quad, a <<< sc.toNat = a * BitVec.ofNat 64 (2 ^ sc.toNat) := fun a => by
    apply BitVec.eq_of_toNat_eq
    simp [BitVec.toNat_mul, Nat.shiftLeft_eq, Nat.mul_mod]
  rw [sibIndex, hshift]

/-- The scaled index of R53 from the whole register. -/
def scaledIndex (s : State) (md : Mode) (c : AddrInfo) (sc : BitVec 2) (ix : BitVec 3) : Quad :=
  if addrReg md c.x ix = 4#4 then 0#64 else s.readGpr (addrReg md c.x ix) * BitVec.ofNat 64 (2 ^ sc.toNat)

section
variable {md : Mode} {c : AddrInfo} {n : Nat} (h : addrBits md c.pfx = n) (hn : n ≤ 64) (s : State)
include h

theorem effAddr_disp (d : BitVec 32) :
    effAddr s md c (.disp d) = lowBits n ((if md = .mode64 then c.next else 0#64) + d.signExtend 64) := by
  rw [effAddr, addrSum, h]

include hn

theorem lowBits_sibIndex (sc : BitVec 2) (ix : BitVec 3) :
    lowBits n (sibIndex s md c sc ix) = lowBits n (scaledIndex s md c sc ix) := by
  rw [sibIndex_eq_mul, scaledIndex, h]
  split
  · rfl
  · exact lowBits_mul hn _ _

theorem effAddr_base (rm : BitVec 3) (d : Disp) :
    effAddr s md c (.base rm d) = lowBits n (s.readGpr (addrReg md c.b rm) + d.value c.n) := by
  rw [effAddr, addrSum, h, lowBits_add hn]

theorem effAddr_sib (sc : BitVec 2) (ix bs : BitVec 3) (d : Disp) :
    effAddr s md c (.sib sc ix bs d) =
      lowBits n (s.readGpr (addrReg md c.b bs) + scaledIndex s md c sc ix + d.value c.n) := by
  rw [effAddr, addrSum, h]
  exact lowBits_add_congr hn (lowBits_add_congr hn (lowBits_lowBits hn _) (lowBits_sibIndex h hn s sc ix)) rfl

theorem effAddr_sibNoBase (sc : BitVec 2) (ix : BitVec 3) (d : BitVec 32) :
    effAddr s md c (.sibNoBase sc ix d) = lowBits n (scaledIndex s md c sc ix + d.signExtend 64) := by
  rw [effAddr, addrSum, h]
  exact lowBits_add_congr hn (lowBits_sibIndex h hn s sc ix) rfl

end

theorem baseIsStack_base (md : Mode) (c : AddrInfo) (rm : BitVec 3) (d : Disp) :
    baseIsStack md c (.base rm d) = true ↔ addrReg md c.b rm = 5#4 := by simp [baseIsStack]

theorem baseIsStack_sib (md : Mode) (c : AddrInfo) (sc : BitVec 2) (ix bs : BitVec 3) (d : Disp) :
    baseIsStack md c (.sib sc ix bs d) = true ↔ addrReg md c.b bs = 4#4 ∨ addrReg md c.b bs = 5#4 := by
  simp [baseIsStack]

/-- The forms of R53 for the operand of a format, from what its encoding brings. -/
theorem operandForms (s : State) {md : Mode} {pfx : List Pfx} {asz : Nat} (h : addrBits md pfx = asz) (x b : Bool)
    (n len : Nat) : OperandForms s md ⟨pfx, x, b, n, s.rip + BitVec.ofNat 64 len⟩ asz x b n len := by
  subst h
  intro rm ix bs sc d d32
  refine ⟨rfl, rfl, ?sib, ?sibNoBase, baseIsStack_base .., baseIsStack_sib .., rfl, rfl⟩
  case sib =>
    rw [place, effAddr, addrSum, sibIndex_eq_mul]
    rfl
  case sibNoBase =>
    rw [place, effAddr, addrSum, sibIndex_eq_mul]
    rfl

/-- The forms for the operand of every format. -/
theorem operandForms_formats (s : State) (md : Mode) (asz : Nat) :
    (∀ l : LegInstr, addrBits md l.pfx = asz →
      OperandForms s md (legAddr l s) asz (rexBit Rex.x l.rex) (rexBit Rex.b l.rex) 1 l.len)
    ∧ (∀ v : VexInstr, addrBits md v.pfx = asz → OperandForms s md (vexAddr v s) asz v.vex.x v.vex.b 1 v.len)
    ∧ ∀ (n : EvexLen) (x : EvexInstr), addrBits md x.pfx = asz →
      OperandForms s md (evexAddr n.bits x s) asz x.x x.b (n.bits / 8) x.len :=
  ⟨fun _ h => operandForms s h _ _ _ _, fun _ h => operandForms s h _ _ _ _, fun _ _ h => operandForms s h _ _ _ _⟩

/-- rBP is base number 5 without its extension bit, rSP base number 4. -/
theorem reg4_eq_low : ∀ (b : Bool) (r : BitVec 3),
    (reg4 b r = 5#4 ↔ b = false ∧ r = 5#3) ∧ (reg4 b r = 4#4 ↔ b = false ∧ r = 4#3) := by decide

/-- Settles O6: R53 with an address size of 64, or of 32 under 67. -/
theorem effectiveAddressInMode64 : Obligations.EffectiveAddressInMode64 := by
  refine ⟨fun s c rm ix bs sc d d32 => ⟨fun hp => ?wide, fun hp => ?narrow, ?baseStack, ?sibStack, rfl, rfl⟩,
    fun n d8 d32 => ⟨rfl, rfl, rfl⟩, fun s => ?formats⟩
  case wide =>
    have h : addrBits .mode64 c.pfx = 64 := by rw [addrBits_mode64, if_neg hp]
    rw [effAddr_base h le_rfl, effAddr_disp h, effAddr_sib h le_rfl, effAddr_sibNoBase h le_rfl]
    simp only [lowBits_64]
    exact ⟨rfl, rfl, rfl, rfl⟩
  case narrow =>
    have h : addrBits .mode64 c.pfx = 32 := by rw [addrBits_mode64, if_pos hp]
    refine ⟨effAddr_base h (by decide) s rm d, fun m => ?_⟩
    rw [effAddr, h, lowBits_toNat (by decide)]
    exact Nat.mod_lt _ (by decide)
  case baseStack => rw [baseIsStack_base, addrReg_mode64, (reg4_eq_low _ _).1]
  case sibStack => rw [baseIsStack_sib, addrReg_mode64, (reg4_eq_low _ _).1, (reg4_eq_low _ _).2, ← and_or_left]
  case formats =>
    have h : ∀ {pfx : List Pfx}, .addrSize ∉ pfx → addrBits .mode64 pfx = 64 := fun hp => by
      rw [addrBits_mode64, if_neg hp]
    obtain ⟨leg, vex, evex⟩ := operandForms_formats s .mode64 64
    exact ⟨fun l hp => leg l (h hp), fun v hp => vex v (h hp), fun n x hp => evex n x (h hp)⟩

/-- Settles O7: R53 with an address size of 32, in every mode. -/
theorem effectiveAddressUnder32BitAddressing : Obligations.EffectiveAddressUnder32BitAddressing := by
  refine ⟨fun s md c rm ix bs sc d d32 h => ?_, fun s md => operandForms_formats s md 32, fun pfx =>
    ⟨addrBits_mode64 pfx, addrBits_compat32 pfx, addrBits_real pfx, addrBits_v86 pfx⟩⟩
  have hn : 32 ≤ 64 := by decide
  exact ⟨effAddr_base h hn s rm d, effAddr_disp h s d32, effAddr_sib h hn s sc ix bs d,
    effAddr_sibNoBase h hn s sc ix d32, baseIsStack_base .., baseIsStack_sib .., rfl, rfl⟩

/-! ### The effective address under 16-bit addressing (R53) -/

theorem effAddr_base16 {md : Mode} {c : AddrInfo} (h : addrBits md c.pfx = 16) (s : State) (rm : BitVec 3)
    (d : Disp16) : effAddr s md c (.base16 rm d) = lowBits 16 (base16 s rm + d.value c.n) := by
  rw [effAddr, addrSum, h]

theorem effAddr_disp16 {md : Mode} {c : AddrInfo} (h : addrBits md c.pfx = 16) (s : State) (d : BitVec 16) :
    effAddr s md c (.disp16 d) = d.setWidth 64 := by
  rw [effAddr, addrSum, h, lowBits_signExtend16]

/-- The factor `N = 1` of the LEG and VEX formats (R94). -/
theorem disp16_value_one (d8 : BitVec 8) : (Disp16.d8 d8).value 1 = d8.signExtend 64 := BitVec.mul_one _

/-- Settles O9: each row of the table is the register sum that `base16` gives for its number. -/
theorem effectiveAddressUnder16BitAddressing : Obligations.EffectiveAddressUnder16BitAddressing := by
  refine ⟨fun s md c d d16 h => ?table, fun n d8 d16 => ⟨rfl, rfl, rfl⟩, fun s md rm d8 =>
    ⟨fun l h => ?leg, fun v h => ?vex, fun n x h => effAddr_base16 h s rm (.d8 d8)⟩⟩
  case table =>
    have row := fun rm => effAddr_base16 h s rm d
    refine ⟨row 0#3, row 1#3, row 2#3, row 3#3, row 4#3, row 5#3, row 6#3, row 7#3, effAddr_disp16 h s d16,
      fun rm => ?_, rfl⟩
    simp [baseIsStack, or_assoc]
  case leg =>
    rw [← disp16_value_one]
    exact effAddr_base16 (c := legAddr l s) h s rm (.d8 d8)
  case vex =>
    rw [← disp16_value_one]
    exact effAddr_base16 (c := vexAddr v s) h s rm (.d8 d8)

/-! ### Segment and linear address (R54) -/

/-- There is no override exactly when no segment override stands among the prefixes. -/
theorem segOverride_eq_none {pfx : List Pfx} : segOverride pfx = none ↔ ∀ r, .seg r ∉ pfx := by
  induction pfx with
  | nil => simp [segOverride]
  | cons p ps ih =>
    cases p with
    | seg q => exact ⟨nofun, fun h => absurd List.mem_cons_self (h q)⟩
    | addrSize | opSize | lock | repne | rep => simpa [segOverride] using ih

/-- The override is one of the segment overrides among the prefixes. -/
theorem mem_of_segOverride {pfx : List Pfx} {r : SegReg} (h : segOverride pfx = some r) : .seg r ∈ pfx := by
  induction pfx with
  | nil => cases h
  | cons p ps ih =>
    cases p with
    | seg q =>
      obtain rfl : q = r := Option.some.inj h
      exact List.mem_cons_self
    | addrSize | opSize | lock | repne | rep => exact List.mem_cons_of_mem _ (ih h)

theorem place_la (s : State) (md : Mode) (c : AddrInfo) (m : MemForm) :
    (place s md c m).la = wrapLinear md (segBase s md (place s md c m).seg + (place s md c m).ea) := rfl

/-- In `Mode64` only FS and GS have a base. -/
theorem segBase_mode64 (s : State) (r : SegReg) :
    segBase s .mode64 r = if r = .fs then s.fs.base else if r = .gs then s.gs.base else 0#64 := by
  cases r <;> rfl

theorem segBase_of_ne_mode64 {md : Mode} (h : md ≠ .mode64) (s : State) (r : SegReg) :
    segBase s md r = (s.segment r).base := by
  rw [segBase, if_neg fun hc => h hc.1]

/-- Outside `Mode64` the linear address is base plus effective address modulo 2^32 (log 2). -/
theorem place_la_toNat {md : Mode} (h : md ≠ .mode64) (s : State) (c : AddrInfo) (m : MemForm) :
    (place s md c m).la.toNat =
      ((s.segment (place s md c m).seg).base.toNat + (place s md c m).ea.toNat) % 2 ^ 32 := by
  rw [place_la, wrapLinear_toNat, if_neg h, segBase_of_ne_mode64 h, BitVec.toNat_add]
  omega

/-- The segment of R54 for any address data, with its own prefixes. -/
theorem operandSegment (s : State) (md : Mode) (c : AddrInfo) : OperandSegment s md c c.pfx := fun _ =>
  rfl

/-- Settles O10: the segment by the cases of its override and mode, and the linear address from the base. -/
theorem linearAddressOfOperand : Obligations.LinearAddressOfOperand := by
  refine ⟨fun s md c m => ⟨fun h => ?default, fun r h hmd => ?override, fun r h hmd hfs hgs => ?ignored,
    fun hmd => ?la64, fun hmd => place_la_toNat hmd s c m⟩,
    fun s md => ⟨fun l => operandSegment s md (legAddr l s), fun v => operandSegment s md (vexAddr v s),
      fun n x => operandSegment s md (evexAddr n.bits x s)⟩,
    fun pfx => ⟨segOverride_eq_none, fun r => mem_of_segOverride⟩⟩
  case default => rw [operandSegment, h]
  case override =>
    rw [operandSegment, h]
    exact if_neg (by tauto)
  case ignored =>
    rw [operandSegment, h]
    exact if_pos ⟨hmd, hfs, hgs⟩
  case la64 =>
    subst hmd
    rw [place_la, segBase_mode64]
    cases (place s .mode64 c m).seg <;> simp [wrapLinear]

/-! ### Where a checked read stops (20_memory.md R54, R55, R58; 60_exceptions.md R163 to R169) -/

/-- In a rising list of bytes a byte's stop is the first one met when the bytes below it have none, or the same. -/
theorem firstOf_map_of_below {l : List Nat} {f : Nat → Option Stop} {st : Stop} {j : Nat}
    (hl : l.Pairwise (· < ·)) (hj : j ∈ l) (hbelow : ∀ i ∈ l, i < j → f i = none ∨ f i = some st)
    (hf : f j = some st) : firstOf (l.map f) = some st := by
  induction l with
  | nil => cases hj
  | cons a l ih =>
    rw [List.pairwise_cons] at hl
    rcases List.mem_cons.1 hj with rfl | hj
    · rw [List.map_cons, hf, firstOf_some]
    · rcases hbelow a List.mem_cons_self (hl.1 j hj) with ha | ha
      · rw [List.map_cons, ha, firstOf_none]
        exact ih hl.2 hj fun i hi => hbelow i (List.mem_cons_of_mem _ hi)
      · rw [List.map_cons, ha, firstOf_some]

/-- R169 item 5 comes first. -/
theorem readStop_of_form {s : State} {md : Mode} {al : Align} {p : Place} {bytes : List Nat} {st : Stop}
    (h : firstOf (bytes.map (formStop s md p)) = some st) : readStop s md al p bytes = some st := by
  rw [readStop, h, firstOf_some]

/-- R169 item 6, where item 5 forbids no byte. -/
theorem readStop_of_sse {s : State} {md : Mode} {al : Align} {p : Place} {bytes : List Nat} {st : Stop}
    (hform : ∀ i ∈ bytes, ByteFormed s md p i) (h : sseStop s al p = some st) :
    readStop s md al p bytes = some st := by
  rw [readStop, firstOf_map_none fun i hi => formStop_eq_none.2 (hform i hi), firstOf_none, h, firstOf_some]

/-- R169 item 7, where items 5 and 6 forbid nothing. -/
theorem readStop_of_page {s : State} {md : Mode} {al : Align} {p : Place} {bytes : List Nat} {st : Stop}
    (hform : ∀ i ∈ bytes, ByteFormed s md p i) (hsse : sseStop s al p = none)
    (h : firstOf (bytes.map (pageStop s md p)) = some st) : readStop s md al p bytes = some st := by
  rw [readStop, firstOf_map_none fun i hi => formStop_eq_none.2 (hform i hi), firstOf_none, hsse, firstOf_none, h,
    firstOf_some]

/-- Whichever of the bytes in `checked` a read looks at, in rising order and byte `j` among them, it stops so. The
bytes looked at are all of the operand, or under fault suppression those of its enabled elements (R165). -/
def ReadStopsAt (s : State) (md : Mode) (al : Align) (p : Place) (checked : Nat → Prop) (j : Nat)
    (st : Stop) : Prop :=
  ∀ bytes : List Nat, bytes.Pairwise (· < ·) → j ∈ bytes → (∀ i ∈ bytes, checked i) →
    readStop s md al p bytes = some st

/-- The check of a whole operand. -/
theorem ReadStopsAt.rmStop {s : State} {md : Mode} {al : Align} {c : AddrInfo} {m : MemForm} {n j : Nat} {st : Stop}
    (h : ReadStopsAt s md al (place s md c m) (· < n) j st) (hj : j < n) :
    rmStop s md al c n (.mem m) = some st :=
  h (List.range n) (range_sorted n) (List.mem_range.2 hj) fun _ => List.mem_range.1

theorem evexBytes_le (n : EvexLen) : n.bits / 8 ≤ 64 := by cases n <;> decide

/-- The check under a writemask: with fault suppression the bytes of enabled elements are read, without it all, and
under `either` both checks stop alike (R165, D19). -/
theorem ReadStopsAt.rmStopMasked {s : State} {md : Mode} {c : AddrInfo} {m : MemForm} {e : Elem} {n : EvexLen}
    {x : EvexInstr} {j : Nat} {st : Stop}
    (h : ReadStopsAt s md .vector (place s md c m) (EvexChecked e n x s) j st) (hj : EvexChecked e n x s j)
    (heither : s.suppression = .either → ByteEnabled e x s j) :
    rmStopMasked s md c e (s.writemask x.aaa) (n.bits / 8) (.mem m) = some st := by
  refine rmStopMasked_some (fun hyes => ?full) (fun hno => ?part)
  case full =>
    exact h _ (range_sorted _) (List.mem_range.2 hj.1) fun i hi =>
      ⟨List.mem_range.1 hi, fun hsup => absurd hsup hyes⟩
  case part =>
    have enabled : ByteEnabled e x s j := by
      cases hsup : s.suppression with
      | yes => exact hj.2 hsup
      | no => exact absurd hsup hno
      | either => exact heither hsup
    refine h _ (enabledBytes_sorted _ _ _) ((mem_enabledBytes (evexBytes_le n)).2 ⟨hj.1, enabled⟩) fun i hi => ?_
    obtain ⟨hlt, hi⟩ := (mem_enabledBytes (evexBytes_le n)).1 hi
    exact ⟨hlt, fun _ => hi⟩

/-! ### The rows whose memory operand stops -/

section
variable {e : Elem} {s : State} {md : Mode} {m : MemForm} {j : Nat} {st : Stop}

theorem exec_rowMmx_readStopsAt {l : LegInstr} (hm : s.mode = some md) (ht : s.ts = false) (hrm : l.rm = .mem m)
    (he : MmxEnabled s l) (hx : s.x87Es = false) (hj : j < 8)
    (h : ReadStopsAt s md .mmx (place s md (legAddr l s) m) (· < 8) j st) : exec (rowMmx e l) s = st.out :=
  exec_rowMmx_stop hm he ht hx (hrm ▸ h.rmStop hj)

theorem exec_rowSse_readStopsAt {l : LegInstr} (hm : s.mode = some md) (ht : s.ts = false) (hrm : l.rm = .mem m)
    (he : SseEnabled s l) (hj : j < 16)
    (h : ReadStopsAt s md .sse (place s md (legAddr l s) m) (· < 16) j st) : exec (rowSse e l) s = st.out :=
  exec_rowSse_stop hm he ht (hrm ▸ h.rmStop hj)

theorem exec_rowVex_readStopsAt {n : VexLen} {v : VexInstr} (hm : s.mode = some md) (ht : s.ts = false)
    (hrm : v.rm = .mem m) (he : VexEnabled n s md v) (hj : j < n.bits / 8)
    (h : ReadStopsAt s md .vector (place s md (vexAddr v s) m) (· < n.bits / 8) j st) :
    exec (rowVex e n v) s = st.out :=
  exec_rowVex_stop hm he ht (hrm ▸ h.rmStop hj)

theorem exec_rowEvex_readStopsAt {n : EvexLen} {x : EvexInstr} (hm : s.mode = some md) (ht : s.ts = false)
    (hrm : x.rm = .mem m) (he : EvexEnabled n s md x) (hj : EvexChecked e n x s j)
    (heither : s.suppression = .either → ByteEnabled e x s j)
    (h : ReadStopsAt s md .vector (place s md (evexAddr n.bits x s) m) (EvexChecked e n x s) j st) :
    exec (rowEvex e n x) s = st.out :=
  exec_rowEvex_stop hm he ht (hrm ▸ h.rmStopMasked hj heither)

end

/-! ### Misaligned legacy SSE operands (R55) -/

/-- Where the linear and the effective address are both off a 16-byte boundary no free value is asked. -/
theorem sseStop_misaligned {s : State} {p : Place} (hla : p.la.toNat % 16 ≠ 0) (hea : p.ea.toNat % 16 ≠ 0) :
    sseStop s .sse p = some (raise .gp) := by
  simp [sseStop, multipleOf, hla, hea]

/-- Settles O31: item 6 of R169, which item 5 lets through and item 7 comes after. -/
theorem misalignedSseOperandRaisesGp : Obligations.MisalignedSseOperandRaisesGp := by
  intro e l m s md hm he ht hrm hform hla hea
  have stops : ReadStopsAt s md .sse (place s md (legAddr l s) m) (· < 16) 0 (raise .gp) := fun _ _ _ hlt =>
    readStop_of_sse (fun i hi => hform i (hlt i hi)) (sseStop_misaligned hla hea)
  exact exec_rowSse_readStopsAt hm ht hrm he (by decide) stops

/-! ### Non-canonical operands (R54) -/

theorem formStop_nonCanonical {s : State} {p : Place} {i : Nat}
    (h : canonical s.linearWidth (byteAddr .mode64 p i) = false) :
    formStop s .mode64 p i = some (segFault p.seg) := by
  simp [formStop, h]

/-- In `Mode64` a byte without a segment verdict of `translate` stops at item 5 for its address alone. -/
theorem formStop_mode64 {s : State} {p : Place} {i : Nat}
    (h : s.translate .read p.seg (byteAddr .mode64 p i) ≠ .gp
      ∧ s.translate .read p.seg (byteAddr .mode64 p i) ≠ .ss) :
    formStop s .mode64 p i = none ∨ formStop s .mode64 p i = some (segFault p.seg) := by
  cases hc : canonical s.linearWidth (byteAddr .mode64 p i) with
  | false => exact .inr (formStop_nonCanonical hc)
  | true => exact .inl (formStop_eq_none.2 ⟨fun _ => hc, nofun, h⟩)

/-- The bytes below the given one pass item 5 or stop for the same reason. -/
theorem readStopsAt_nonCanonical {s : State} {al : Align} {p : Place} {checked : Nat → Prop} {j : Nat}
    (hc : canonical s.linearWidth (byteAddr .mode64 p j) = false) (hv : NoSegmentVerdict s .mode64 p j) :
    ReadStopsAt s .mode64 al p checked j (segFault p.seg) := fun _ hsorted hj _ =>
  readStop_of_form (firstOf_map_of_below hsorted hj (fun i _ hij => formStop_mode64 (hv i hij))
    (formStop_nonCanonical hc))

theorem segFault_out (r : SegReg) :
    (segFault r).out =
      if r = .ss then .fault (.exception .ss 12 (some 0#32) none) else .fault (.exception .gp 13 (some 0#32) none) := by
  unfold segFault
  split <;> rfl

/-- Settles O32, by class of row: the operand's check stops at byte `j` with the fault of its segment. -/
theorem nonCanonicalOperandFaults : Obligations.NonCanonicalOperandFaults := by
  intro e s m j hm ht
  refine ⟨fun l hrm hj hc hv => ⟨fun he => ?sse, fun he hx hj8 => ?mmx⟩, fun n v hrm he hj hc hv => ?vex,
    fun n x hrm he hj henabled hc hv => ?evex⟩
  case sse => exact (exec_rowSse_readStopsAt hm ht hrm he hj (readStopsAt_nonCanonical hc hv)).trans (segFault_out _)
  case mmx =>
    exact (exec_rowMmx_readStopsAt hm ht hrm he hx hj8 (readStopsAt_nonCanonical hc hv)).trans (segFault_out _)
  case vex => exact (exec_rowVex_readStopsAt hm ht hrm he hj (readStopsAt_nonCanonical hc hv)).trans (segFault_out _)
  case evex =>
    have enabled : s.suppression ≠ .no → ByteEnabled e x s j := fun hno => by
      rcases henabled with h | h | h
      · exact .inl h
      · exact .inr h
      · exact absurd h hno
    have checked : EvexChecked e n x s j := ⟨hj, fun hsup => enabled (by simp [hsup])⟩
    exact (exec_rowEvex_readStopsAt hm ht hrm he checked (fun hsup => enabled (by simp [hsup]))
      (readStopsAt_nonCanonical hc hv)).trans (segFault_out _)

/-! ### Segment verdicts of `translate` (R54, R58; log 18) -/

/-- The exception of a segment verdict. -/
theorem formStop_segmentVerdict {s : State} {md : Mode} {p : Place} {i : Nat} {verdict : TranslateVerdict}
    {x : Exception} (hx : (verdict = .gp ∧ x = .gp) ∨ (verdict = .ss ∧ x = .ss))
    (hc : md = .mode64 → canonical s.linearWidth (byteAddr md p i) = true)
    (ho : md = .real ∨ md = .v86 → p.ea.toNat + i < 2 ^ 16)
    (hv : s.translate .read p.seg (byteAddr md p i) = verdict) : formStop s md p i = some (raise x) := by
  have hcanon : ¬ (md = .mode64 ∧ canonical s.linearWidth (byteAddr md p i) = false) := fun ⟨hm, hf⟩ => by
    rw [hc hm] at hf; cases hf
  have hoffset : ¬ ((md = .real ∨ md = .v86) ∧ 2 ^ 16 ≤ p.ea.toNat + i) := fun ⟨hm, hge⟩ =>
    Nat.not_le.2 (ho hm) hge
  rw [formStop, if_neg hcanon, if_neg hoffset, hv]
  rcases hx with ⟨rfl, rfl⟩ | ⟨rfl, rfl⟩ <;> rfl

theorem readStopsAt_segmentVerdict {s : State} {md : Mode} {al : Align} {p : Place} {checked : Nat → Prop} {j : Nat}
    {verdict : TranslateVerdict} {x : Exception} (hx : (verdict = .gp ∧ x = .gp) ∨ (verdict = .ss ∧ x = .ss))
    (h : FirstSegmentFault s md p checked j verdict) : ReadStopsAt s md al p checked j (raise x) := by
  obtain ⟨-, hbelow, hc, ho, hv⟩ := h
  exact fun _ hsorted hj hchecked => readStop_of_form (firstOf_map_first hsorted hj
    (fun i hi hij => formStop_eq_none.2 (hbelow i (hchecked i hi) hij)) (formStop_segmentVerdict hx hc ho hv))

/-- Settles O37, by class of row: item 5 passes the bytes below byte `j` and raises the verdict on it. -/
theorem segmentVerdictsOfTranslateAreRaised : Obligations.SegmentVerdictsOfTranslateAreRaised := by
  intro e m s md j verdict x vector hm ht hx report
  have exception : (verdict = .gp ∧ x = .gp) ∨ (verdict = .ss ∧ x = .ss) :=
    hx.imp (fun h => ⟨h.1, h.2.1⟩) fun h => ⟨h.1, h.2.1⟩
  have hout : (raise x).out = report := by rcases hx with ⟨-, rfl, rfl⟩ | ⟨-, rfl, rfl⟩ <;> rfl
  rw [← hout]
  refine ⟨fun l hrm => ⟨fun he hx87 h => ?mmx, fun he h => ?sse⟩, fun n v hrm he h => ?vex,
    fun n i hrm he h heither => ?evex⟩
  case mmx => exact exec_rowMmx_readStopsAt hm ht hrm he hx87 h.1 (readStopsAt_segmentVerdict exception h)
  case sse => exact exec_rowSse_readStopsAt hm ht hrm he h.1 (readStopsAt_segmentVerdict exception h)
  case vex => exact exec_rowVex_readStopsAt hm ht hrm he h.1 (readStopsAt_segmentVerdict exception h)
  case evex => exact exec_rowEvex_readStopsAt hm ht hrm he h.1 heither (readStopsAt_segmentVerdict exception h)

/-! ### Page verdicts of `translate` (R58, R59, D24) -/

/-- The error code of a #PF raised by a read, as a sum of its bits P, U/S and RSVD (R58). -/
theorem pfCode_read (p rsvd : Bool) (cpl : BitVec 2) :
    pfCode p rsvd cpl .read = BitVec.ofNat 32 ((if p then 1 else 0) + (if cpl = 3#2 then 4 else 0)
      + (if rsvd then 8 else 0)) := by
  revert p rsvd cpl; decide

theorem sseStop_mmx (s : State) (p : Place) : sseStop s .mmx p = none := by simp [sseStop]

theorem sseStop_vector (s : State) (p : Place) : sseStop s .vector p = none := by simp [sseStop]

theorem readStopsAt_pageVerdict {s : State} {md : Mode} {al : Align} {p : Place} {checked : Nat → Prop} {j : Nat}
    {verdict : TranslateVerdict} {st : Stop} (h : FirstPageVerdict s md p checked j verdict)
    (hsse : sseStop s al p = none) (hst : pageStop s md p j = some st) : ReadStopsAt s md al p checked j st := by
  obtain ⟨-, hform, hbelow, -⟩ := h
  exact fun _ hsorted hj hchecked => readStop_of_page (fun i hi => hform i (hchecked i hi)) hsse
    (firstOf_map_first hsorted hj (fun i hi hij => pageStop_none (hbelow i (hchecked i hi) hij)) hst)

/-- Settles O36, by class of row: items 5 and 6 pass, and item 7 stops at byte `j` with what its verdict asks. -/
theorem lowestPageFaultIsReported : Obligations.LowestPageFaultIsReported := by
  intro e m s md j verdict report hm ht hreport
  have page : ∀ {p : Place} {checked : Nat → Prop}, FirstPageVerdict s md p checked j verdict →
      ∃ st, pageStop s md p j = some st ∧ st.out = report p := by
    intro p checked ⟨_, _, _, hv⟩
    rcases hreport with ⟨pb, rsvd, rfl, rfl⟩ | ⟨rfl, rfl⟩
    · refine ⟨raisePf (pfCode pb rsvd s.cpl .read) (byteAddr md p j), by rw [pageStop, hv], ?_⟩
      rw [pfCode_read]
      rfl
    · exact ⟨.refuse .translateRejects, by rw [pageStop, hv], rfl⟩
  refine ⟨fun l hrm => ⟨fun he hx h => ?mmx, fun he ha h => ?sse⟩, fun n v hrm he h => ?vex,
    fun n x hrm he h heither => ?evex⟩
  all_goals obtain ⟨st, hst, hout⟩ := page h
  all_goals rw [← hout]
  case mmx =>
    exact exec_rowMmx_readStopsAt hm ht hrm he hx h.1 (readStopsAt_pageVerdict h (sseStop_mmx s _) hst)
  case sse => exact exec_rowSse_readStopsAt hm ht hrm he h.1 (readStopsAt_pageVerdict h (sseStop_none ha) hst)
  case vex => exact exec_rowVex_readStopsAt hm ht hrm he h.1 (readStopsAt_pageVerdict h (sseStop_vector s _) hst)
  case evex =>
    exact exec_rowEvex_readStopsAt hm ht hrm he h.1 heither (readStopsAt_pageVerdict h (sseStop_vector s _) hst)

/-! ### Legacy SSE operands of which one address is aligned (93 U9; log 12) -/

/-- The alignment test of a legacy SSE operand raises nothing but #GP(0). -/
theorem sseStop_cases (s : State) (al : Align) (p : Place) :
    sseStop s al p = none ∨ sseStop s al p = some (raise .gp) := by
  cases h : sseStop s al p with
  | none => exact .inl rfl
  | some st => exact .inr (by rw [sseStop_some h])

/-- Where the bytes are readable and alignment is not checked, the test of item 6 alone decides. -/
theorem readStop_eq_sseStop {s : State} {md : Mode} {al : Align} {p : Place} {bytes : List Nat}
    (hread : ∀ i ∈ bytes, ByteReadable s md p i) (hac : s.alignmentChecked = false) :
    readStop s md al p bytes = sseStop s al p := by
  have hnone : acStop s al p = none := by simp [acStop, hac]
  rw [readStop, firstOf_map_none fun i hi => formStop_none (hread i hi), firstOf_none,
    firstOf_map_none fun i hi => pageStop_none (hread i hi), hnone]
  cases sseStop s al p <;> rfl

/-- A legacy SSE row whose operand check passes completes. -/
theorem exec_rowSse_done {e : Elem} {l : LegInstr} {s : State} {md : Mode} (hm : s.mode = some md)
    (he : SseEnabled s l) (ht : s.ts = false) (h : rmStop s md .sse (legAddr l s) 16 l.rm = none) :
    exec (rowSse e l) s = .next (sseDone e l md s) := by
  obtain ⟨h1, h2, h3, h4⟩ := he
  have hu : sseUd s l = false := by simp [sseUd, hasLock, h1, h2, h3, h4]
  simp [sseForm, hm, sseRowStop, hu, nmStop_eq_none.2 ht, h]

/-- The lanes of a completed legacy SSE row (R124). -/
theorem sseDone_lane (e : Elem) (l : LegInstr) (md : Mode) (s : State) {i : Nat} (hi : i < 128 / e.bits) :
    LaneIsSum e ((sseDone e l md s).readZmm l.xmmDst) (s.readZmm l.xmmDst)
      (rmValue s md (legAddr l s) 16 (sseReg l s) l.rm) i := by
  have hlane : lane e ((sseDone e l md s).readZmm l.xmmDst) i = lane e (sseResult e l md s) i := by
    rw [sseDone, retire_readZmm, readZmm_writeZmm_same]
    exact lane_congr (fun j hj => keepUpper_low _ _ hj) hi
  rw [LaneIsSum, hlane, sseResult, lane_padds e _ _ hi (by decide), satAdd_toInt]

/-- Settles O34: the free value of log 12 gives #GP(0) or nothing, and nothing else can stop the row. -/
theorem halfAlignedSseOperand : Obligations.HalfAlignedSseOperand := by
  intro e l m s md hm he ht hrm hread _ hac
  have hstop : rmStop s md .sse (legAddr l s) 16 l.rm = sseStop s .sse (place s md (legAddr l s) m) := by
    rw [hrm, rmStop, readStop_eq_sseStop (fun i hi => hread i (List.mem_range.1 hi)) hac]
  rcases sseStop_cases s .sse (place s md (legAddr l s) m) with h | h
  · rw [h] at hstop
    refine .inr ⟨sseDone e l md s, exec_rowSse_done hm he ht hstop, fun i hi => ?_, kept_writeZmm_retire ..⟩
    have hlane := sseDone_lane e l md s hi
    rw [hrm] at hlane
    exact hlane
  · rw [h] at hstop
    exact .inl (exec_rowSse_stop hm he ht hstop)

end Sys2Proof.Machine
end

section
/-!
PROOFS. The encoding: which bytes the decoder answers a verdict on, that it reads no further than it needs, the
lengths of encodings, register numbers and scaled displacements (30_encoding.md), and the steps that follow from them.
-/

namespace Sys2Proof

/-! ### Rows of a format (30_encoding.md R80, R96) -/

@[simp] theorem encode_legRow (xmm word : Bool) (l : LegInstr) : encode (legRow xmm word l) = l.bytes word := by
  cases xmm <;> cases word <;> rfl

@[simp] theorem encode_vexRow (len word : Bool) (v : VexInstr) : encode (vexRow len word v) = v.bytes len word := by
  cases len <;> cases word <;> rfl

@[simp] theorem wfParts_legRow (md : Mode) (xmm word : Bool) (l : LegInstr) :
    (legRow xmm word l).wfParts md = l.wf md xmm := by
  cases xmm <;> cases word <;> rfl

@[simp] theorem wfParts_vexRow (md : Mode) (len word : Bool) (v : VexInstr) :
    (vexRow len word v).wfParts md = v.wf md := by
  cases len <;> cases word <;> rfl

/-- `L'L = 11b` is the one vector length that selects no row (R97 item 2). -/
theorem evexRow_eq_reservedLength {ll : BitVec 2} {word : Bool} {x : EvexInstr} :
    evexRow ll word x = .reservedLength ↔ ll = 3#2 := by
  rcases two_values ll with rfl | rfl | rfl | rfl <;> simp [evexRow]

/-- The row that an EVEX encoding selects has that encoding and its well-formedness. -/
theorem encode_of_evexRow {ll : BitVec 2} {word : Bool} {x : EvexInstr} {i : Instr} (h : evexRow ll word x = .row i)
    (md : Mode) : encode i = x.bytes ll word ∧ i.wfParts md = x.wf md := by
  rcases two_values ll with rfl | rfl | rfl | rfl
  case inr.inr.inr => cases h
  all_goals
    obtain rfl := Verdict.row.inj h
    cases word <;> exact ⟨rfl, rfl⟩

/-- The bytes of which a verdict is the reading in a mode, format by format (R80). -/
inductive Encodes (md : Mode) : Verdict → List Byte → Prop
  | leg {l : LegInstr} {xmm : Bool} (word : Bool) (h : l.wf md xmm = true) :
    Encodes md (.row (legRow xmm word l)) (l.bytes word)
  | vex {v : VexInstr} (len word : Bool) (h : v.wf md = true) : Encodes md (.row (vexRow len word v)) (v.bytes len word)
  | evex {x : EvexInstr} (ll : BitVec 2) (word : Bool) (h : x.wf md = true) :
    Encodes md (evexRow ll word x) (x.bytes ll word)

/-- An instruction is the reading of its encoding alone, and is well formed apart from its length. -/
theorem encodes_row {md : Mode} {i : Instr} {code : List Byte} :
    Encodes md (.row i) code ↔ code = encode i ∧ i.wfParts md = true := by
  constructor
  · generalize hv : Verdict.row i = v
    rintro (⟨word, h⟩ | ⟨len, word, h⟩ | ⟨ll, word, h⟩)
    case leg => obtain rfl := Verdict.row.inj hv; simpa using h
    case vex => obtain rfl := Verdict.row.inj hv; simpa using h
    case evex =>
      obtain ⟨hcode, hwf⟩ := encode_of_evexRow hv.symm md
      exact ⟨hcode.symm, hwf.trans h⟩
  · rintro ⟨rfl, h⟩
    cases i with
    | paddsbMm l => exact .leg (xmm := false) false h
    | paddsbXmm l => exact .leg (xmm := true) false h
    | paddswMm l => exact .leg (xmm := false) true h
    | paddswXmm l => exact .leg (xmm := true) true h
    | vpaddsbVex128 v => exact .vex false false h
    | vpaddswVex128 v => exact .vex false true h
    | vpaddsbVex256 v => exact .vex true false h
    | vpaddswVex256 v => exact .vex true true h
    | vpaddsbEvex128 x => exact .evex 0#2 false h
    | vpaddsbEvex256 x => exact .evex 1#2 false h
    | vpaddsbEvex512 x => exact .evex 2#2 false h
    | vpaddswEvex128 x => exact .evex 0#2 true h
    | vpaddswEvex256 x => exact .evex 1#2 true h
    | vpaddswEvex512 x => exact .evex 2#2 true h

/-- The reserved length is the reading of the EVEX encodings with `L'L = 11b` (R97 item 2). -/
theorem encodes_reservedLength {md : Mode} {code : List Byte} :
    Encodes md .reservedLength code ↔ ∃ (x : EvexInstr) (word : Bool), x.wf md = true ∧ code = x.bytes 3#2 word := by
  constructor
  · generalize hv : Verdict.reservedLength = v
    rintro (_ | _ | ⟨ll, word, h⟩)
    case leg => cases hv
    case vex => cases hv
    case evex =>
      obtain rfl := evexRow_eq_reservedLength.1 hv.symm
      exact ⟨_, word, h, rfl⟩
  · rintro ⟨x, word, h, rfl⟩
    exact .evex 3#2 word h

/-! ### Well-formedness, condition by condition -/

theorem LegInstr.wf_iff {md : Mode} {xmm : Bool} {l : LegInstr} :
    l.wf md xmm = true ↔ pfxWf l.pfx = true ∧ rexWf md l.rex = true ∧ l.rm.wf (addr16 md l.pfx) = true
      ∧ .rep ∉ l.pfx ∧ .repne ∉ l.pfx ∧ l.pfx.contains .opSize = xmm := by
  simp [LegInstr.wf, and_assoc]

theorem VexInstr.wf_iff {md : Mode} {v : VexInstr} :
    v.wf md = true ↔ pfxWf v.pfx = true ∧ rexWf md v.rex = true ∧ v.rm.wf (addr16 md v.pfx) = true
      ∧ (md = .mode64 ∨ v.vex.low = true) := by
  simp [VexInstr.wf, and_assoc]

theorem EvexInstr.wf_iff {md : Mode} {x : EvexInstr} :
    x.wf md = true ↔ pfxWf x.pfx = true ∧ rexWf md x.rex = true ∧ x.rm.wf (addr16 md x.pfx) = true
      ∧ (md = .mode64 ∨ x.low = true) := by
  simp [EvexInstr.wf, and_assoc]

/-- The check of the high register bits passes exactly in `Mode64` and for low numbers (R89, D17). -/
theorem not_high_iff {md : Mode} {low : Bool} :
    ¬ (md ≠ .mode64 ∧ low = false) ↔ md = .mode64 ∨ low = true := by
  rw [not_and_or, not_not, Bool.not_eq_false]

/-! ### Legacy prefixes and REX in front of a format (R81, R88) -/

theorem Pfx.ofByte_rexByte (r : Rex) : Pfx.ofByte r.byte = none := by
  obtain ⟨w, r, x, b⟩ := r; revert w r x b; decide

theorem decode_headBytes {md : Mode} {pfx : List Pfx} {rex : Option Rex} (hp : pfxWf pfx = true)
    (hr : rexWf md rex = true) {b : Byte} (hb : Pfx.ofByte b = none) (hx : Rex.isRex b = false) (rest : List Byte) :
    decode md (headBytes pfx rex ++ b :: rest) = takeFormat md pfx rex (b :: rest) := by
  have hn : (([] ++ pfx).map Pfx.kind).Nodup := of_decide_eq_true hp
  cases rex with
  | none => simp [decode, headBytes, takePfx_bytes pfx [] hn hb, hx]
  | some r =>
    obtain rfl : md = .mode64 := by simpa [rexWf] using hr
    obtain ⟨hof, his⟩ := Rex.ofByte_byte r
    simp [decode, headBytes, takePfx_bytes pfx [] hn (Pfx.ofByte_rexByte r), hof, his]

/-- What the decoder answers it has read from prefixes, a REX and a format. -/
theorem decode_ok {md : Mode} {bs rest : List Byte} {v : Verdict} (h : decode md bs = .ok v rest) :
    ∃ pfx rex mid, pfxWf pfx = true ∧ rexWf md rex = true ∧ bs = headBytes pfx rex ++ mid
      ∧ takeFormat md pfx rex mid = .ok v rest := by
  obtain ⟨pfx, mid, h1, h⟩ := andThen_ok h
  obtain ⟨hn, hbs, -⟩ := takePfx_ok (seen := []) List.nodup_nil h1
  obtain ⟨b, tail, h2, h⟩ := andThen_ok h
  obtain rfl := takeByte_ok h2
  have hp : pfxWf pfx = true := decide_eq_true hn
  split at h
  · rename_i hx
    split at h
    · rename_i hmd
      refine ⟨pfx, some (Rex.ofByte b), tail, hp, by simp [rexWf, hmd], ?_, h⟩
      simpa [headBytes, Rex.byte_ofByte b hx] using hbs
    · cases h
  · exact ⟨pfx, none, b :: tail, hp, by simp [rexWf], by simpa [headBytes] using hbs, h⟩

/-! ### The formats read back -/

/-- Format `LEG` after its 0F, read back. -/
theorem takeLeg_bytes {md : Mode} {xmm : Bool} {l : LegInstr} (h : l.wf md xmm = true) (word : Bool)
    (rest : List Byte) :
    takeLeg md l.pfx l.rex (opByte word :: (l.rm.bytes l.reg ++ rest)) = .ok (.row (legRow xmm word l)) rest := by
  obtain ⟨-, -, hrm, hrep, hrepne, rfl⟩ := LegInstr.wf_iff.1 h
  simp [takeLeg, takeOp_opByte, hrep, hrepne, takeModRm_bytes hrm]

/-- Format `VEX` from the opcode on, read back. -/
theorem takeVexTail_bytes {md : Mode} {v : VexInstr} (h : v.wf md = true) (len word : Bool) (rest : List Byte) :
    takeVexTail md v.pfx v.rex v.vex 1#5 len 1#2 (opByte word :: (v.rm.bytes v.reg ++ rest)) =
      .ok (.row (vexRow len word v)) rest := by
  obtain ⟨-, -, hrm, hlow⟩ := VexInstr.wf_iff.1 h
  simp only [takeVexTail, not_true_eq_false, if_false, takeOp_opByte, andThen_ok_eq, not_high_iff.2 hlow,
    takeModRm_bytes hrm, ne_eq]

/-- In every mode but `Mode64` bits 7:6 of the byte after C4, C5 or 62 decide. -/
theorem isVectorPrefix_of_high {md : Mode} {b : Byte} (h : md = .mode64 ∨ b.extractLsb' 6 2 = 3#2) :
    isVectorPrefix md b = true := by
  simpa [isVectorPrefix] using h

theorem vexPayload2_high : ∀ (w : Bool) (v : BitVec 4) (l : Bool),
    (BitVec.ofBool w ++ ~~~ v ++ BitVec.ofBool l ++ 1#2 : Byte).extractLsb' 6 2 = 3#2 ↔
      w = true ∧ v.getLsbD 3 = false := by decide

/-- The VEX bytes before the opcode, read back: outside `Mode64` the low register numbers make bits 7:6 11b (R90). -/
theorem takeFormat_vexForm {md : Mode} {f : VexForm} (h : md = .mode64 ∨ f.low = true) (pfx : List Pfx)
    (rex : Option Rex) (len : Bool) (bs : List Byte) :
    takeFormat md pfx rex (f.bytes len ++ bs) = takeVexTail md pfx rex f 1#5 len 1#2 bs := by
  cases f with
  | two r v =>
    obtain ⟨hr, hv, hl, hpp⟩ := vexPayload2 (!r) v len
    have hvector := isVectorPrefix_of_high (h.imp_right fun hlow =>
      (vexPayload2_high (!r) v len).2 (by simpa [VexForm.low] using hlow))
    show takeVex2 md pfx rex (_ :: bs) = _
    simp only [takeVex2, takeByte_cons, andThen_ok_eq, hvector, if_true, hr, hv, hl, hpp, Bool.not_not]
  | three r x b w v =>
    obtain ⟨hr, hx, hb, hmap, hhigh⟩ := vexPayload1 r x b
    obtain ⟨hw, hv, hl, hpp⟩ := vexPayload2 w v len
    have low : VexForm.low (.three r x b w v) = true → r = false ∧ x = false := by
      simp +contextual [VexForm.low]
    have hvector := isVectorPrefix_of_high (h.imp_right fun hlow => hhigh.2 (low hlow))
    show takeVex3 md pfx rex (_ :: _ :: bs) = _
    simp only [takeVex3, takeByte_cons, andThen_ok_eq, hvector, if_true, hr, hx, hb, hmap, hw, hv, hl, hpp]

/-- The EVEX payload bytes hold the fields (R91). -/
theorem evexFields_payload (ll : BitVec 2) (x : EvexInstr) (reg : BitVec 3) (rm : Rm) :
    evexFields x.pfx x.rex x.p0 x.p1 (x.p2 ll) reg rm = { x with reg := reg, rm := rm } := by
  obtain ⟨h1, h2, h3, h4, h5, -⟩ := evexP0 x.r x.x x.b x.r' x.reserved
  obtain ⟨h6, h7, h8, -⟩ := vexPayload2 x.w x.vvvv x.fixed1
  obtain ⟨h9, -, h10, h11, h12⟩ := evexP2 x.z ll x.bcst x.v' x.aaa
  simp only [evexFields, EvexInstr.p0, EvexInstr.p1, EvexInstr.p2, h1, h2, h3, h4, h5, h6, h7, h8, h9, h10, h11, h12]

/-- Format `EVEX` after its 62, read back. -/
theorem takeEvex_bytes {md : Mode} {x : EvexInstr} (h : x.wf md = true) (ll : BitVec 2) (word : Bool)
    (rest : List Byte) :
    takeEvex md x.pfx x.rex (x.p0 :: x.p1 :: x.p2 ll :: opByte word :: (x.rm.bytes x.reg ++ rest)) =
      .ok (evexRow ll word x) rest := by
  obtain ⟨-, -, hrm, hlow⟩ := EvexInstr.wf_iff.1 h
  obtain ⟨-, -, -, -, -, hmap, hhigh⟩ := evexP0 x.r x.x x.b x.r' x.reserved
  obtain ⟨-, -, -, hpp⟩ := vexPayload2 x.w x.vvvv x.fixed1
  obtain ⟨-, hll, -⟩ := evexP2 x.z ll x.bcst x.v' x.aaa
  change x.p0.extractLsb' 0 2 = 1#2 at hmap
  change x.p1.extractLsb' 0 2 = 1#2 at hpp
  change (x.p2 ll).extractLsb' 5 2 = ll at hll
  have low : x.low = true → x.r = false ∧ x.x = false := by simp +contextual [EvexInstr.low]
  have hvector : isVectorPrefix md x.p0 = true :=
    isVectorPrefix_of_high (hlow.imp_right fun hl => hhigh.2 (low hl))
  have hregs : ¬ (md ≠ .mode64 ∧ EvexInstr.low { x with reg := 0#3, rm := .reg 0#3 } = false) :=
    not_high_iff.2 hlow
  simp only [takeEvex, takeByte_cons, andThen_ok_eq, hvector, if_true, hmap, hpp, ne_eq, not_true_eq_false, if_false,
    takeOp_opByte, evexFields_payload, hregs, takeModRm_bytes hrm, hll]

/-- Every encoding is read back as what it encodes. -/
theorem decode_of_encodes {md : Mode} {v : Verdict} {code : List Byte} (h : Encodes md v code) (rest : List Byte) :
    decode md (code ++ rest) = .ok v rest := by
  cases h with
  | @leg l xmm word h =>
    obtain ⟨hp, hr, -⟩ := LegInstr.wf_iff.1 h
    simp only [LegInstr.bytes, List.append_assoc, List.cons_append]
    rw [decode_headBytes hp hr (by decide) (by decide)]
    exact takeLeg_bytes h word rest
  | @vex v len word h =>
    obtain ⟨hp, hr, -, hlow⟩ := VexInstr.wf_iff.1 h
    simp only [VexInstr.bytes, List.append_assoc, List.cons_append]
    rw [← takeVexTail_bytes h, ← takeFormat_vexForm hlow]
    cases v.vex <;> exact decode_headBytes hp hr (by decide) (by decide) _
  | @evex x ll word h =>
    obtain ⟨hp, hr, -⟩ := EvexInstr.wf_iff.1 h
    simp only [EvexInstr.bytes, List.append_assoc, List.cons_append]
    rw [decode_headBytes hp hr (by decide) (by decide)]
    exact takeEvex_bytes h ll word rest

/-! ### What each format was read from -/

theorem takeByte_andThen_ok {β : Type} {f : Byte → List Byte → Parsed β} {bs rest : List Byte} {a : β}
    (h : (takeByte bs).andThen f = .ok a rest) : ∃ b tail, bs = b :: tail ∧ f b tail = .ok a rest := by
  obtain ⟨b, tail, hb, hf⟩ := andThen_ok h
  exact ⟨b, tail, takeByte_ok hb, hf⟩

theorem takeOp_andThen_ok {β : Type} {f : Bool → List Byte → Parsed β} {bs rest : List Byte} {a : β}
    (h : (takeOp bs).andThen f = .ok a rest) : ∃ word tail, bs = opByte word :: tail ∧ f word tail = .ok a rest := by
  obtain ⟨word, tail, hop, hf⟩ := andThen_ok h
  exact ⟨word, tail, takeOp_ok hop, hf⟩

theorem takeModRm_andThen_ok {β : Type} {a16 : Bool} {f : BitVec 3 × Rm → List Byte → Parsed β} {bs rest : List Byte}
    {a : β} (h : (takeModRm a16 bs).andThen f = .ok a rest) :
    ∃ reg rm tail, bs = rm.bytes reg ++ tail ∧ rm.wf a16 = true ∧ f (reg, rm) tail = .ok a rest := by
  obtain ⟨⟨reg, rm⟩, tail, hm, hf⟩ := andThen_ok h
  obtain ⟨hbs, hwf⟩ := takeModRm_ok hm
  exact ⟨reg, rm, tail, hbs, hwf, hf⟩

section
variable {md : Mode} {pfx : List Pfx} {rex : Option Rex} {bs rest : List Byte} {v : Verdict} (hp : pfxWf pfx = true)
  (hr : rexWf md rex = true)
include hp hr

/-- What format `LEG` was read from. -/
theorem takeLeg_ok (h : takeLeg md pfx rex bs = .ok v rest) :
    ∃ code, Encodes md v code ∧ headBytes pfx rex ++ 0x0F#8 :: bs = code ++ rest := by
  obtain ⟨word, tail, rfl, hop⟩ := takeOp_andThen_ok h
  split at hop
  · cases hop
  · rename_i hrep
    obtain ⟨reg, rm, tail, rfl, hrm, hrow⟩ := takeModRm_andThen_ok hop
    obtain ⟨rfl, rfl⟩ := Parsed.ok.inj hrow
    simp only [Bool.or_eq_true, List.contains_iff_mem, not_or] at hrep
    obtain ⟨hrep, hrepne⟩ := hrep
    exact ⟨_, .leg word (LegInstr.wf_iff.2 ⟨hp, hr, hrm, hrep, hrepne, rfl⟩), by simp [LegInstr.bytes]⟩

/-- What format `VEX` was read from, from the opcode on. -/
theorem takeVexTail_ok {f : VexForm} {map : BitVec 5} {len : Bool} {pp : BitVec 2}
    (h : takeVexTail md pfx rex f map len pp bs = .ok v rest) :
    map = 1#5 ∧ pp = 1#2 ∧ ∃ code, Encodes md v code ∧ headBytes pfx rex ++ (f.bytes len ++ bs) = code ++ rest := by
  unfold takeVexTail at h
  split at h
  · cases h
  rename_i hmap
  split at h
  · cases h
  rename_i hpp
  obtain ⟨word, tail, rfl, hop⟩ := takeOp_andThen_ok h
  split at hop
  · cases hop
  rename_i hhigh
  obtain ⟨reg, rm, tail, rfl, hrm, hrow⟩ := takeModRm_andThen_ok hop
  obtain ⟨rfl, rfl⟩ := Parsed.ok.inj hrow
  exact ⟨not_not.1 hmap, not_not.1 hpp, _, .vex len word (VexInstr.wf_iff.2 ⟨hp, hr, hrm, not_high_iff.1 hhigh⟩),
    by simp [VexInstr.bytes]⟩

/-- What the 2-byte VEX form was read from. -/
theorem takeVex2_ok (h : takeVex2 md pfx rex bs = .ok v rest) :
    ∃ code, Encodes md v code ∧ headBytes pfx rex ++ 0xC5#8 :: bs = code ++ rest := by
  obtain ⟨b, tail, rfl, htail⟩ := takeByte_andThen_ok h
  split at htail
  · obtain ⟨-, hpp, code, hcode, hbs⟩ := takeVexTail_ok hp hr htail
    refine ⟨code, hcode, hbs ▸ ?_⟩
    simp only [VexForm.bytes, Bool.not_not, vexPayload2_split b hpp, List.cons_append, List.nil_append]
  · cases htail

/-- What the 3-byte VEX form was read from. -/
theorem takeVex3_ok (h : takeVex3 md pfx rex bs = .ok v rest) :
    ∃ code, Encodes md v code ∧ headBytes pfx rex ++ 0xC4#8 :: bs = code ++ rest := by
  obtain ⟨b1, tail, rfl, hb1⟩ := takeByte_andThen_ok h
  split at hb1
  · obtain ⟨b2, tail, rfl, htail⟩ := takeByte_andThen_ok hb1
    obtain ⟨hmap, hpp, code, hcode, hbs⟩ := takeVexTail_ok hp hr htail
    refine ⟨code, hcode, hbs ▸ ?_⟩
    simp only [VexForm.bytes, Bool.not_not, vexPayload1_split b1 hmap, vexPayload2_split b2 hpp, List.cons_append,
      List.nil_append]
  · cases hb1

omit hp hr in
/-- The payload bytes with the fixed map and `pp` bits are those of the fields they hold. -/
theorem evexFields_bytes {p0 p1 : Byte} (hmap : p0.extractLsb' 0 2 = 1#2) (hpp : p1.extractLsb' 0 2 = 1#2) (p2 : Byte)
    (reg : BitVec 3) (rm : Rm) (word : Bool) :
    (evexFields pfx rex p0 p1 p2 reg rm).bytes (p2.extractLsb' 5 2) word =
      headBytes pfx rex ++ 0x62#8 :: p0 :: p1 :: p2 :: opByte word :: rm.bytes reg := by
  simp only [EvexInstr.bytes, EvexInstr.p0, EvexInstr.p1, EvexInstr.p2, evexFields, Bool.not_not,
    evexP0_split p0 hmap, vexPayload2_split p1 hpp, evexP2_split p2]

/-- What format `EVEX` was read from. -/
theorem takeEvex_ok (h : takeEvex md pfx rex bs = .ok v rest) :
    ∃ code, Encodes md v code ∧ headBytes pfx rex ++ 0x62#8 :: bs = code ++ rest := by
  obtain ⟨p0, tail, rfl, hp0⟩ := takeByte_andThen_ok h
  split at hp0
  swap
  · cases hp0
  obtain ⟨p1, tail, rfl, hp1⟩ := takeByte_andThen_ok hp0
  obtain ⟨p2, tail, rfl, hp2⟩ := takeByte_andThen_ok hp1
  split at hp2
  · cases hp2
  rename_i hmap
  split at hp2
  · cases hp2
  rename_i hpp
  obtain ⟨word, tail, rfl, hop⟩ := takeOp_andThen_ok hp2
  split at hop
  · cases hop
  rename_i hhigh
  obtain ⟨reg, rm, tail, rfl, hrm, hrow⟩ := takeModRm_andThen_ok hop
  obtain ⟨rfl, rfl⟩ := Parsed.ok.inj hrow
  exact ⟨_, .evex _ word (EvexInstr.wf_iff.2 ⟨hp, hr, hrm, not_high_iff.1 hhigh⟩),
    by simp [evexFields_bytes (not_not.1 hmap) (not_not.1 hpp)]⟩

/-- What a format behind given prefixes was read from: its first byte chooses which. -/
theorem takeFormat_ok (h : takeFormat md pfx rex bs = .ok v rest) :
    ∃ code, Encodes md v code ∧ headBytes pfx rex ++ bs = code ++ rest := by
  obtain ⟨b, tail, rfl, hb⟩ := takeByte_andThen_ok h
  split at hb
  next hleg => exact hleg ▸ takeLeg_ok hp hr hb
  split at hb
  next hvex => exact hvex ▸ takeVex3_ok hp hr hb
  split at hb
  next hvex => exact hvex ▸ takeVex2_ok hp hr hb
  split at hb
  next hevex => exact hevex ▸ takeEvex_ok hp hr hb
  split at hb <;> cases hb

end

/-- The decoder answers a verdict on exactly the bytes that begin with one of its encodings. -/
theorem decode_eq_ok {md : Mode} {bs rest : List Byte} {v : Verdict} :
    decode md bs = .ok v rest ↔ ∃ code, Encodes md v code ∧ bs = code ++ rest := by
  constructor
  · intro h
    obtain ⟨pfx, rex, mid, hp, hr, rfl, hmid⟩ := decode_ok h
    exact takeFormat_ok hp hr hmid
  · rintro ⟨code, h, rfl⟩
    exact decode_of_encodes h rest

/-- Settles O40: a well-formed instruction is the reading of its encoding. -/
theorem decodeUndoesEncode : Obligations.DecodeUndoesEncode := by
  intro md i rest h
  have hparts : i.wfParts md = true := (Bool.and_eq_true_iff.1 h).1
  exact decode_of_encodes (encodes_row.2 ⟨rfl, hparts⟩) rest

/-- Settles O41: what the decoder has read is an encoding of its verdict. -/
theorem encodeUndoesDecode : Obligations.EncodeUndoesDecode := by
  intro md bs rest i h
  obtain ⟨code, hcode, rfl⟩ := decode_eq_ok.1 h
  obtain ⟨rfl, hparts⟩ := encodes_row.1 hcode
  exact ⟨rfl, fun hlen => Bool.and_eq_true_iff.2 ⟨hparts, decide_eq_true hlen⟩⟩

/-! ### The decoder reads no further than it needs (R95, R97) -/

/-- A parser whose answer stands whatever bytes follow those it was given: it leaves them over. -/
def LooksNoFurther {α : Type} (p : List Byte → Parsed α) : Prop :=
  ∀ bs more, (∀ a rest, p bs = .ok a rest → p (bs ++ more) = .ok a (rest ++ more))
    ∧ ∀ r, p bs = .refused r → p (bs ++ more) = .refused r

namespace LooksNoFurther

theorem ok {α : Type} (a : α) : LooksNoFurther (Parsed.ok a) := by
  refine fun bs more => ⟨fun b rest h => ?_, nofun⟩
  obtain ⟨rfl, rfl⟩ := Parsed.ok.inj h
  rfl

theorem refused {α : Type} (r : DecodeRefusal) : LooksNoFurther (α := α) fun _ => .refused r :=
  fun _ _ => ⟨nofun, fun _ h => h⟩

theorem andThen {α β : Type} {p : List Byte → Parsed α} {f : α → List Byte → Parsed β} (hp : LooksNoFurther p)
    (hf : ∀ a, LooksNoFurther (f a)) : LooksNoFurther fun bs => (p bs).andThen f := by
  intro bs more
  obtain ⟨hok, hrefused⟩ := hp bs more
  dsimp only
  cases h : p bs with
  | ok a rest => rw [hok a rest h]; exact hf a rest more
  | short => exact ⟨nofun, nofun⟩
  | refused r => rw [hrefused r h]; exact ⟨nofun, fun _ h => h⟩

theorem ite {α : Type} {p q : List Byte → Parsed α} (c : Prop) [Decidable c] (hp : LooksNoFurther p)
    (hq : LooksNoFurther q) : LooksNoFurther fun bs => if c then p bs else q bs := by
  by_cases h : c
  · simpa only [if_pos h] using hp
  · simpa only [if_neg h] using hq

theorem byte : LooksNoFurther takeByte := by
  intro bs more
  cases bs with
  | nil => exact ⟨nofun, nofun⟩
  | cons b bs => exact ok b bs more

/-- A parser that looks at the next byte and may then read it again. -/
theorem peekByte {α : Type} {f : List Byte → Byte → List Byte → Parsed α}
    (hf : ∀ b, LooksNoFurther fun bs => f (b :: bs) b bs) : LooksNoFurther fun bs => (takeByte bs).andThen (f bs) := by
  intro bs more
  cases bs with
  | nil => exact ⟨nofun, nofun⟩
  | cons b bs => exact hf b bs more

theorem d16 : LooksNoFurther takeD16 := byte.andThen fun _ => byte.andThen fun _ => ok _

theorem d32 : LooksNoFurther takeD32 := d16.andThen fun _ => d16.andThen fun _ => ok _

theorem disp (mod : BitVec 2) : LooksNoFurther (takeDisp mod) :=
  ite _ (ok _) (ite _ (byte.andThen fun _ => ok _) (d32.andThen fun _ => ok _))

theorem disp16 (mod : BitVec 2) : LooksNoFurther (takeDisp16 mod) :=
  ite _ (ok _) (ite _ (byte.andThen fun _ => ok _) (d16.andThen fun _ => ok _))

theorem mem16 (mod : BitVec 2) (rm : BitVec 3) : LooksNoFurther (takeMem16 mod rm) :=
  ite _ (d16.andThen fun _ => ok _) ((disp16 mod).andThen fun _ => ok _)

theorem sib (mod : BitVec 2) : LooksNoFurther (takeSib mod) :=
  byte.andThen fun _ => ite _ (d32.andThen fun _ => ok _) ((disp mod).andThen fun _ => ok _)

theorem mem32 (mod : BitVec 2) (rm : BitVec 3) : LooksNoFurther (takeMem32 mod rm) :=
  ite _ (sib mod) (ite _ (d32.andThen fun _ => ok _) ((disp mod).andThen fun _ => ok _))

theorem modRm (a16 : Bool) : LooksNoFurther (takeModRm a16) := by
  have mem : ∀ mod rm, LooksNoFurther ((if a16 then takeMem16 else takeMem32) mod rm) := by
    cases a16
    · exact mem32
    · exact mem16
  exact byte.andThen fun _ => ite _ (ok _) ((mem _ _).andThen fun _ => ok _)

theorem op : LooksNoFurther takeOp :=
  byte.andThen fun _ => ite _ (ok _) (ite _ (ok _) (refused _))

theorem pfx (seen : List Pfx) : LooksNoFurther fun bs => takePfx bs seen := by
  intro bs more
  induction bs generalizing seen with
  | nil => exact ⟨nofun, nofun⟩
  | cons b bs ih =>
    simp only [List.cons_append, takePfx]
    cases Pfx.ofByte b with
    | none => exact ok seen (b :: bs) more
    | some p =>
      dsimp only
      cases clash p seen with
      | none => exact ih (seen ++ [p])
      | some r => exact refused r bs more

section
variable {md : Mode} {ps : List Pfx} {rex : Option Rex}

theorem leg : LooksNoFurther (takeLeg md ps rex) :=
  op.andThen fun _ => ite _ (refused _) ((modRm _).andThen fun _ => ok _)

theorem vexTail {f : VexForm} {map : BitVec 5} {len : Bool} {pp : BitVec 2} :
    LooksNoFurther (takeVexTail md ps rex f map len pp) :=
  ite _ (refused _) (ite _ (refused _) (op.andThen fun _ => ite _ (refused _) ((modRm _).andThen fun _ => ok _)))

theorem vex2 : LooksNoFurther (takeVex2 md ps rex) :=
  byte.andThen fun _ => ite _ (vexTail) (refused _)

theorem vex3 : LooksNoFurther (takeVex3 md ps rex) :=
  byte.andThen fun _ => ite _ (byte.andThen fun _ => vexTail) (refused _)

theorem evex : LooksNoFurther (takeEvex md ps rex) :=
  byte.andThen fun _ => ite _
    (byte.andThen fun _ => byte.andThen fun _ => ite _ (refused _) (ite _ (refused _)
      (op.andThen fun _ => ite _ (refused _) ((modRm _).andThen fun _ => ok _))))
    (refused _)

theorem format : LooksNoFurther (takeFormat md ps rex) :=
  byte.andThen fun _ => ite _ leg (ite _ vex3 (ite _ vex2 (ite _ evex
    (ite _ (refused _) (refused _)))))

end

end LooksNoFurther

/-- Settles O43, parser by parser; a byte that is no REX is read again as the first of its format. -/
theorem decodingLooksNoFurther : Obligations.DecodingLooksNoFurther := fun _ =>
  (LooksNoFurther.pfx []).andThen fun _ => LooksNoFurther.peekByte fun b =>
    .ite _ (.ite _ .format (.refused _)) fun bs => LooksNoFurther.format (b :: bs)

/-! ### Lengths (R95) -/

theorem encode_length (i : Instr) : (encode i).length = i.len := by
  cases i with
  | paddsbMm l | paddsbXmm l | paddswMm l | paddswXmm l => exact LegInstr.bytes_length _ l
  | vpaddsbVex128 v | vpaddswVex128 v | vpaddsbVex256 v | vpaddswVex256 v => exact VexInstr.bytes_length _ _ v
  | vpaddsbEvex128 x | vpaddsbEvex256 x | vpaddsbEvex512 x | vpaddswEvex128 x | vpaddswEvex256 x
  | vpaddswEvex512 x => exact EvexInstr.bytes_length _ _ x

/-- No two legacy prefixes are of one kind (R81). -/
theorem length_le_of_kinds {pfx : List Pfx} {kinds : List PfxKind} (hp : pfxWf pfx = true)
    (h : ∀ p ∈ pfx, p.kind ∈ kinds) : pfx.length ≤ kinds.length := by
  have hn : (pfx.map Pfx.kind).Nodup := of_decide_eq_true hp
  have hsub : pfx.map Pfx.kind ⊆ kinds := by
    intro k hk
    obtain ⟨p, hmem, rfl⟩ := List.mem_map.1 hk
    exact h p hmem
  simpa using (hn.subperm hsub).length_le

/-- Without LOCK, F2 and F3 there are at most three prefixes, and at most two without 66 (R95). -/
theorem pfx_length_le {pfx : List Pfx} (hp : pfxWf pfx = true) (hlock : .lock ∉ pfx) (hrepne : .repne ∉ pfx)
    (hrep : .rep ∉ pfx) : pfx.length ≤ 3 ∧ (.opSize ∉ pfx → pfx.length ≤ 2) := by
  have three : ∀ p ∈ pfx, p.kind ∈ [PfxKind.seg, .addrSize, .opSize] := by
    intro p hm
    cases p with
    | lock => exact absurd hm hlock
    | repne => exact absurd hm hrepne
    | rep => exact absurd hm hrep
    | seg _ | addrSize | opSize => simp [Pfx.kind]
  refine ⟨length_le_of_kinds hp three, fun hop => length_le_of_kinds (kinds := [.seg, .addrSize]) hp fun p hm => ?_⟩
  have hne : p.kind ≠ .opSize := fun hk => by
    cases p with
    | opSize => exact hop hm
    | _ => cases hk
  simpa [hne] using three p hm

theorem rexSize_le (rex : Option Rex) : rexSize rex ≤ 1 := by cases rex <;> simp [rexSize]

theorem VexForm.size_bounds (f : VexForm) : 2 ≤ f.size ∧ f.size ≤ 3 := by cases f <;> simp [VexForm.size]

theorem Disp.size_le (d : Disp) : d.size ≤ 4 := by cases d <;> simp [Disp.size]

theorem Disp16.size_le (d : Disp16) : d.size ≤ 2 := by cases d <;> simp [Disp16.size]

/-- SIB and displacement have at most five bytes (R87). -/
theorem Rm.extra_le (rm : Rm) : rm.extra ≤ 5 := by
  cases rm with
  | reg n => exact Nat.zero_le 5
  | mem m =>
    cases m with
    | base rm d | sib sc ix bs d => have := d.size_le; simp only [Rm.extra, MemForm.extra]; omega
    | base16 rm d => have := d.size_le; simp only [Rm.extra, MemForm.extra]; omega
    | disp d | sibNoBase sc ix d | disp16 d => simp [Rm.extra, MemForm.extra]

theorem Instr.three_le_len (i : Instr) : 3 ≤ i.len := by
  cases i with
  | paddsbMm l | paddsbXmm l | paddswMm l | paddswXmm l => simp only [Instr.len, LegInstr.len]; omega
  | vpaddsbVex128 v | vpaddswVex128 v | vpaddsbVex256 v | vpaddswVex256 v =>
    have := v.vex.size_bounds
    simp only [Instr.len, VexInstr.len]
    omega
  | vpaddsbEvex128 x | vpaddsbEvex256 x | vpaddsbEvex512 x | vpaddswEvex128 x | vpaddswEvex256 x
  | vpaddswEvex512 x => simp only [Instr.len, EvexInstr.len]; omega

/-- A legacy row without LOCK: 66 stands on the `xmm` rows only, F2 and F3 on none (R83). -/
theorem LegInstr.len_le {md : Mode} {xmm : Bool} {l : LegInstr} (h : l.wf md xmm = true) (hlock : .lock ∉ l.pfx) :
    l.len ≤ if xmm then 12 else 11 := by
  obtain ⟨hp, -, -, hrep, hrepne, rfl⟩ := LegInstr.wf_iff.1 h
  obtain ⟨three, two⟩ := pfx_length_le hp hlock hrepne hrep
  have := rexSize_le l.rex
  have := l.rm.extra_le
  unfold LegInstr.len
  split
  next => omega
  next hop =>
    have := two (by simpa using hop)
    omega

theorem pfx_length_le_of_noClash {pfx : List Pfx} {rex : Option Rex} (hp : pfxWf pfx = true) (h : NoClash pfx rex) :
    pfx.length ≤ 2 ∧ rexSize rex = 0 := by
  obtain ⟨hlock, hop, hrepne, hrep, rfl⟩ := h
  exact ⟨(pfx_length_le hp hlock hrepne hrep).2 hop, rfl⟩

theorem VexInstr.len_le {md : Mode} {v : VexInstr} (h : v.wf md = true) (hc : NoClash v.pfx v.rex) : v.len ≤ 12 := by
  obtain ⟨hp, -⟩ := VexInstr.wf_iff.1 h
  have := pfx_length_le_of_noClash hp hc
  have := v.vex.size_bounds
  have := v.rm.extra_le
  unfold VexInstr.len
  omega

theorem EvexInstr.len_le {md : Mode} {x : EvexInstr} (h : x.wf md = true) (hc : NoClash x.pfx x.rex) :
    x.len ≤ 13 := by
  obtain ⟨hp, -⟩ := EvexInstr.wf_iff.1 h
  have := pfx_length_le_of_noClash hp hc
  have := x.rm.extra_le
  unfold EvexInstr.len
  omega

/-- Settles O42: the bytes read are the encoding, whose parts are counted format by format. -/
theorem admittedLengths : Obligations.AdmittedLengths := by
  intro md bs rest i h
  obtain ⟨code, hcode, rfl⟩ := decode_eq_ok.1 h
  obtain ⟨rfl, hwf⟩ := encodes_row.1 hcode
  refine ⟨by rw [List.length_append, encode_length], i.three_le_len, ?_⟩
  cases i with
  | paddsbMm l | paddswMm l | paddsbXmm l | paddswXmm l => exact LegInstr.len_le hwf
  | vpaddsbVex128 v | vpaddswVex128 v | vpaddsbVex256 v | vpaddswVex256 v => exact VexInstr.len_le hwf
  | vpaddsbEvex128 x | vpaddsbEvex256 x | vpaddsbEvex512 x | vpaddswEvex128 x | vpaddswEvex256 x
  | vpaddswEvex512 x => exact EvexInstr.len_le hwf

/-! ### Sample words (R83, R97) -/

/-- Settles O44 by running the decoder on the four words. -/
theorem sampleWordsDecode : Obligations.SampleWordsDecode := by
  unfold Obligations.SampleWordsDecode
  decide

/-- Settles O45 by running the decoder on the eleven words. -/
theorem refusedWords : Obligations.RefusedWords := by
  unfold Obligations.RefusedWords
  decide

end Sys2Proof

namespace Sys2Proof.Machine

/-! ### Steps at placed code (60_exceptions.md R167; log 19) -/

/-- Bytes that can be fetched are the first that a fetch of no fewer bytes gives. -/
theorem fetchFrom_begins {s : State} {md : Mode} {code : List Byte} {n k : Nat} (hn : code.length ≤ n)
    (h : ∀ j (hj : j < code.length), fetchByte s md (k + j) = .ok code[j]) :
    ∃ tail, (fetchFrom s md n k).1 = code ++ tail := by
  induction code generalizing n k with
  | nil => exact ⟨_, rfl⟩
  | cons b code ih =>
    cases n with
    | zero => exact absurd hn (Nat.not_succ_le_zero _)
    | succ n =>
      have hb : fetchByte s md k = .ok b := h 0 (Nat.succ_pos _)
      obtain ⟨tail, htail⟩ := ih (n := n) (k := k + 1) (Nat.le_of_succ_le_succ hn) fun j hj => by
        rw [Nat.add_right_comm]
        exact h (j + 1) (Nat.succ_lt_succ hj)
      exact ⟨tail, by simp only [fetchFrom, hb, htail, List.cons_append]⟩

/-- Where every byte can be fetched the fetch ends without a stop. -/
theorem fetchFrom_all {s : State} {md : Mode} {n k : Nat} (h : ∀ j < n, ∃ b, fetchByte s md (k + j) = .ok b) :
    (fetchFrom s md n k).2 = none := by
  induction n generalizing k with
  | zero => rfl
  | succ n ih =>
    obtain ⟨b, hb⟩ := h 0 n.succ_pos
    have hb : fetchByte s md k = .ok b := hb
    simp only [fetchFrom, hb]
    refine ih fun j hj => ?_
    rw [Nat.add_right_comm]
    exact h (j + 1) (Nat.succ_lt_succ hj)

/-- The decoder reads the encoding that stands at RIP, whatever follows it. -/
theorem decode_fetchFrom {s : State} {md : Mode} {v : Verdict} {code : List Byte} (hv : Encodes md v code)
    (hlen : code.length ≤ maxLen) (h : ∀ k (hk : k < code.length), fetchByte s md k = .ok code[k]) :
    ∃ rest, decode md (fetchFrom s md maxLen 0).1 = .ok v rest := by
  obtain ⟨rest, hrest⟩ := fetchFrom_begins (k := 0) hlen fun j hj => by rw [Nat.zero_add]; exact h j hj
  exact ⟨rest, decode_eq_ok.2 ⟨code, hv, hrest⟩⟩

/-- Settles O47: the bytes at RIP decode to the instruction they encode. -/
theorem placedCodeRuns : Obligations.PlacedCodeRuns := by
  intro s md i hm he hwf h
  obtain ⟨hparts, hlen⟩ := Bool.and_eq_true_iff.1 hwf
  obtain ⟨rest, hd⟩ := decode_fetchFrom (encodes_row.2 ⟨rfl, hparts⟩)
    (by rw [encode_length]; exact of_decide_eq_true hlen) h
  exact stepRunsTheDecodedInstruction s md i rest hm he hd

/-! ### Steps at bytes that are no instruction (R95, R97) -/

section
variable {s : State} {md : Mode} (hm : s.mode = some md) (he : s.endAddress ≠ some s.rip)
include hm he

theorem step_reservedLength {rest : List Byte}
    (h : decode md (fetchFrom s md maxLen 0).1 = .ok .reservedLength rest) :
    step s = .fault (.exception .ud 6 none none) := by
  rw [step, if_neg he, hm]
  dsimp only
  rw [h]
  rfl

theorem step_refused {r : DecodeRefusal} (h : decode md (fetchFrom s md maxLen 0).1 = .refused r) :
    step s = .refused (.decode r) := by
  rw [step, if_neg he, hm]
  dsimp only
  rw [h]

theorem step_short (h : decode md (fetchFrom s md maxLen 0).1 = .short) :
    step s = (shortStop (fetchFrom s md maxLen 0).2).out := by
  rw [step, if_neg he, hm]
  dsimp only
  rw [h]

end

/-- Settles O52: the branches of `step` for a refusal and for bytes that end too early, none of which is unreadable. -/
theorem undecodableBytesStopTheStep : Obligations.UndecodableBytesStopTheStep := by
  intro s md hm he
  refine ⟨fun r h => step_refused hm he h, fun hall h => ?_⟩
  have hstop : (fetchFrom s md maxLen 0).2 = none :=
    fetchFrom_all fun k hk => by rw [Nat.zero_add]; exact hall k hk
  rw [step_short hm he h, hstop]
  rfl

/-- Settles O51: the reserved length is the reading of the EVEX encodings with L'L = 11b, and `step` answers it with
#UD. -/
theorem reservedLengthRaisesUd : Obligations.ReservedLengthRaisesUd := by
  have read : ∀ {md : Mode} {x : EvexInstr} (word : Bool), x.wf md = true →
      Encodes md .reservedLength (x.bytes 3#2 word) := fun word h => encodes_reservedLength.2 ⟨_, word, h, rfl⟩
  refine ⟨fun s md rest hm he h => step_reservedLength hm he h,
    fun p0 p1 p2 op r tail rest hmap hpp hll hop hr => ?written,
    fun md x word rest h => decode_of_encodes (read word h) rest, fun md bs rest h => ?only,
    fun s md x word hm he h hlen hfetch => ?placed⟩
  case written =>
    obtain ⟨rfl, hrm⟩ := takeModRm_ok (reg := r.1) (rm := r.2) hr
    obtain ⟨word, rfl⟩ : ∃ word, op = opByte word := hop.elim (⟨false, ·⟩) (⟨true, ·⟩)
    have hwf : (evexFields [] none p0 p1 p2 r.1 r.2).wf .mode64 = true :=
      EvexInstr.wf_iff.2 ⟨rfl, rfl, hrm, .inl rfl⟩
    have h := decode_of_encodes (read word hwf) rest
    rw [← hll, evexFields_bytes hmap hpp] at h
    exact h
  case only =>
    obtain ⟨code, hcode, rfl⟩ := decode_eq_ok.1 h
    obtain ⟨x, word, hwf, rfl⟩ := encodes_reservedLength.1 hcode
    exact ⟨x, word, hwf, rfl⟩
  case placed =>
    obtain ⟨rest, hd⟩ := decode_fetchFrom (read word h) (by rw [EvexInstr.bytes_length]; exact hlen) hfetch
    exact step_reservedLength hm he hd

/-! ### Register numbers (R89) -/

theorem reg4_toNat : ∀ (hi : Bool) (lo : BitVec 3), (reg4 hi lo).toNat = (if hi then 8 else 0) + lo.toNat := by decide

theorem vec4_toNat : ∀ n : BitVec 4, (vec4 n).toNat = n.toNat := by decide

theorem vec5_toNat : ∀ (hi mid : Bool) (lo : BitVec 3),
    (vec5 hi mid lo).toNat = (if hi then 16 else 0) + (if mid then 8 else 0) + lo.toNat := by decide

theorem ofBool_append_toNat : ∀ (hi : Bool) (lo : BitVec 4),
    (BitVec.ofBool hi ++ lo).toNat = (if hi then 16 else 0) + lo.toNat := by decide

/-- A bit of an optional REX is 1 exactly when there is a REX that has it (R88). -/
theorem rexBit_eq_true {f : Rex → Bool} {rex : Option Rex} : rexBit f rex = true ↔ ∃ r, rex = some r ∧ f r = true := by
  cases rex <;> simp [rexBit]

/-- Settles O17: each number is the value of its extension bits beside the field. -/
theorem registerNumbers : Obligations.RegisterNumbers := by
  refine ⟨fun l n => ⟨?_, ?_⟩, fun v n r f hv => ⟨?_, ?_, ?_⟩, fun v n r x b w f hv => ⟨?_, ?_, ?_⟩,
    fun x n => ⟨vec5_toNat .., ofBool_append_toNat .., vec5_toNat ..⟩⟩
  · simp only [LegInstr.xmmDst, vec4_toNat, reg4_toNat, rexBit_eq_true]
  · simp only [LegInstr.xmmRm, vec4_toNat, reg4_toNat, rexBit_eq_true]
  all_goals simp [VexInstr.dst, VexInstr.src1, VexInstr.rmReg, VexForm.r, VexForm.vvvv, VexForm.b, hv, vec4_toNat,
    reg4_toNat]

/-! ### Scaled displacements (R94) -/

/-- With 64-bit addresses and a base register the effective address is the register and the displacement. -/
theorem place_base_mode64 (s : State) {c : AddrInfo} (h : .addrSize ∉ c.pfx) (rm : BitVec 3) (d : Disp) :
    (place s .mode64 c (.base rm d)).ea = s.readGpr (reg4 c.b rm) + d.value c.n := by
  have hbits : addrBits .mode64 c.pfx = 64 := by rw [addrBits_mode64, if_neg h]
  exact (effAddr_base hbits le_rfl s rm d).trans (lowBits_64 _)

/-- The factor `N = 1` of the LEG and VEX formats. -/
theorem disp_value_one (d : BitVec 8) : (Disp.d8 d).value 1 = d.signExtend 64 := BitVec.mul_one _

/-- Settles O8, from the factor that each format brings. -/
theorem eightBitDisplacementsAreScaled : Obligations.EightBitDisplacementsAreScaled := by
  intro s rm d d32
  refine ⟨fun n x h => ?evex, fun v h => ?vex, fun l h => ?leg⟩
  case evex =>
    have hea := place_base_mode64 s (c := evexAddr n.bits x s) h rm
    exact ⟨hea (.d8 d), hea (.d32 d32)⟩
  case vex =>
    have hea := place_base_mode64 s (c := vexAddr v s) h rm
    exact ⟨(hea (.d8 d)).trans (congrArg _ (disp_value_one d)), hea (.d32 d32)⟩
  case leg =>
    have hea := place_base_mode64 s (c := legAddr l s) h rm
    exact ⟨(hea (.d8 d)).trans (congrArg _ (disp_value_one d)), hea (.d32 d32)⟩

/-! ### Ignored bits (R88, R90, R91) -/

/-- Settles O26: no part of a meaning reads them. -/
theorem ignoredPrefixBits : Obligations.IgnoredPrefixBits := by
  refine fun e s => ⟨fun l r w => ?sse, fun l r n w rr b => ?mmx, fun n v r x b w w' f => ?vex, fun n x w => ?evex⟩
  case sse => rw [exec_rowSse, exec_rowSse]; rfl
  case mmx => rw [exec_rowMmx, exec_rowMmx]; rfl
  case vex => rw [exec_rowVex, exec_rowVex]; rfl
  case evex => rw [exec_rowEvex, exec_rowEvex]; rfl

end Sys2Proof.Machine
end

section
/-!
PROOFS. The packed saturating add (40_padds.md): the lane and its laws, the completed rows of the four classes, their
frames, the bits above the vector length, and what is no input of a row.
-/

namespace Sys2Proof.Machine

/-! ### Saturation (R120, R121) -/

/-- The unsigned reading of a two's complement pattern. -/
theorem ofInt_toNat_cast (w : Nat) (x : Int) : ((BitVec.ofInt w x).toNat : Int) = x % (2 ^ w : Nat) := by
  rw [BitVec.toNat_ofInt]
  exact Int.toNat_of_nonneg (Int.emod_nonneg x (by positivity))

/-- The exact sum of two lanes, from the range of each. -/
theorem toInt_add_bounds {w : Nat} (a b : BitVec w) :
    2 * -(2 ^ (w - 1)) ≤ a.toInt + b.toInt ∧ a.toInt + b.toInt ≤ 2 * (2 ^ (w - 1) - 1) := by
  have ha := a.le_toInt
  have hb := b.le_toInt
  have ha' := a.toInt_lt
  have hb' := b.toInt_lt
  omega

/-- Settles O1, clause by clause of `satByte`. -/
theorem saturateToSignedByteClamps : Obligations.SaturateToSignedByteClamps := by
  refine ⟨fun x => ⟨fun h => if_pos h, fun h => ?low, fun hlo hhi => ?inside⟩,
    fun a b => ⟨rfl, toInt_add_bounds a b⟩⟩
  case low => rw [satByte, if_neg (by omega), if_pos h]
  case inside => rw [satByte, if_neg (by omega), if_neg (by omega)]; exact ofInt_toNat_cast 8 x

/-- Settles O2, clause by clause of `satWord`. -/
theorem saturateToSignedWordClamps : Obligations.SaturateToSignedWordClamps := by
  refine ⟨fun x => ⟨fun h => if_pos h, fun h => ?low, fun hlo hhi => ?inside⟩,
    fun a b => ⟨rfl, toInt_add_bounds a b⟩⟩
  case low => rw [satWord, if_neg (by omega), if_pos h]
  case inside => rw [satWord, if_neg (by omega), if_neg (by omega)]; exact ofInt_toNat_cast 16 x

/-! ### Lanes of the packed add (R122) -/

/-- Every lane of the packed add is the saturated sum of the same lanes. -/
theorem padds_laneIsSum (e : Elem) {vl i : Nat} (a b : VecReg) (hi : i < vl / e.bits) (hv : vl ≤ 512) :
    LaneIsSum e (padds e vl a b) a b i := by
  rw [LaneIsSum, lane_padds e a b hi hv, satAdd_toInt]

/-- Settles O3, from the lanes of the packed add and the bits above them. -/
theorem packedAddIsLaneWise : Obligations.PackedAddIsLaneWise := by
  intro e vl a b hvl
  have hv : vl ≤ 512 := (by decide : ∀ n ∈ [64, 128, 256, 512], n ≤ 512) vl hvl
  refine ⟨fun i hi => ⟨padds_laneIsSum e a b hi hv, (lane_padds e a b hi hv).trans ?_⟩,
    fun j hj => padds_high e a b hj⟩
  cases e <;> rfl

/-! ### The laws of a saturating lane (R145) -/

section
variable {e : Elem} (x y : BitVec e.bits)

/-- Inside the range the saturating add is exact. -/
theorem satAdd_exact (hlo : -(2 ^ (e.bits - 1)) ≤ x.toInt + y.toInt)
    (hhi : x.toInt + y.toInt ≤ 2 ^ (e.bits - 1) - 1) :
    (satAdd e x y).toInt = x.toInt + y.toInt := by
  rw [satAdd_toInt, clampSigned]; omega

theorem satAdd_eq_max_iff :
    (satAdd e x y).toInt = 2 ^ (e.bits - 1) - 1 ↔ 2 ^ (e.bits - 1) - 1 ≤ x.toInt + y.toInt := by
  have hpos : (0 : Int) < 2 ^ (e.bits - 1) := by positivity
  rw [satAdd_toInt, clampSigned]; omega

theorem satAdd_eq_min_iff :
    (satAdd e x y).toInt = -(2 ^ (e.bits - 1)) ↔ x.toInt + y.toInt ≤ -(2 ^ (e.bits - 1)) := by
  have hpos : (0 : Int) < 2 ^ (e.bits - 1) := by positivity
  rw [satAdd_toInt, clampSigned]; omega

theorem satAdd_comm : satAdd e x y = satAdd e y x :=
  BitVec.eq_of_toInt_eq (by rw [satAdd_toInt, satAdd_toInt, Int.add_comm])

theorem satAdd_zero : satAdd e x 0#e.bits = x := by
  have hlo := x.le_toInt
  have hhi := x.toInt_lt
  have hz : (0#e.bits).toInt = 0 := BitVec.toInt_zero
  apply BitVec.eq_of_toInt_eq
  rw [satAdd_exact x _ (by omega) (by omega), hz, Int.add_zero]

theorem satAdd_mono {x x' : BitVec e.bits} (h : x.toInt ≤ x'.toInt) :
    (satAdd e x y).toInt ≤ (satAdd e x' y).toInt := by
  rw [satAdd_toInt, satAdd_toInt, clampSigned, clampSigned]; omega

/-- The saturating add is the wrapping add but where that overflows, which the signs show. -/
theorem satAdd_eq_wrapping :
    satAdd e x y =
      if x.msb = y.msb ∧ (x + y).msb ≠ x.msb then (if x.msb then BitVec.intMin e.bits else BitVec.intMax e.bits)
      else x + y := by
  have hover : x.msb = y.msb ∧ (x + y).msb ≠ x.msb ↔ x.saddOverflow y = true := by
    rw [BitVec.saddOverflow_eq]; simp
  have hrange : x.saddOverflow y = true ↔
      2 ^ (e.bits - 1) ≤ x.toInt + y.toInt ∨ x.toInt + y.toInt < -(2 ^ (e.bits - 1)) := by
    simp [BitVec.saddOverflow]
  have hx := x.le_toInt
  have hy := y.le_toInt
  have hx' := x.toInt_lt
  have hy' := y.toInt_lt
  apply BitVec.eq_of_toInt_eq
  rw [if_congr hover rfl rfl]
  split_ifs with ho hmsb
  · have hneg : x.toInt < 0 := by simpa [BitVec.msb_eq_toInt] using hmsb
    rw [BitVec.toInt_intMin_of_pos e.bits_pos, satAdd_eq_min_iff]
    have hout := hrange.1 ho
    omega
  · have hnonneg : 0 ≤ x.toInt := by simpa [BitVec.msb_eq_toInt] using hmsb
    rw [BitVec.toInt_intMax, satAdd_eq_max_iff]
    have hout := hrange.1 ho
    omega
  · rw [BitVec.toInt_add_of_not_saddOverflow ho]
    have hin := mt hrange.2 ho
    exact satAdd_exact x y (by omega) (by omega)

end

/-- Settles O4: each law is one of the clamped exact sum, and the two sides of the counterexample are computed. -/
theorem saturatingLaneLaws : Obligations.SaturatingLaneLaws := by
  refine ⟨fun e x y x' => ?_, by decide, by decide⟩
  have hx := x.le_toInt
  have hy := y.le_toInt
  have hx' := x.toInt_lt
  have hy' := y.toInt_lt
  exact ⟨satAdd_exact x y, fun h => satAdd_exact x y (by omega) (by omega), satAdd_eq_max_iff x y,
    satAdd_eq_min_iff x y, fun h => by omega, fun h => by omega, satAdd_eq_wrapping x y, satAdd_comm x y,
    satAdd_zero x, satAdd_mono y⟩

/-! ### Lanes under a writemask (R126, R92) -/

/-- A mask bit of an element is 1 without a writemask, and else as K[aaa] has it (30_encoding.md R92). -/
theorem writemask_getLsbD (s : State) (aaa : BitVec 3) {j : Nat} (hj : j < 64) :
    (s.writemask aaa).getLsbD j = true ↔ aaa = 0#3 ∨ (s.readK aaa).getLsbD j = true := by
  unfold State.writemask
  split
  · next h => rw [BitVec.getLsbD_allOnes]; simp only [hj, h, decide_true, true_or]
  · next h => simp only [h, false_or]

/-- An EVEX row has at most 64 elements (R129). -/
theorem evexElems_le (e : Elem) (n : EvexLen) : n.bits / e.bits ≤ 64 := by cases e <;> cases n <;> decide

theorem evexLen_le (n : EvexLen) : n.bits ≤ 512 := by cases n <;> decide

theorem vexLen_le (n : VexLen) : n.bits ≤ 512 := by cases n <;> decide

/-- The masked add reads of the mask the bits of its elements only, and of the sources the enabled elements only. -/
theorem maskedPadds_congr {e : Elem} {vl : Nat} {k k' : Quad} {a b a' b' : VecReg} (z : Bool) (old : VecReg)
    (hk : ∀ j < vl / e.bits, k'.getLsbD j = k.getLsbD j)
    (h : ∀ j < vl / e.bits, k.getLsbD j = true → lane e a j = lane e a' j ∧ lane e b j = lane e b' j) :
    maskedPadds e vl k z old a b = maskedPadds e vl k' z old a' b' := by
  refine pack_congr fun j hj => ?_
  rw [hk j hj]
  split
  · next hbit =>
    obtain ⟨ha, hb⟩ := h j hj hbit
    rw [ha, hb]
  · rfl

/-- Settles O23: the disabled elements are not looked at. -/
theorem maskedOffLanesIgnoreTheSources : Obligations.MaskedOffLanesIgnoreTheSources :=
  fun _ _ _ z old _ _ _ _ h => maskedPadds_congr z old (fun _ _ => rfl) h

/-- With every mask bit 1 the masked add is the plain one. -/
theorem maskedPadds_eq_padds {e : Elem} {vl : Nat} {k : Quad} (z : Bool) (old a b : VecReg)
    (hk : ∀ j < vl / e.bits, k.getLsbD j = true) : maskedPadds e vl k z old a b = padds e vl a b :=
  pack_congr fun j hj => if_pos (hk j hj)

/-- Element `j` of the masked add: the sum where the mask bit is 1, else 0 (zeroing) or the old element (merging). -/
theorem maskedPadds_lane (e : Elem) {vl j : Nat} (k : Quad) (z : Bool) (old a b : VecReg) (hj : j < vl / e.bits)
    (hv : vl ≤ 512) :
    if k.getLsbD j = true then LaneIsSum e (maskedPadds e vl k z old a b) a b j
    else if z = true then lane e (maskedPadds e vl k z old a b) j = 0#e.bits
    else lane e (maskedPadds e vl k z old a b) j = lane e old j := by
  have h := lane_maskedPadds e k z old a b hj hv
  split_ifs with hk hz
  · rw [if_pos hk] at h
    rw [LaneIsSum, h, satAdd_toInt]
  · rw [h, if_neg hk, if_pos hz]
  · rw [h, if_neg hk, if_neg hz]

/-! ### The destination of a completed row (R124 to R127) -/

/-- The low 64 bits of an MMX row's result are those of the packed add. -/
theorem mmxDone_readMm (e : Elem) (l : LegInstr) (md : Mode) (s : State) :
    (mmxDone e l md s).readMm l.reg = mmxResult e l md s := by
  rw [mmxDone, retire_readMm, readMm_writeMm_same]

/-- The lanes of a completed MMX row (R124). -/
theorem mmxDone_lane (e : Elem) (l : LegInstr) (md : Mode) (s : State) {i : Nat} (hi : i < 64 / e.bits) :
    LaneIsSum e (((mmxDone e l md s).readMm l.reg).setWidth 512) (mmValue s l.reg)
      (rmValue s md (legAddr l s) 8 (mmValue s) l.rm) i := by
  have hlane : lane e (((mmxDone e l md s).readMm l.reg).setWidth 512) i = lane e (padds e 64 (mmValue s l.reg)
      (rmValue s md (legAddr l s) 8 (mmValue s) l.rm)) i := by
    refine lane_congr (fun j hj => ?_) hi
    have hj' : j < 512 := by omega
    rw [mmxDone_readMm, mmxResult, BitVec.getLsbD_setWidth, BitVec.getLsbD_setWidth]
    simp only [hj, hj', decide_true, Bool.true_and]
  rw [LaneIsSum, hlane]
  exact padds_laneIsSum e _ _ hi (by decide)

theorem sseDone_dst (e : Elem) (l : LegInstr) (md : Mode) (s : State) :
    (sseDone e l md s).readZmm l.xmmDst = keepUpper (s.readZmm l.xmmDst) (sseResult e l md s) := by
  rw [sseDone, retire_readZmm, readZmm_writeZmm_same]

theorem vexDone_dst (e : Elem) (vl : Nat) (v : VexInstr) (md : Mode) (s : State) :
    (vexDone e vl v md s).readZmm v.dst = vexResult e vl v md s := by
  rw [vexDone, retire_readZmm, readZmm_writeZmm_same]

theorem evexDone_dst (e : Elem) (vl : Nat) (x : EvexInstr) (md : Mode) (s : State) :
    (evexDone e vl x md s).readZmm x.dst = evexResult e vl x md s := by
  rw [evexDone, retire_readZmm, readZmm_writeZmm_same]

/-- The lanes of a completed VEX row (R125). -/
theorem vexDone_lane (e : Elem) (n : VexLen) (v : VexInstr) (md : Mode) (s : State) {i : Nat}
    (hi : i < n.bits / e.bits) :
    LaneIsSum e ((vexDone e n.bits v md s).readZmm v.dst) (s.readZmm v.src1)
      (rmValue s md (vexAddr v s) (n.bits / 8) (vexReg v s) v.rm) i := by
  rw [vexDone_dst]
  exact padds_laneIsSum e _ _ hi (vexLen_le n)

/-- A legacy SSE row leaves the bits from 128 up (R127). -/
theorem sseDone_high (e : Elem) (l : LegInstr) (md : Mode) (s : State) {j : Nat} (hj : 128 ≤ j) :
    ((sseDone e l md s).readZmm l.xmmDst).getLsbD j = (s.readZmm l.xmmDst).getLsbD j := by
  rw [sseDone_dst, keepUpper_high _ _ hj]

/-- A VEX row zeroes the bits from VL up (R127). -/
theorem vexDone_zeroFrom (e : Elem) (vl : Nat) (v : VexInstr) (md : Mode) (s : State) :
    ZeroFrom vl ((vexDone e vl v md s).readZmm v.dst) := by
  rw [vexDone_dst]
  exact fun j hj => padds_high e _ _ hj

/-- An EVEX row zeroes the bits from VL up, whatever its writemask (R127). -/
theorem evexDone_zeroFrom (e : Elem) (vl : Nat) (x : EvexInstr) (md : Mode) (s : State) :
    ZeroFrom vl ((evexDone e vl x md s).readZmm x.dst) := by
  rw [evexDone_dst]
  exact fun j hj => maskedPadds_high e _ _ _ _ _ hj

/-- The elements of a completed EVEX row (R126), with the mask bit as R92 says. -/
theorem evexDone_lane (e : Elem) (n : EvexLen) (x : EvexInstr) (md : Mode) (s : State) {j : Nat}
    (hj : j < n.bits / e.bits) :
    if x.aaa = 0#3 ∨ (s.readK x.aaa).getLsbD j = true then
      LaneIsSum e ((evexDone e n.bits x md s).readZmm x.dst) (s.readZmm x.src1)
        (rmValue s md (evexAddr n.bits x s) (n.bits / 8) (evexReg x s) x.rm) j
    else if x.z = true then lane e ((evexDone e n.bits x md s).readZmm x.dst) j = 0#e.bits
    else lane e ((evexDone e n.bits x md s).readZmm x.dst) j = lane e (s.readZmm x.dst) j := by
  rw [evexDone_dst, if_congr (writemask_getLsbD s x.aaa (hj.trans_le (evexElems_le e n))).symm rfl rfl]
  exact maskedPadds_lane e _ _ _ _ _ hj (evexLen_le n)

/-! ### Frames, from any next state (R128) -/

/-- What a vector row leaves: every other vector register, the x87 state, and what no instruction writes. -/
theorem frame_writeZmm_retire (s : State) (r : BitVec 5) (v : VecReg) (md : Mode) (n : Nat) :
    KeptZmmBut r s ((s.writeZmm r v).retire md n) ∧ KeptX87 s ((s.writeZmm r v).retire md n)
      ∧ Kept s ((s.writeZmm r v).retire md n) :=
  ⟨keptZmm_writeZmm_retire s r v md n, keptX87_writeZmm_retire .., kept_writeZmm_retire ..⟩

/-- What an MMX row leaves (10_state.md R23): the other x87 registers, the status word but TOP, the vector registers,
and what no instruction writes. -/
theorem mmxDone_frame (e : Elem) (l : LegInstr) (md : Mode) (s : State) :
    (∀ r, r ≠ l.reg → (mmxDone e l md s).readFpr r = s.readFpr r)
      ∧ (∀ j, ¬ (11 ≤ j ∧ j ≤ 13) → (mmxDone e l md s).x87Status.getLsbD j = s.x87Status.getLsbD j)
      ∧ (mmxDone e l md s).zmm = s.zmm ∧ Kept s (mmxDone e l md s) := by
  refine ⟨fun r hr => ?_, (clearTop s.x87Status).2, rfl, kept_writeMm_retire ..⟩
  rw [mmxDone, retire_readFpr, readFpr_writeMm, if_neg hr]

/-- Settles O18: every next state of an MMX row is `mmxDone`. -/
theorem mmxRowsFrame : Obligations.MmxRowsFrame := by
  intro e l s t h
  rw [exec_rowMmx] at h
  obtain ⟨md, -, -, rfl⟩ := mmxForm_next h
  exact mmxDone_frame e l md s

/-- Settles O19: every next state of a vector row has its destination written and is retired. -/
theorem vectorRowsFrame : Obligations.VectorRowsFrame := by
  refine fun e s t => ⟨fun l h => ?sse, fun n v h => ?vex, fun n x h => ?evex⟩
  case sse =>
    obtain ⟨md, -, -, rfl⟩ := sseForm_next (exec_rowSse e l s ▸ h)
    exact frame_writeZmm_retire ..
  case vex =>
    obtain ⟨md, -, -, rfl⟩ := vexForm_next (exec_rowVex e n v s ▸ h)
    exact frame_writeZmm_retire ..
  case evex =>
    obtain ⟨md, -, -, rfl⟩ := evexForm_next (exec_rowEvex e n x s ▸ h)
    exact frame_writeZmm_retire ..

/-- Settles O20, from the destination of each class of completed row. -/
theorem bitsAboveTheVectorLength : Obligations.BitsAboveTheVectorLength := by
  intro e s t
  have vex : ∀ n v, exec (rowVex e n v) s = .next t → ZeroFrom n.bits (t.readZmm v.dst) := fun n v h => by
    obtain ⟨md, -, -, rfl⟩ := vexForm_next (exec_rowVex e n v s ▸ h)
    exact vexDone_zeroFrom e n.bits v md s
  refine ⟨fun l h => ?mmx, fun l h => ?sse, vex .l128, vex .l256, fun n x h => ?evex⟩
  case mmx =>
    obtain ⟨md, hm, -, rfl⟩ := mmxForm_next (exec_rowMmx e l s ▸ h)
    exact ⟨rfl, md, hm, mmxDone_readMm ..⟩
  case sse =>
    obtain ⟨md, -, -, rfl⟩ := sseForm_next (exec_rowSse e l s ▸ h)
    exact fun j hj => sseDone_high e l md s hj
  case evex =>
    obtain ⟨md, -, -, rfl⟩ := evexForm_next (exec_rowEvex e n x s ▸ h)
    exact evexDone_zeroFrom e n.bits x md s

/-! ### Completion (R130 to R143) -/

/-- An MMX row that meets no exception completes. -/
theorem exec_rowMmx_done {e : Elem} {l : LegInstr} {s : State} {md : Mode} (hm : s.mode = some md)
    (h : mmxStop l md s = none) : exec (rowMmx e l) s = .next (mmxDone e l md s) := by
  rw [exec_rowMmx, mmxForm, hm]
  dsimp only
  rw [h, finish_none]

/-- The same for a VEX row. -/
theorem exec_rowVex_done {e : Elem} {n : VexLen} {v : VexInstr} {s : State} {md : Mode} (hm : s.mode = some md)
    (h : vexStop n.bits v md s = none) : exec (rowVex e n v) s = .next (vexDone e n.bits v md s) := by
  rw [exec_rowVex, vexForm, hm]
  dsimp only
  rw [h, finish_none]

/-- The same for an EVEX row. -/
theorem exec_rowEvex_done {e : Elem} {n : EvexLen} {x : EvexInstr} {s : State} {md : Mode} (hm : s.mode = some md)
    (h : evexStop e n.bits x md s = none) : exec (rowEvex e n x) s = .next (evexDone e n.bits x md s) := by
  rw [exec_rowEvex, evexForm, hm]
  dsimp only
  rw [h, finish_none]

/-- Settles O12: no exception applies, and the next state is `mmxDone`. -/
theorem mmxRowsComplete : Obligations.MmxRowsComplete := by
  intro e l s md hm he ht hx hr
  obtain ⟨hfpr, hstatus, hzmm, hkept⟩ := mmxDone_frame e l md s
  refine ⟨mmxDone e l md s, exec_rowMmx_done hm (mmxStop_none he ht hx hr), fun i hi => ?lanes, ?ones, hfpr,
    (clearTop s.x87Status).1, rfl, hstatus, rfl, hzmm, hkept⟩
  case lanes =>
    have h := mmxDone_lane e l md s hi
    rw [rmValue_eq] at h
    exact h
  case ones =>
    rw [mmxDone, retire_readFpr, readFpr_writeMm, if_pos rfl]
    exact BitVec.extractLsb'_append_eq_left

/-- Settles O13: no exception applies, and the next state is `sseDone`. -/
theorem sseRowsComplete : Obligations.SseRowsComplete := by
  intro e l s md hm he ht hr
  refine ⟨sseDone e l md s, exec_rowSse_done hm he ht (rmStop_none hr), fun i hi => ?_,
    fun j hj => sseDone_high e l md s hj, rfl, frame_writeZmm_retire ..⟩
  have h := sseDone_lane e l md s hi
  rw [rmValue_eq] at h
  exact h

/-- Settles O14: no exception applies, and the next state is `vexDone`. -/
theorem vexRowsComplete : Obligations.VexRowsComplete := by
  intro e n v s md hm he ht hr
  refine ⟨vexDone e n.bits v md s, exec_rowVex_done hm (vexStop_none he ht hr), fun i hi => ?_,
    vexDone_zeroFrom e n.bits v md s, rfl, frame_writeZmm_retire ..⟩
  have h := vexDone_lane e n v md s hi
  rw [rmValue_eq] at h
  exact h

/-- Settles O15: no exception applies, and the next state is `evexDone`. -/
theorem evexRowsComplete : Obligations.EvexRowsComplete := by
  intro e n x s md hm he ht hr
  refine ⟨evexDone e n.bits x md s, exec_rowEvex_done hm (evexStop_none he ht hr), fun j hj => ?_,
    evexDone_zeroFrom e n.bits x md s, rfl, frame_writeZmm_retire ..⟩
  have h := evexDone_lane e n x md s hj
  rw [rmValue_eq] at h
  exact h

/-! ### The opmask file (R129, R92) -/

/-- A byte of the operand of an EVEX row lies in one of the row's elements. -/
theorem elem_of_byte_lt (e : Elem) (n : EvexLen) {i : Nat} (hi : i < n.bits / 8) : i / e.size < n.bits / e.bits := by
  have hbits : e.bits = 8 * e.size := by cases e <;> rfl
  have hdvd : e.size ∣ n.bits / 8 := by cases e <;> cases n <;> decide
  rw [hbits, ← Nat.div_div_eq_div_mul]
  exact Nat.div_lt_div_of_lt_of_dvd hdvd hi

/-- The exceptions of the last source operand depend on the mask bits of the elements only. -/
theorem rmStopMasked_congr {s : State} {md : Mode} {c : AddrInfo} {e : Elem} {n : EvexLen} {k k' : Quad} {rm : Rm}
    (hk : ∀ j < n.bits / e.bits, k'.getLsbD j = k.getLsbD j) :
    rmStopMasked s md c e k' (n.bits / 8) rm = rmStopMasked s md c e k (n.bits / 8) rm := by
  have hbytes : enabledBytes e k' (n.bits / 8) = enabledBytes e k (n.bits / 8) :=
    List.filter_congr fun i hi => hk _ (elem_of_byte_lt e n (List.mem_range.1 hi))
  cases rm with
  | reg r => rfl
  | mem m => rw [rmStopMasked, rmStopMasked, hbytes]

/-- Beside the writemask no exception of an EVEX row reads the opmask file. -/
theorem evexStop_kreg (e : Elem) (n : EvexLen) (x : EvexInstr) (md : Mode) (s : State) (k : Vector Quad 8) :
    evexStop e n.bits x md { s with kreg := k } =
      firstOf [udIf (evexUd n.bits x md s), nmStop s, rmStopMasked s md (evexAddr n.bits x s) e
        (State.writemask { s with kreg := k } x.aaa) (n.bits / 8) x.rm] := rfl

/-- Beside the writemask the result of an EVEX row does not read it either. -/
theorem evexResult_kreg (e : Elem) (n : EvexLen) (x : EvexInstr) (md : Mode) (s : State) (k : Vector Quad 8) :
    evexResult e n.bits x md { s with kreg := k } =
      maskedPadds e n.bits (State.writemask { s with kreg := k } x.aaa) x.z (s.readZmm x.dst) (s.readZmm x.src1)
        (rmValue s md (evexAddr n.bits x s) (n.bits / 8) (evexReg x s) x.rm) := rfl

section
variable {e : Elem} {n : EvexLen} {x : EvexInstr} {s : State} {k : Vector Quad 8}
  (hk : x.aaa ≠ 0#3 → ∀ j < n.bits / e.bits,
    (State.readK { s with kreg := k } x.aaa).getLsbD j = (s.readK x.aaa).getLsbD j)
include hk

/-- An opmask file that agrees on K[aaa] below KL gives the same writemask there. -/
theorem writemask_withKreg : ∀ j < n.bits / e.bits,
    (State.writemask { s with kreg := k } x.aaa).getLsbD j = (s.writemask x.aaa).getLsbD j := by
  intro j hj
  unfold State.writemask
  split
  · rfl
  · next h => exact hk h j hj

theorem evexStop_withKreg (md : Mode) : evexStop e n.bits x md { s with kreg := k } = evexStop e n.bits x md s := by
  rw [evexStop_kreg, rmStopMasked_congr (writemask_withKreg hk), evexStop]

theorem evexDone_withKreg (md : Mode) :
    evexDone e n.bits x md { s with kreg := k } = { evexDone e n.bits x md s with kreg := k } := by
  have hresult : evexResult e n.bits x md { s with kreg := k } = evexResult e n.bits x md s := by
    rw [evexResult_kreg, evexResult]
    exact (maskedPadds_congr _ _ (writemask_withKreg hk) fun _ _ _ => ⟨rfl, rfl⟩).symm
  rw [evexDone, hresult]
  rfl

end

/-- Settles O22: the exceptions and the result read the opmask file through the writemask alone. -/
theorem onlyMaskBitsBelowKlAreRead : Obligations.OnlyMaskBitsBelowKlAreRead := by
  intro e n x s t k hk h
  obtain ⟨md, hm, hstop, rfl⟩ := evexForm_next (exec_rowEvex e n x s ▸ h)
  rw [← evexDone_withKreg hk]
  exact exec_rowEvex_done hm ((evexStop_withKreg hk md).trans hstop)

/-! ### The old destination of a VEX row (R125) -/

theorem writeZmm_writeZmm (s : State) (i : BitVec 5) (u v : VecReg) :
    (s.writeZmm i u).writeZmm i v = s.writeZmm i v := by
  simp only [State.writeZmm, Vector.set_set]

/-- A memory operand's value does not depend on a vector register, a register operand's on the one it names. -/
theorem rmValue_writeZmm {s : State} {md : Mode} {c : AddrInfo} {n : Nat} {i : BitVec 5} {y : VecReg} {v : VexInstr}
    (h : ∀ r, v.rm = .reg r → v.rmReg r ≠ i) :
    rmValue (s.writeZmm i y) md c n (vexReg v (s.writeZmm i y)) v.rm = rmValue s md c n (vexReg v s) v.rm := by
  cases hrm : v.rm with
  | reg r => exact readZmm_writeZmm_other s y (h r hrm)
  | mem m => rfl

/-- No exception of a VEX row reads a vector register. -/
theorem vexStop_writeZmm (vl : Nat) (v : VexInstr) (md : Mode) (s : State) (i : BitVec 5) (y : VecReg) :
    vexStop vl v md (s.writeZmm i y) = vexStop vl v md s := rfl

/-- A VEX row that completes writes over its old destination, which is no source of it. -/
theorem vexDone_writeZmm_dst {v : VexInstr} (hsrc : v.src1 ≠ v.dst)
    (hrm : ∀ r, v.rm = .reg r → v.rmReg r ≠ v.dst) (e : Elem) (vl : Nat) (md : Mode) (s : State) (y : VecReg) :
    vexDone e vl v md (s.writeZmm v.dst y) = vexDone e vl v md s := by
  have hresult : vexResult e vl v md (s.writeZmm v.dst y) = vexResult e vl v md s := by
    rw [vexResult, readZmm_writeZmm_other s y hsrc, rmValue_writeZmm hrm]
    rfl
  rw [vexDone, hresult, writeZmm_writeZmm, vexDone]

/-- Settles O24: the exceptions read no vector register, the result only the sources, and the old destination is
written over. -/
theorem vexRowsIgnoreTheOldDestination : Obligations.VexRowsIgnoreTheOldDestination := by
  intro e n v s y hsrc hrm
  rw [exec_rowVex, exec_rowVex, vexForm, vexForm, writeZmm_mode]
  simp only [vexStop_writeZmm, vexDone_writeZmm_dst hsrc hrm]

/-! ### The three encodings of one addition (R144) -/

/-- Settles O25: the VEX.128 result is the packed add of the two registers, the legacy one has its low 128 bits, and
without a writemask the EVEX.128 result is the same. -/
theorem threeEncodingsAgree : Obligations.ThreeEncodingsAgree := by
  intro e l v x a b c s t u w hl hv hx hvd hv1 hv2 hxd hx1 hx2 haaa hsse hvex hevex
  obtain ⟨md, -, -, rfl⟩ := sseForm_next (exec_rowSse e l s ▸ hsse)
  obtain ⟨md', -, -, rfl⟩ := vexForm_next (exec_rowVex e .l128 v s ▸ hvex)
  obtain ⟨md'', -, -, rfl⟩ := evexForm_next (exec_rowEvex e .l128 x s ▸ hevex)
  have low : sseResult e l md s = padds e 128 (s.readZmm l.xmmDst) (s.readZmm (l.xmmRm a)) := by
    rw [sseResult, hl]; rfl
  have vex : (vexDone e 128 v md' s).readZmm l.xmmDst = sseResult e l md s := by
    rw [← hvd, vexDone_dst, vexResult, hv, hv1, low, ← hv2]; rfl
  have evex : (evexDone e 128 x md'' s).readZmm l.xmmDst = sseResult e l md s := by
    rw [← hxd, evexDone_dst, evexResult, hx, hx1, low, ← hx2]
    refine maskedPadds_eq_padds _ _ _ _ fun j hj => (writemask_getLsbD s _ ?_).2 (.inl haaa)
    exact hj.trans_le (evexElems_le e .l128)
  refine ⟨fun j hj => ?_, vex.trans evex.symm, ?_, fun j hj => sseDone_high e l md s hj⟩
  · rw [sseDone_dst, keepUpper_low _ _ hj]
    exact congrArg (BitVec.getLsbD · j) vex.symm
  · rw [← hvd]
    exact vexDone_zeroFrom e 128 v md' s

end Sys2Proof.Machine
end

section
/-!
PROOFS. The exceptions (60_exceptions.md): when a row raises #UD, #NM, #MF, #GP(0) and #AC(0), which bytes fault
suppression leaves unchecked, the free parameters, every way a meaning can stop, and the fetch that stops first.
-/

namespace Sys2Proof.Machine

/-! ### The rows in a covered mode -/

theorem exec_rowMmx_covered {s : State} {md : Mode} (hm : s.mode = some md) (e : Elem) (l : LegInstr) :
    exec (rowMmx e l) s = finish (mmxStop l md s) (mmxDone e l md s) := by
  rw [exec_rowMmx, mmxForm, hm]

theorem exec_rowSse_covered {s : State} {md : Mode} (hm : s.mode = some md) (e : Elem) (l : LegInstr) :
    exec (rowSse e l) s = finish (sseRowStop l md s) (sseDone e l md s) := by
  rw [exec_rowSse, sseForm, hm]

theorem exec_rowVex_covered {s : State} {md : Mode} (hm : s.mode = some md) (e : Elem) (n : VexLen) (v : VexInstr) :
    exec (rowVex e n v) s = finish (vexStop n.bits v md s) (vexDone e n.bits v md s) := by
  rw [exec_rowVex, vexForm, hm]

theorem exec_rowEvex_covered {s : State} {md : Mode} (hm : s.mode = some md) (e : Elem) (n : EvexLen)
    (x : EvexInstr) :
    exec (rowEvex e n x) s = finish (evexStop e n.bits x md s) (evexDone e n.bits x md s) := by
  rw [exec_rowEvex, evexForm, hm]

/-- In a mode that is not covered every meaning is refused (D2, U23). -/
theorem exec_notCovered {s : State} (hm : s.mode = none) (i : Instr) : exec i s = .refused .modeNotCovered := by
  rcases instr_rows i with ⟨e, l, rfl⟩ | ⟨e, l, rfl⟩ | ⟨e, n, v, rfl⟩ | ⟨e, n, x, rfl⟩
  · rw [exec_rowMmx, mmxForm, hm]
  · rw [exec_rowSse, sseForm, hm]
  · rw [exec_rowVex, vexForm, hm]
  · rw [exec_rowEvex, evexForm, hm]

/-! ### Every way a row can stop (R162 to R169) -/

theorem out_injective {st st' : Stop} (h : st.out = st'.out) : st = st' := by
  cases st <;> cases st' <;> cases h <;> rfl

/-- What ends an instruction is the first condition that applies. -/
theorem finish_eq_out {o : Option Stop} {t : State} {st : Stop} : finish o t = st.out ↔ o = some st := by
  cases o with
  | none => exact ⟨fun h => absurd h.symm (out_ne_next st t), nofun⟩
  | some st' => exact ⟨fun h => congrArg some (out_injective h), fun h => by rw [h, finish_some]⟩

/-- The stops of R169 from item 3 on: #NM, those of a pending x87 exception, those of a data read. -/
def IsLaterStop (s : State) (md : Mode) (st : Stop) : Prop :=
  st = raise .nm ∨ mfStop s = some st ∨ ∃ p, IsReadStop s md p st

theorem isLaterStop_of_nmStop {s : State} {md : Mode} {st : Stop} (h : nmStop s = some st) : IsLaterStop s md st := by
  unfold nmStop at h
  split at h
  · exact .inl (Option.some.inj h).symm
  · cases h

theorem mfStop_some {s : State} {st : Stop} (h : mfStop s = some st) :
    (st = raise .mf ∧ s.ne = true) ∨ (st = .refuse .externalX87Report ∧ s.ne = false ∧ s.x87Es = true) := by
  unfold mfStop at h
  split at h
  · next hes =>
    cases hne : s.ne <;> rw [hne] at h <;> obtain rfl := Option.some.inj h
    · exact .inr ⟨rfl, rfl, hes⟩
    · exact .inl ⟨rfl, rfl⟩
  · cases h

theorem isLaterStop_of_rmStop {s : State} {md : Mode} {al : Align} {c : AddrInfo} {n : Nat} {rm : Rm} {st : Stop}
    (h : rmStop s md al c n rm = some st) : IsLaterStop s md st := by
  cases rm with
  | reg r => cases h
  | mem m => exact .inr (.inr ⟨_, readStop_some h⟩)

theorem isLaterStop_of_rmStopMasked {s : State} {md : Mode} {c : AddrInfo} {e : Elem} {k : Quad} {n : Nat} {rm : Rm}
    {st : Stop} (h : rmStopMasked s md c e k n rm = some st) : IsLaterStop s md st := by
  cases rm with
  | reg r => cases h
  | mem m => exact .inr (.inr ⟨_, (maskedStop_some h).elim readStop_some readStop_some⟩)

/-- The conditions that a row tests behind its #UD give later stops only. -/
def LaterConditions (s : State) (md : Mode) (conditions : List (Option Stop)) : Prop :=
  ∀ st, some st ∈ conditions → IsLaterStop s md st

theorem laterConditions_nil (s : State) (md : Mode) : LaterConditions s md [] := nofun

theorem laterConditions_cons {s : State} {md : Mode} {o : Option Stop} {rest : List (Option Stop)}
    (ho : ∀ {st}, o = some st → IsLaterStop s md st) (h : LaterConditions s md rest) :
    LaterConditions s md (o :: rest) := fun st hst =>
  (List.mem_cons.1 hst).elim (fun heq => ho heq.symm) (h st)

/-- Behind their #UD most rows test CR0.TS and the operand. -/
theorem laterConditions_nm_operand {s : State} {md : Mode} {o : Option Stop}
    (ho : ∀ {st}, o = some st → IsLaterStop s md st) : LaterConditions s md [nmStop s, o] :=
  laterConditions_cons isLaterStop_of_nmStop (laterConditions_cons ho (laterConditions_nil s md))

/-- A row raises #UD under its condition `ud`, and otherwise stops later or not at all. -/
def TestsUdFirst (s : State) (md : Mode) (ud : Bool) (stop : Option Stop) : Prop :=
  (ud = true ∧ stop = some (raise .ud)) ∨ (ud = false ∧ ∀ st, stop = some st → IsLaterStop s md st)

theorem testsUdFirst_firstOf {s : State} {md : Mode} {rest : List (Option Stop)} (h : LaterConditions s md rest)
    (ud : Bool) : TestsUdFirst s md ud (firstOf (udIf ud :: rest)) := by
  cases ud with
  | true => exact .inl ⟨rfl, rfl⟩
  | false => exact .inr ⟨rfl, fun st hst => h st (mem_of_firstOf hst)⟩

theorem mmxStop_testsUdFirst (l : LegInstr) (md : Mode) (s : State) :
    TestsUdFirst s md (mmxUd s l) (mmxStop l md s) :=
  testsUdFirst_firstOf (laterConditions_cons isLaterStop_of_nmStop (laterConditions_cons (fun h => .inr (.inl h))
    (laterConditions_cons isLaterStop_of_rmStop (laterConditions_nil s md)))) _

theorem sseRowStop_testsUdFirst (l : LegInstr) (md : Mode) (s : State) :
    TestsUdFirst s md (sseUd s l) (sseRowStop l md s) :=
  testsUdFirst_firstOf (laterConditions_nm_operand isLaterStop_of_rmStop) _

theorem vexStop_testsUdFirst (vl : Nat) (v : VexInstr) (md : Mode) (s : State) :
    TestsUdFirst s md (vexUd vl v md s) (vexStop vl v md s) :=
  testsUdFirst_firstOf (laterConditions_nm_operand isLaterStop_of_rmStop) _

theorem evexStop_testsUdFirst (e : Elem) (vl : Nat) (x : EvexInstr) (md : Mode) (s : State) :
    TestsUdFirst s md (evexUd vl x md s) (evexStop e vl x md s) :=
  testsUdFirst_firstOf (laterConditions_nm_operand isLaterStop_of_rmStopMasked) _

/-- Every stop of an instruction: the mode is not covered, or it is #UD, or a later stop of R169. -/
theorem exec_stop {i : Instr} {s : State} {st : Stop} (h : exec i s = st.out) :
    (s.mode = none ∧ st = .refuse .modeNotCovered) ∨ st = raise .ud ∨ ∃ md, IsLaterStop s md st := by
  cases hm : s.mode with
  | none => exact .inl ⟨rfl, out_injective (h.symm.trans (exec_notCovered hm i))⟩
  | some md =>
    have stops : ∀ {ud : Bool} {o : Option Stop} {t : State}, TestsUdFirst s md ud o → finish o t = st.out →
        st = raise .ud ∨ ∃ md, IsLaterStop s md st := by
      intro ud o t ho hfin
      have hst := finish_eq_out.1 hfin
      rcases ho with ⟨-, hud⟩ | ⟨-, hlater⟩
      · exact .inl (Option.some.inj (hst.symm.trans hud))
      · exact .inr ⟨md, hlater st hst⟩
    refine .inr ?_
    rcases instr_rows i with ⟨e, l, rfl⟩ | ⟨e, l, rfl⟩ | ⟨e, n, v, rfl⟩ | ⟨e, n, x, rfl⟩
    · exact stops (mmxStop_testsUdFirst l md s) (exec_rowMmx_covered hm e l ▸ h)
    · exact stops (sseRowStop_testsUdFirst l md s) (exec_rowSse_covered hm e l ▸ h)
    · exact stops (vexStop_testsUdFirst n.bits v md s) (exec_rowVex_covered hm e n v ▸ h)
    · exact stops (evexStop_testsUdFirst e n.bits x md s) (exec_rowEvex_covered hm e n x ▸ h)

/-! ### Vectors, error codes and recorded values (R168) -/

/-- The error code of a #PF raised by a read: W/R and I/D are 0, U/S follows CPL, no bit from 5 up is 1 (R58). -/
theorem pfCode_read_bits : ∀ (p rsvd : Bool) (cpl : BitVec 2),
    (pfCode p rsvd cpl .read).getLsbD 1 = false ∧ (pfCode p rsvd cpl .read).getLsbD 4 = false
      ∧ ((pfCode p rsvd cpl .read).getLsbD 2 = true ↔ cpl = 3#2) ∧ (pfCode p rsvd cpl .read).toNat < 32 := by
  decide

/-- Settles O39, stop by stop of `exec_stop`. -/
theorem meaningsStopOnlyAsListed : Obligations.MeaningsStopOnlyAsListed := by
  refine fun i s => ⟨fun f h => ?fault, fun r h => ?refusal⟩
  case fault =>
    rcases exec_stop (st := .fault f) h with ⟨-, h⟩ | h | ⟨md, h | h | ⟨p, h | h | h | h | ⟨h, -⟩⟩⟩
    · cases h
    · exact .inl (Stop.fault.inj h)
    · exact .inr (.inl (Stop.fault.inj h))
    · obtain ⟨h, -⟩ | ⟨h, -⟩ := mfStop_some h
      · exact .inr (.inr (.inr (.inr (.inl (Stop.fault.inj h)))))
      · cases h
    · exact .inr (.inr (.inl (Stop.fault.inj h)))
    · exact .inr (.inr (.inr (.inl (Stop.fault.inj h))))
    · exact .inr (.inr (.inr (.inr (.inr (.inl (Stop.fault.inj h))))))
    · obtain ⟨b, rsvd, j, h⟩ := h
      exact .inr (.inr (.inr (.inr (.inr (.inr ⟨_, _, Stop.fault.inj h, pfCode_read_bits b rsvd s.cpl⟩)))))
    · cases h
  case refusal =>
    rcases exec_stop (st := .refuse r) h with
      ⟨hm, h⟩ | h | ⟨md, h | h | ⟨p, h | h | h | ⟨b, rsvd, j, h⟩ | ⟨h, ht⟩⟩⟩
    · exact .inl ⟨Stop.refuse.inj h, hm⟩
    · cases h
    · cases h
    · obtain ⟨h, -⟩ | ⟨h, hpending⟩ := mfStop_some h
      · cases h
      · exact .inr (.inl ⟨Stop.refuse.inj h, hpending⟩)
    · cases h
    · cases h
    · cases h
    · cases h
    · exact .inr (.inr ⟨Stop.refuse.inj h, ht⟩)

/-! ### #UD, #NM and #MF (R162 to R165) -/

theorem mmxUd_eq_false {s : State} {l : LegInstr} : mmxUd s l = false ↔ MmxEnabled s l := by
  simp [mmxUd, MmxEnabled, hasLock, and_assoc]

theorem sseUd_eq_false {s : State} {l : LegInstr} : sseUd s l = false ↔ SseEnabled s l := by
  simp [sseUd, SseEnabled, hasLock, and_assoc]

theorem IsLaterStop.ne_ud {s : State} {md : Mode} {st : Stop} (h : IsLaterStop s md st) : st ≠ raise .ud := by
  rintro rfl
  rcases h with h | h | ⟨p, h | h | h | ⟨b, rsvd, j, h⟩ | ⟨h, -⟩⟩
  · cases h
  · obtain ⟨h, -⟩ | ⟨h, -⟩ := mfStop_some h <;> cases h
  all_goals cases h

/-- A row ends in #UD exactly under its condition, for no later stop is #UD. -/
theorem TestsUdFirst.finish_eq_ud {s : State} {md : Mode} {ud : Bool} {stop : Option Stop}
    (h : TestsUdFirst s md ud stop) (t : State) :
    finish stop t = .fault (.exception .ud 6 none none) ↔ ¬ ud = false := by
  refine (finish_eq_out (st := raise .ud)).trans ?_
  rcases h with ⟨rfl, rfl⟩ | ⟨rfl, hlater⟩
  · simp
  · exact ⟨fun hst => absurd rfl (hlater _ hst).ne_ud, fun h => absurd rfl h⟩

/-- Settles O27, from the condition of each class. -/
theorem legacyRowsRaiseUdExactlyWhenNotEnabled : Obligations.LegacyRowsRaiseUdExactlyWhenNotEnabled := by
  intro e l s md hm
  rw [exec_rowMmx_covered hm, exec_rowSse_covered hm, ← mmxUd_eq_false, ← sseUd_eq_false]
  exact ⟨(mmxStop_testsUdFirst l md s).finish_eq_ud _, (sseRowStop_testsUdFirst l md s).finish_eq_ud _⟩

/-- Settles O28, from the condition of each class. -/
theorem vectorRowsRaiseUdExactlyWhenNotEnabled : Obligations.VectorRowsRaiseUdExactlyWhenNotEnabled := by
  intro e s md hm
  refine ⟨fun n v => ?vex, fun n x => ?evex⟩
  case vex =>
    rw [exec_rowVex_covered hm, ← vexUd_eq_false]
    exact (vexStop_testsUdFirst n.bits v md s).finish_eq_ud _
  case evex =>
    rw [exec_rowEvex_covered hm, ← evexUd_eq_false]
    exact (evexStop_testsUdFirst e n.bits x md s).finish_eq_ud _

/-- Behind a #UD that does not apply CR0.TS = 1 decides, whatever is tested after it. -/
theorem finish_nm {s : State} {ud : Bool} (hud : ud = false) (ht : s.ts = true) (rest : List (Option Stop))
    (t : State) : finish (firstOf (udIf ud :: nmStop s :: rest)) t = .fault (.exception .nm 7 none none) := by
  rw [hud, udIf_false, firstOf_none, nmStop, if_pos ht]
  rfl

/-- Settles O29: #NM stands second in the conditions of every class. -/
theorem taskSwitchedRaisesNm : Obligations.TaskSwitchedRaisesNm := by
  intro e s md hm ht
  refine ⟨fun l he => ?mmx, fun l he => ?sse, fun n v he => ?vex, fun n x he => ?evex⟩
  case mmx => rw [exec_rowMmx_covered hm]; exact finish_nm (mmxUd_eq_false.2 he) ht _ _
  case sse => rw [exec_rowSse_covered hm]; exact finish_nm (sseUd_eq_false.2 he) ht _ _
  case vex => rw [exec_rowVex_covered hm]; exact finish_nm (vexUd_eq_false.2 he) ht _ _
  case evex => rw [exec_rowEvex_covered hm]; exact finish_nm (evexUd_eq_false.2 he) ht _ _

/-- Settles O30: the pending exception stands third in the conditions of an MMX row, before its operand. -/
theorem pendingX87StopsMmxRows : Obligations.PendingX87StopsMmxRows := by
  intro e l s md hm he ht hes
  rw [exec_rowMmx_covered hm, mmxStop, mmxUd_eq_false.2 he, udIf_false, firstOf_none, nmStop_eq_none.2 ht,
    firstOf_none, mfStop, if_pos hes, firstOf_some, finish_some]
  cases s.ne <;> rfl

/-! ### Fault suppression (R165) -/

/-- Settles O16: the check passes over the bytes of masked-off elements, and the next state is `evexDone`. -/
theorem suppressedBytesDoNotFault : Obligations.SuppressedBytesDoNotFault := by
  intro e n x s md hm he ht hsup haaa hr
  have hmask : s.writemask x.aaa = s.readK x.aaa := if_neg haaa
  have hoperand : rmStopMasked s md (evexAddr n.bits x s) e (s.writemask x.aaa) (n.bits / 8) x.rm = none :=
    rmStopMasked_yes_none hsup (hmask ▸ hr)
  have hstop : evexStop e n.bits x md s = none := by
    rw [evexStop, evexUd_eq_false.2 he, udIf_false, nmStop_eq_none.2 ht, hoperand]
    rfl
  refine ⟨evexDone e n.bits x md s, exec_rowEvex_done hm hstop, fun j hj => ?_, evexDone_zeroFrom e n.bits x md s,
    rfl, frame_writeZmm_retire ..⟩
  have h := evexDone_lane e n x md s hj
  rw [rmValue_eq, if_congr (or_iff_right haaa) rfl rfl] at h
  exact h

/-! ### Offsets past FFFFH (R163, R164) -/

theorem formStop_pastFfff {s : State} {md : Mode} {p : Place} {i : Nat} (hmd : md = .real ∨ md = .v86)
    (h : 2 ^ 16 ≤ p.ea.toNat + i) : formStop s md p i = some (raise .gp) := by
  have hmode : ¬ (md = .mode64 ∧ canonical s.linearWidth (byteAddr md p i) = false) := by
    rcases hmd with rfl | rfl <;> exact fun h => nomatch h.1
  rw [formStop, if_neg hmode, if_pos ⟨hmd, h⟩]

/-- In real-address and virtual-8086 mode a byte without a verdict #SS(0) passes item 5 or raises #GP(0). -/
theorem formStop_real {s : State} {md : Mode} {p : Place} {i : Nat} (hmd : md = .real ∨ md = .v86)
    (h : p.ea.toNat + i < 2 ^ 16 → s.translate .read p.seg (byteAddr md p i) ≠ .ss) :
    formStop s md p i = none ∨ formStop s md p i = some (raise .gp) := by
  have hnot64 : md = .mode64 → canonical s.linearWidth (byteAddr md p i) = true := by
    rcases hmd with rfl | rfl <;> exact nofun
  by_cases hoff : p.ea.toNat + i < 2 ^ 16
  · by_cases hgp : s.translate .read p.seg (byteAddr md p i) = .gp
    · exact .inr (formStop_segmentVerdict (.inl ⟨rfl, rfl⟩) hnot64 (fun _ => hoff) hgp)
    · exact .inl (formStop_eq_none.2 ⟨hnot64, fun _ => hoff, hgp, h hoff⟩)
  · exact .inr (formStop_pastFfff hmd (Nat.not_lt.1 hoff))

/-- Where the last byte lies past the offset, every byte below it passes item 5 or raises the same #GP(0). -/
theorem readStopsAt_pastFfff {s : State} {md : Mode} {al : Align} {p : Place} {j : Nat} (hmd : md = .real ∨ md = .v86)
    (hss : ∀ i < j, p.ea.toNat + i < 2 ^ 16 → s.translate .read p.seg (byteAddr md p i) ≠ .ss)
    (h : 2 ^ 16 ≤ p.ea.toNat + j) (checked : Nat → Prop) : ReadStopsAt s md al p checked j (raise .gp) :=
  fun _ hsorted hj _ => readStop_of_form (firstOf_map_of_below hsorted hj
    (fun i _ hij => formStop_real hmd (hss i hij)) (formStop_pastFfff hmd h))

/-- Settles O33: the check of the operand stops at its last byte at the latest. -/
theorem offsetPastFfffRaisesGp : Obligations.OffsetPastFfffRaisesGp := by
  intro e l m s md hmd hm ht hrm hss
  refine ⟨fun he h => ?sse, fun he hx h => ?mmx⟩
  case sse =>
    exact exec_rowSse_readStopsAt hm ht hrm he (by decide)
      (readStopsAt_pastFfff hmd (fun i hi => hss i (by omega)) h _)
  case mmx =>
    exact exec_rowMmx_readStopsAt hm ht hrm he hx (by decide)
      (readStopsAt_pastFfff hmd (fun i hi => hss i (by omega)) h _)

/-! ### Parameters that are `either` (R165, R166; logs 10, 11) -/

/-- An outcome with its next state, where it is one, changed. -/
def mapNext (f : State → State) : Host.Outcome State Fault Refusal → Host.Outcome State Fault Refusal
  | .next t => .next (f t)
  | .fault x => .fault x
  | .refused r => .refused r

theorem mapNext_finish (f : State → State) (o : Option Stop) (t : State) :
    mapNext f (finish o t) = finish o (f t) := by
  rcases o with _ | ⟨x⟩ | ⟨r⟩ <;> rfl

/-- Where the checks of all bytes and of the enabled ones differ, the free value of log 10 takes one of them. -/
theorem maskedStop_either (s : State) (full part : Option Stop) :
    ∃ c ∈ [Choice.yes, Choice.no],
      maskedStop { s with suppression := .either } full part = maskedStop { s with suppression := c } full part := by
  by_cases heq : full = part
  · exact ⟨.yes, by decide, (if_pos heq).trans heq⟩
  · cases hfree : Config.suppressMasked s.draws with
    | true => exact ⟨.yes, by decide, (if_neg heq).trans (if_pos hfree)⟩
    | false => exact ⟨.no, by decide, (if_neg heq).trans (if_neg (by simp [hfree]))⟩

theorem rmStopMasked_either (s : State) (md : Mode) (c : AddrInfo) (e : Elem) (k : Quad) (n : Nat) (rm : Rm) :
    ∃ a ∈ [Choice.yes, Choice.no],
      rmStopMasked { s with suppression := .either } md c e k n rm =
        rmStopMasked { s with suppression := a } md c e k n rm := by
  cases rm with
  | reg r => exact ⟨.yes, by decide, rfl⟩
  | mem m => exact maskedStop_either s _ _

/-- Under `either` an EVEX row does what it does under `yes` or under `no` (R165, D19). -/
theorem exec_rowEvex_either (e : Elem) (n : EvexLen) (x : EvexInstr) (s : State) :
    ∃ c ∈ [Choice.yes, Choice.no],
      exec (rowEvex e n x) { s with suppression := .either } =
        mapNext (fun t => { t with suppression := .either }) (exec (rowEvex e n x) { s with suppression := c }) := by
  have hm' : ∀ c : Choice, State.mode { s with suppression := c } = s.mode := fun _ => rfl
  cases hm : s.mode with
  | none =>
    rw [hm] at hm'
    refine ⟨.yes, by decide, ?_⟩
    rw [exec_notCovered (hm' _), exec_notCovered (hm' _)]
    rfl
  | some md =>
    rw [hm] at hm'
    obtain ⟨c, hc, hrm⟩ :=
      rmStopMasked_either s md (evexAddr n.bits x s) e (s.writemask x.aaa) (n.bits / 8) x.rm
    have hstop : evexStop e n.bits x md { s with suppression := .either } =
        evexStop e n.bits x md { s with suppression := c } :=
      congrArg (fun o => firstOf [udIf (evexUd n.bits x md s), nmStop s, o]) hrm
    refine ⟨c, hc, ?_⟩
    rw [exec_rowEvex_covered (hm' _), exec_rowEvex_covered (hm' _), mapNext_finish, hstop]
    rfl

/-- The value of `alignment_check` that the free value of log 11 stands for. -/
def alignChoice (s : State) : Choice := if Config.alignTrap s.draws then .yes else .no

theorem acStop_either (s : State) (al : Align) (p : Place) :
    acStop { s with alignmentCheck := .either } al p = acStop { s with alignmentCheck := alignChoice s } al p := by
  have hpick : (alignChoice s).pick (Config.alignTrap s.draws) = Config.alignTrap s.draws := by
    unfold alignChoice
    cases Config.alignTrap s.draws <;> rfl
  have hac : ∀ c : Choice, acStop { s with alignmentCheck := c } al p =
      if s.alignmentChecked = true ∧ multipleOf 8 p.la = false ∧
        (if al = .mmx then true else c.pick (Config.alignTrap s.draws)) = true
      then some (raise .ac) else none := fun _ => rfl
  rw [hac, hac, hpick]
  rfl

theorem readStop_either (s : State) (md : Mode) (al : Align) (p : Place) (bytes : List Nat) :
    readStop { s with alignmentCheck := .either } md al p bytes =
      readStop { s with alignmentCheck := alignChoice s } md al p bytes := by
  rw [readStop, acStop_either]
  rfl

theorem rmStop_either (s : State) (md : Mode) (al : Align) (c : AddrInfo) (n : Nat) (rm : Rm) :
    rmStop { s with alignmentCheck := .either } md al c n rm =
      rmStop { s with alignmentCheck := alignChoice s } md al c n rm := by
  cases rm with
  | reg r => rfl
  | mem m => exact readStop_either s md al (place s md c m) _

theorem rmStopMasked_alignEither (s : State) (md : Mode) (c : AddrInfo) (e : Elem) (k : Quad) (n : Nat) (rm : Rm) :
    rmStopMasked { s with alignmentCheck := .either } md c e k n rm =
      rmStopMasked { s with alignmentCheck := alignChoice s } md c e k n rm := by
  cases rm with
  | reg r => rfl
  | mem m =>
    rw [rmStopMasked, readStop_either, readStop_either]
    rfl

/-- Under `either` every instruction does what it does under the value that the free value stands for (R166, D21). -/
theorem exec_alignEither (i : Instr) (s : State) :
    exec i { s with alignmentCheck := .either } =
      mapNext (fun t => { t with alignmentCheck := .either })
        (exec i { s with alignmentCheck := alignChoice s }) := by
  have hm' : ∀ c : Choice, State.mode { s with alignmentCheck := c } = s.mode := fun _ => rfl
  cases hm : s.mode with
  | none =>
    rw [hm] at hm'
    rw [exec_notCovered (hm' _), exec_notCovered (hm' _)]
    rfl
  | some md =>
    rw [hm] at hm'
    rcases instr_rows i with ⟨e, l, rfl⟩ | ⟨e, l, rfl⟩ | ⟨e, n, v, rfl⟩ | ⟨e, n, x, rfl⟩
    · rw [exec_rowMmx_covered (hm' _), exec_rowMmx_covered (hm' _), mapNext_finish, mmxStop, rmStop_either]; rfl
    · rw [exec_rowSse_covered (hm' _), exec_rowSse_covered (hm' _), mapNext_finish, sseRowStop, rmStop_either]; rfl
    · rw [exec_rowVex_covered (hm' _), exec_rowVex_covered (hm' _), mapNext_finish, vexStop, rmStop_either]; rfl
    · rw [exec_rowEvex_covered (hm' _), exec_rowEvex_covered (hm' _), mapNext_finish, evexStop,
        rmStopMasked_alignEither]
      rfl

theorem withSuppression_self {s : State} {c : Choice} (h : s.suppression = c) : { s with suppression := c } = s := by
  rw [← h]

theorem withAlignmentCheck_self {s : State} {c : Choice} (h : s.alignmentCheck = c) :
    { s with alignmentCheck := c } = s := by
  rw [← h]

/-- Settles O35, from the value that does what `either` does, of each parameter. -/
theorem eitherIsOneOfTheTwo : Obligations.EitherIsOneOfTheTwo := by
  intro e n x s
  obtain ⟨c, hc, hsup⟩ := exec_rowEvex_either e n x s
  refine ⟨⟨c, hc, ?suppression⟩, alignChoice s, ?_, fun i => ?alignment⟩
  case suppression =>
    split <;> next h => exact fun hs => by rw [h, withSuppression_self hs] at hsup; exact hsup
  · unfold alignChoice
    split <;> decide
  case alignment =>
    have halign := exec_alignEither i s
    split <;> next h => exact fun hs => by rw [h, withAlignmentCheck_self hs] at halign; exact halign

/-! ### Alignment checking (R166) -/

/-- Of a readable operand only the alignment tests of items 6 and 8 are left. -/
theorem readStop_of_readable {s : State} {md : Mode} {al : Align} {p : Place} {bytes : List Nat}
    (hread : ∀ i ∈ bytes, ByteReadable s md p i) :
    readStop s md al p bytes = firstOf [sseStop s al p, acStop s al p] := by
  rw [readStop, firstOf_map_none fun i hi => formStop_none (hread i hi), firstOf_none,
    firstOf_map_none fun i hi => pageStop_none (hread i hi)]
  cases sseStop s al p <;> rfl

section
variable {s : State} {p : Place} (ham : s.am = true) (hac : s.ac = true) (hcpl : s.cpl = 3#2)
  (hla : p.la.toNat % 8 ≠ 0)
include ham hac hcpl hla

theorem acStop_misaligned {al : Align} (hal : al = .mmx ∨ s.alignmentCheck = .yes) :
    acStop s al p = some (raise .ac) := by
  have hchecked : s.alignmentChecked = true := by simp [State.alignmentChecked, ham, hac, hcpl]
  have hoff : multipleOf 8 p.la = false := by simp [multipleOf, hla]
  have hasked : (if al = .mmx then true else s.alignmentCheck.pick (Config.alignTrap s.draws)) = true := by
    rcases hal with rfl | hal
    · rfl
    · rw [hal]; exact ite_self true
  rw [acStop, if_pos ⟨hchecked, hoff, hasked⟩]

/-- A readable operand off an 8-byte boundary that passes item 6 raises #AC(0). -/
theorem readStop_misaligned {md : Mode} {al : Align} {bytes : List Nat} (hal : al = .mmx ∨ s.alignmentCheck = .yes)
    (hsse : sseStop s al p = none) (hread : ∀ i ∈ bytes, ByteReadable s md p i) :
    readStop s md al p bytes = some (raise .ac) := by
  rw [readStop_of_readable hread, hsse, firstOf_none, acStop_misaligned ham hac hcpl hla hal, firstOf_some]

/-- The same for a legacy SSE operand, which item 6 lets through only where its effective address is aligned. -/
theorem readStop_sse_misaligned {md : Mode} {bytes : List Nat} (hyes : s.alignmentCheck = .yes)
    (hread : ∀ i ∈ bytes, ByteReadable s md p i) :
    readStop s md .sse p bytes = some (raise .gp)
      ∨ (readStop s md .sse p bytes = some (raise .ac) ∧ p.ea.toNat % 16 = 0) := by
  rcases sseStop_cases s .sse p with hsse | hsse
  · refine .inr ⟨readStop_misaligned ham hac hcpl hla (.inr hyes) hsse hread, ?_⟩
    by_contra hea
    rw [sseStop_misaligned (by omega) hea] at hsse
    cases hsse
  · exact .inl (by rw [readStop_of_readable hread, hsse, firstOf_some])

end

/-- Settles O38, by class of row: the operand's bytes are readable, so the alignment tests decide. -/
theorem alignmentCheckRaisesAc : Obligations.AlignmentCheckRaisesAc := by
  intro e m s md hm ht ham hac hcpl report
  refine ⟨fun l hrm hla => ⟨fun he hx hread => ?mmx, fun he hyes hread => ?sse⟩,
    fun n v hrm he hyes hla hread => ?vex, fun n x hrm he hyes hla hread => ?evex⟩
  case mmx =>
    refine exec_rowMmx_stop hm he ht hx (st := raise .ac) ?_
    rw [hrm]
    exact readStop_misaligned ham hac hcpl hla (.inl rfl) (sseStop_mmx s _) fun i hi => hread i (List.mem_range.1 hi)
  case sse =>
    have hstop := readStop_sse_misaligned ham hac hcpl hla (md := md) (bytes := List.range 16) hyes
      fun i hi => hread i (List.mem_range.1 hi)
    have raises : ∀ {st}, readStop s md .sse (place s md (legAddr l s) m) (List.range 16) = some st →
        exec (rowSse e l) s = st.out := fun h => exec_rowSse_stop hm he ht (by rw [hrm]; exact h)
    exact hstop.imp raises (And.imp_left raises)
  case vex =>
    refine exec_rowVex_stop hm he ht (st := raise .ac) ?_
    rw [hrm]
    exact readStop_misaligned ham hac hcpl hla (.inr hyes) (sseStop_vector s _)
      fun i hi => hread i (List.mem_range.1 hi)
  case evex =>
    have stops : ∀ {bytes : List Nat}, (∀ i ∈ bytes, EvexChecked e n x s i) →
        readStop s md .vector (place s md (evexAddr n.bits x s) m) bytes = some (raise .ac) := fun hbytes =>
      readStop_misaligned ham hac hcpl hla (.inr hyes) (sseStop_vector s _) fun i hi => hread i (hbytes i hi)
    refine exec_rowEvex_stop hm he ht (st := raise .ac) ?_
    rw [hrm]
    refine rmStopMasked_some (fun hsup => stops fun i hi => ?full) fun _ => stops fun i hi => ?part
    case full => exact ⟨List.mem_range.1 hi, fun h => absurd h hsup⟩
    case part =>
      obtain ⟨hlt, henabled⟩ := (mem_enabledBytes (evexBytes_le n)).1 hi
      exact ⟨hlt, fun _ => henabled⟩

/-! ### The fetch that stops first (R167, R169 item 1) -/

/-- A fetch gives the bytes below the first that cannot be fetched, and the reason of that one. -/
theorem fetchFrom_stops {s : State} {md : Mode} {bs : List Byte} {st : Stop} {n k : Nat} (hn : bs.length < n)
    (h : ∀ j (hj : j < bs.length), fetchByte s md (k + j) = .ok bs[j])
    (hst : fetchByte s md (k + bs.length) = .error st) : fetchFrom s md n k = (bs, some st) := by
  induction bs generalizing n k with
  | nil =>
    obtain ⟨n, rfl⟩ := Nat.exists_eq_add_one_of_ne_zero (Nat.ne_of_gt hn)
    have hstop : fetchByte s md k = .error st := hst
    rw [fetchFrom, hstop]
  | cons b bs ih =>
    obtain ⟨n, rfl⟩ := Nat.exists_eq_add_one_of_ne_zero (Nat.ne_of_gt (Nat.zero_lt_of_lt hn))
    have hb : fetchByte s md k = .ok b := h 0 (Nat.succ_pos _)
    have hrest : fetchFrom s md n (k + 1) = (bs, some st) := ih (Nat.lt_of_succ_lt_succ hn)
      (fun j hj => by rw [Nat.add_right_comm]; exact h (j + 1) (Nat.succ_lt_succ hj))
      (by rw [Nat.add_right_comm]; exact hst)
    rw [fetchFrom, hb]
    dsimp only
    rw [hrest]

/-- Settles O48: the decoder is given the bytes below the one that stops, and wants more. -/
theorem fetchFaultComesFirst : Obligations.FetchFaultComesFirst := by
  intro s md bs st hm he hlen hbytes hst hshort
  have hfetch : fetchFrom s md maxLen 0 = (bs, some st) :=
    fetchFrom_stops hlen (fun j hj => by rw [Nat.zero_add]; exact hbytes j hj) (by rw [Nat.zero_add]; exact hst)
  rw [step_short hm he (by rw [hfetch]; exact hshort), hfetch]
  rfl

end Sys2Proof.Machine
end

section
/-!
PROOFS. Runs: how far a step moves RIP, straight lines, the launch premises, and the end of a run
(70_reset_and_hazards.md R190, R196).
-/

namespace Sys2Proof.Machine

/-! ### The end of a run (R196) -/

/-- Settles O50: the test of `end_address` is the first of `step`. -/
theorem runIsOverAtTheEndAddress : Obligations.RunIsOverAtTheEndAddress := by
  intro s h
  rw [step, if_pos h]

/-! ### How far a step moves RIP (10_state.md R27, 30_encoding.md R80) -/

theorem fetchFrom_length_le (s : State) (md : Mode) (n k : Nat) : (fetchFrom s md n k).1.length ≤ n := by
  induction n generalizing k with
  | zero => exact Nat.le_refl 0
  | succ n ih =>
    rw [fetchFrom]
    split
    · exact Nat.zero_le _
    · exact Nat.succ_le_succ (ih (k + 1))

/-- A step that answers a next state ran one instruction of 3 to 15 bytes. -/
theorem step_next_len {s t : State} (h : step s = .next t) :
    ∃ i : Instr, 3 ≤ i.len ∧ i.len ≤ maxLen ∧ exec i s = .next t := by
  obtain ⟨md, i, rest, -, -, hdecode, hexec⟩ := step_next h
  obtain ⟨hlength, hmin, -⟩ := admittedLengths md _ rest i hdecode
  have hfetched := fetchFrom_length_le s md maxLen 0
  exact ⟨i, hmin, by omega, hexec⟩

/-- Where the addition stays below the top of the address space, RIP does not wrap. -/
theorem nextRip_toNat_of_lt {md : Mode} {rip : Quad} {n : Nat} (h : rip.toNat + n < 2 ^ spaceBits md) :
    (nextRip md rip n).toNat = rip.toNat + n := by
  by_cases hmd : md = .mode64
  · subst hmd
    have h64 : rip.toNat + n < 2 ^ 64 := h
    rw [nextRip_mode64, BitVec.toNat_add, BitVec.toNat_ofNat]
    omega
  · rw [spaceBits, if_neg hmd] at h
    rw [nextRip_toNat hmd, Nat.mod_eq_of_lt h]

/-- Every address space has 32 bits or more (20_memory.md R50). -/
theorem two_pow_32_le_two_pow_spaceBits (md : Mode) : 2 ^ 32 ≤ 2 ^ spaceBits md :=
  Nat.pow_le_pow_right (by decide) (by cases md <;> decide)

/-! ### Straight lines (R196) -/

/-- Settles O54, by induction on the number of steps: each adds the length of its instruction. -/
theorem runsAreStraightLines : Obligations.RunsAreStraightLines := by
  intro k
  induction k with
  | zero =>
    rintro s t - rfl
    exact ⟨0, Nat.le_refl 0, Nat.le_refl 0, (BitVec.add_zero s.rip).symm⟩
  | succ k ih =>
    rintro s t hm ⟨u, hstep, hrun⟩
    obtain ⟨i, hmin, hmax, hexec⟩ := step_next_len hstep
    have hu : u.rip = s.rip + BitVec.ofNat 64 i.len := (ripPassesTheInstruction i s u hexec).1 hm
    obtain ⟨d, hlo, hhi, ht⟩ := ih u t ((exec_mode hexec).trans hm) hrun
    have hlen : i.len ≤ 15 := hmax
    refine ⟨i.len + d, by omega, by omega, ?_⟩
    rw [ht, hu, BitVec.add_assoc, ← BitVec.ofNat_add]

/-! ### The launch premises (R190; logs 8, 21) -/

/-- No instruction writes what `translate` depends on. -/
theorem translate_of_kept {s t : State} (h : Kept s t) : t.translate = s.translate := by
  have hcs : t.cs = s.cs := h.segments .cs
  funext acc seg la
  rw [State.translate, State.translate, h.translation, State.cpl, State.cpl, hcs]

/-- The code bytes after an instruction are those that followed it before. -/
theorem exec_codeAddr {i : Instr} {s t : State} {md : Mode} (hm : s.mode = some md) (h : exec i s = .next t)
    (k : Nat) : codeAddr t md k = codeAddr s md (i.len + k) := by
  obtain ⟨md', hm', ht⟩ := exec_next h
  obtain rfl : md' = md := Option.some.inj (hm'.symm.trans hm)
  rcases ht with ⟨r, v, rfl⟩ | ⟨r, v, rfl⟩
  · exact codeAddr_retire (s.writeMm r v) md' i.len k
  · exact codeAddr_retire (s.writeZmm r v) md' i.len k

/-- An MMX row clears TOP, and no row writes another bit of the x87 status word (10_state.md R23). -/
theorem exec_x87Es {i : Instr} {s t : State} (h : exec i s = .next t) : t.x87Es = s.x87Es := by
  obtain ⟨md, -, ⟨r, v, rfl⟩ | ⟨r, v, rfl⟩⟩ := exec_next h
  · exact (clearTop s.x87Status).2 7 (by decide)
  · rfl

/-- The bytes still to run were admitted already, where RIP does not wrap. -/
theorem exec_codeAdmitted {i : Instr} {s t : State} {md : Mode} (hm : s.mode = some md)
    (hclear : s.rip.toNat + i.len < 2 ^ spaceBits md) (hs : CodeAdmitted s md) (h : exec i s = .next t) :
    CodeAdmitted t md := by
  have kept := exec_kept h
  obtain ⟨md', hm', hrip⟩ := exec_rip h
  obtain rfl : md' = md := Option.some.inj (hm'.symm.trans hm)
  intro e k he hk
  rw [hrip, nextRip_toNat_of_lt hclear, Nat.add_assoc] at hk
  rw [translate_of_kept kept, exec_codeAddr hm h]
  exact hs e (i.len + k) (kept.endAddress ▸ he) hk

/-- Settles O55: what the premises read is kept, and the code bytes from the new RIP on are among the old ones. -/
theorem launchPremisesPersist : Obligations.LaunchPremisesPersist := by
  rintro s t ⟨⟨md, hm, hcovered, hcode⟩, htf, hes, hfixed⟩ hclear h
  obtain ⟨i, -, hlen, hexec⟩ := step_next_len h
  have kept := exec_kept hexec
  have hspace : s.rip.toNat + i.len < 2 ^ spaceBits md := by
    rcases hclear with h32 | ⟨h64, hlt⟩
    · exact (by omega : s.rip.toNat + i.len < 2 ^ 32).trans_le (two_pow_32_le_two_pow_spaceBits md)
    · obtain rfl : md = .mode64 := Option.some.inj (hm.symm.trans h64)
      exact (by omega : s.rip.toNat + i.len < 2 ^ 64)
  refine ⟨⟨md, (exec_mode hexec).trans hm, hcovered, exec_codeAdmitted hm hspace hcode hexec⟩, ?tf, ?es, ?fixed⟩
  case tf => rw [State.readRflags, kept.rflags]; exact htf
  case es => rw [State.ne, kept.cr0, exec_x87Es hexec]; exact hes
  case fixed => rw [FixedBits, kept.rflags, kept.xcr0]; exact hfixed

end Sys2Proof.Machine
end
